-- ==== Sys2Proof/Word.lean ====
section
/-! DEFINITION. The words of Desktop-Thermometer CORE: one width per datum (00_scope.md R6,
10_state.md R141). All are plain bit vectors, so that the library's lemmas apply. -/

namespace Sys2Proof

/-- One command word, `cmd[15:0]` (30_encoding.md R48). -/
abbrev CmdWord := BitVec 16

/-- One byte: a cell of the segment ROM, a SegmentPattern (30_encoding.md R53). -/
abbrev Byte := BitVec 8

/-- One RawSample, a 10-bit conversion result in 0..1023 (00_scope.md R8). -/
abbrev RawSample := BitVec 10

/-- An AveragedVoltage, or the operand of CONVERT: 12 bits of millivolts (10_state.md R13). -/
abbrev Millivolts := BitVec 12

/-- One 4-bit digit field (10_state.md R15, 30_encoding.md R48). -/
abbrev Digit := BitVec 4

/-- A digit position, 2 bits (41_segment_encoder.md R60). -/
abbrev Position := BitVec 2

/-- One 24-bit stage of the shift-register chain (20_memory.md R37). -/
abbrev Stage := BitVec 24

end Sys2Proof
end

