-- ==== Sys2Proof/Config.lean ====
section
/-! DEFINITION. What one built unit of CORE fixes (00_scope.md R4), and the free values: constants
without a body, so that nothing can be proved of their value. -/

namespace Sys2Proof

/-- The parameters of 00_scope.md R4 that are not the same in every unit. They are configuration,
not state (10_state.md R9): no operation writes them. -/
structure Config where
  /-- `N_SAMPLES`: conversions per averaging cycle. -/
  nSamples : Nat
  /-- `SCALE`: millivolts per ADC count. -/
  scale : Nat
  /-- `OFFSET_MV`: the sensor voltage at 0 degrees Celsius. -/
  offsetMv : Nat
  /-- `F_CLK`, in hertz: a rational number, so that 32768.5 and 1/2 are clocks (log 3). -/
  fClk : Rat
  /-- `PULSE_TICKS`. -/
  pulseTicks : Nat
  /-- `SETTLE_TICKS`. -/
  settleTicks : Nat
  /-- `SEG_ROM` (20_memory.md R32 to R36): the 30 defined cells of the ROM address space, as
  (address, byte) pairs with rising addresses; every other address is a hole. -/
  segRom : List Host.Cell
  deriving DecidableEq, Repr

/-- `ADC_BITS` (00_scope.md R4). -/
def Config.adcBits : Nat := 10

/-- `N_DIGITS` (00_scope.md R4). -/
def Config.nDigits : Nat := 3

/-- `DP_BIT` (00_scope.md R4): the bit of a SegmentPattern that is the decimal point. -/
def Config.dpBit : Nat := 6

/-- `DP_POS` (00_scope.md R4): the position wired with the decimal point. -/
def Config.dpPos : Position := 1

/-- `V_REF_MV` (00_scope.md R4): informative, the ground of `SCALE`. -/
def Config.vRefMv : Nat := 2048

/-- `T_PULSE_MIN` in microseconds (00_scope.md R4). -/
def Config.tPulseMinUs : Rat := 40

/-- `STALL_TIMEOUT` (00_scope.md R4): none, the wait is unbounded. -/
def Config.stallTimeout : Option Nat := none

/-! ### Free values: no body, nothing can be proved of them (log 3 to 6) -/

/-- The `n`-th free value drawn, when it is an `unspecified_8` (20_memory.md R35, U1). -/
opaque Config.freeByte : Nat → Byte

/-- The `n`-th free value drawn, when it is an `unspecified_4` (43_temperature_converter.md R76, U2). -/
opaque Config.freeDigit : Nat → Digit

/-- The `n`-th free value drawn, when it is a stage of the chain (70_reset_and_hazards.md R116, R117, U8). -/
opaque Config.freeStage : Nat → Stage

/-- What the ADC answers to its `n`-th trigger beyond the script of the state: nothing, ever (the
stall), or a number of waiting ticks and a result (60_exceptions.md R107, U3, U10). -/
opaque Config.adcAnswer : Nat → Option (Nat × RawSample)

/-- The level of `adc_done` and the value of `adc_data` at reset (60_exceptions.md R107 item 1). -/
opaque Config.adcIdlePins : Bool × RawSample

/-- What `F_CLK` of the open configuration is made from (00_scope.md R4: OPEN, positive): a numerator
and a denominator less 1. -/
opaque Config.openClock : Nat × Nat

/-- `PULSE_TICKS` of the open configuration, less 1 (00_scope.md R4: OPEN, at least 1). -/
opaque Config.openPulse : Nat

/-- `SETTLE_TICKS` of the open configuration, less 1 (00_scope.md R4: OPEN, at least 1). -/
opaque Config.openSettle : Nat

/-- The bytes of the open `SEG_ROM` for the digits 1 to 9 (20_memory.md R34: OPEN), by address. -/
opaque Config.openSegByte : Nat → Byte

/-- The byte of the open `SEG_ROM` for the digit 0 at a position, less 1: it is not 0x00 (20_memory.md
R34 item 2) and nothing else is known of it. -/
opaque Config.openZeroDigit : Nat → Fin 255

end Sys2Proof
end

