-- ==== Sys2Proof/Syntax.lean ====
section
/-! DEFINITION. The nine commands, one constructor per row of spec/opcode_table.json
(30_encoding.md R50). An operand has exactly the width of its field (R48, R49). -/

namespace Sys2Proof

/-- A command with its operands. One-bit operands are levels: `true` is 1 (30_encoding.md R49). -/
inductive Instr where
  /-- NOP (46_cycle_and_nop.md R95). -/
  | nop
  /-- SAMPLE (42_analog_sampler.md R64). -/
  | sample
  /-- CONVERT `#mv` (43_temperature_converter.md R74): a voltage in millivolts. -/
  | convert (mv : Millivolts)
  /-- ENCODE `p, val, dp` (41_segment_encoder.md R62); the fields in the order of the word. -/
  | encode (p : Position) (dp : Bool) (val : Digit)
  /-- PUSHBIT `b` (44_shift_register_bus.md R79). -/
  | pushbit (b : Bool)
  /-- PUSHBYTE `#x` (44_shift_register_bus.md R81). -/
  | pushbyte (x : Byte)
  /-- LATCH (44_shift_register_bus.md R83). -/
  | latch
  /-- SHOW `t, o, h` (45_display_controller.md R86): tens, ones, tenths. -/
  | showDigits (t o h : Digit)
  /-- CYCLE (46_cycle_and_nop.md R93). -/
  | cycle
  deriving DecidableEq, Repr

end Sys2Proof
end

