-- ==== Sys2Proof/WellFormed.lean ====
section
/-! DEFINITION. Which terms mean something: commands (their operand widths are their types), legal
configurations (00_scope.md R5), and the operand ranges a caller owes (70_reset_and_hazards.md
R123, R124). -/

namespace Sys2Proof

/-- A command is well formed when each operand fits its field (30_encoding.md R48). Every operand
field of `Instr` has the width of the encoding, so an ill-formed command cannot be written down: the
check holds of every term. -/
def Instr.wellFormed : Instr → Bool
  | .nop | .sample | .latch | .cycle => true
  | .convert mv => mv.toNat < 2 ^ 12
  | .encode p _ val => p.toNat < 2 ^ 2 && val.toNat < 2 ^ 4
  | .pushbit _ => true
  | .pushbyte x => x.toNat < 2 ^ 8
  | .showDigits t o h => t.toNat < 2 ^ 4 && o.toNat < 2 ^ 4 && h.toNat < 2 ^ 4

/-- The addresses of the 30 defined ROM cells, `16 * p + v` (20_memory.md R35, R36). -/
def romAddrs : List Nat :=
  [0, 1, 2, 3, 4, 5, 6, 7, 8, 9] ++ [16, 17, 18, 19, 20, 21, 22, 23, 24, 25] ++
    [32, 33, 34, 35, 36, 37, 38, 39, 40, 41]

/-- The canonical form of a memory that is a list of cells: addresses strictly rising. An unlisted
address reads as no byte at all, so no listed cell can equal it. -/
def Memory.wf (m : List Host.Cell) : Bool := decide ((m.map Prod.fst).Pairwise (· < ·))

/-- Is the byte for the digit 0 all zero at some position (20_memory.md R34 item 2)? -/
def Memory.zeroDigitDark (m : List Host.Cell) : Bool := m.any fun x => x.1 % 16 == 0 && x.2 == 0

/-- Why a configuration is illegal (00_scope.md R4, R5). -/
inductive ConfigError where
  /-- `N_SAMPLES` is not in 1..65535. -/
  | nSamples
  /-- `SCALE` is not in 1..4. -/
  | scale
  /-- `OFFSET_MV` is above 4095. -/
  | offsetMv
  /-- `F_CLK` is not positive. -/
  | fClk
  /-- `PULSE_TICKS` is 0. -/
  | pulseTicks
  /-- `PULSE_TICKS / F_CLK` is below 40 microseconds (44_shift_register_bus.md R84, U15). -/
  | pulseTooShort
  /-- `SETTLE_TICKS` is 0. -/
  | settleTicks
  /-- `SEG_ROM` does not hold exactly the 30 defined cells, in order (20_memory.md R34, R36). -/
  | romShape
  /-- `SEG_ROM[p][0]` is 0x00 for some position (20_memory.md R34 item 2). -/
  | romZeroDigit
  deriving DecidableEq, Repr

/-- The first thing that makes a configuration illegal, if any (00_scope.md R5). The two products
that R5 names beside the ranges, `SCALE * 1023 <= 4095` and `N_SAMPLES * 1023 < 2^32`, follow from
the ranges (`Config.legal_products`). -/
def Config.error? (c : Config) : Option ConfigError :=
  if ¬ (1 ≤ c.nSamples ∧ c.nSamples ≤ 65535) then some .nSamples
  else if ¬ (1 ≤ c.scale ∧ c.scale ≤ 4) then some .scale
  else if ¬ c.offsetMv ≤ 4095 then some .offsetMv
  else if ¬ 0 < c.fClk then some .fClk
  else if ¬ 1 ≤ c.pulseTicks then some .pulseTicks
  else if ¬ Config.tPulseMinUs * c.fClk ≤ c.pulseTicks * 1000000 then some .pulseTooShort
  else if ¬ 1 ≤ c.settleTicks then some .settleTicks
  else if ¬ c.segRom.map Prod.fst = romAddrs then some .romShape
  else if Memory.zeroDigitDark c.segRom = true then some .romZeroDigit
  else none

/-- A configuration is legal when nothing makes it illegal (00_scope.md R5). -/
def Config.legal (c : Config) : Bool := c.error?.isNone

/-- A configuration is legal exactly when it passes each check. -/
theorem Config.legal_iff (c : Config) :
    c.legal = true ↔
      (1 ≤ c.nSamples ∧ c.nSamples ≤ 65535) ∧ (1 ≤ c.scale ∧ c.scale ≤ 4) ∧ c.offsetMv ≤ 4095 ∧
      0 < c.fClk ∧ 1 ≤ c.pulseTicks ∧ Config.tPulseMinUs * c.fClk ≤ c.pulseTicks * 1000000 ∧
      1 ≤ c.settleTicks ∧ c.segRom.map Prod.fst = romAddrs ∧
      ¬ Memory.zeroDigitDark c.segRom = true := by
  unfold Config.legal Config.error?
  split_ifs <;>
    simp only [Option.isNone_some, Option.isNone_none, Bool.false_eq_true, false_iff, true_iff] <;> tauto

/-- A configuration with the proof that it is legal. The model refuses an illegal configuration
(00_scope.md R5) by giving no machine for it: a state carries one of these (log 2). -/
structure LegalConfig where
  /-- The parameters. -/
  val : Config
  /-- They are legal. -/
  ok : val.legal = true
  deriving DecidableEq, Repr

/-- Is a position and digit value inside the table (41_segment_encoder.md R60)? -/
def segInRange (p : Position) (v : Digit) : Bool := p.toNat ≤ 2 && v.toNat ≤ 9

/-- The operands the host owes for one command (70_reset_and_hazards.md R123, R124). CORE runs the
others too; what they leave is partly unspecified. -/
def Instr.callerOk (c : Config) : Instr → Bool
  | .encode p dp val => segInRange p val && (!dp || p == Config.dpPos)
  | .showDigits t o h => t.toNat ≤ 9 && o.toNat ≤ 9 && h.toNat ≤ 9
  | .convert mv => c.offsetMv ≤ mv.toNat && mv.toNat ≤ c.offsetMv + 999
  | .nop | .sample | .pushbit _ | .pushbyte _ | .latch | .cycle => true

end Sys2Proof
end

