-- ==== Sys2Proof/Decode.lean ====
section
/-! DEFINITION. Decoding and encoding of the 16-bit command word (30_encoding.md R48 to R52). -/

namespace Sys2Proof

/-- Why a word is no command (30_encoding.md R52). -/
inductive Illegal where
  /-- An opcode of 0x9 to 0xF. -/
  | unusedOpcode (op : Digit)
  /-- A 1 in a must-be-zero bit of the format of this command. -/
  | mustBeZero (mnemonic : String)
  deriving DecidableEq, Repr

/-- `cmd[15:12]` (30_encoding.md R48). -/
def opcodeOf (w : CmdWord) : Digit := w.extractLsb' 12 4

/-! ### Operand assembly (30_encoding.md R49): every field is used as it stands -/

/-- `v = cmd[11:0]` of format V. -/
def opMv (w : CmdWord) : Millivolts := w.extractLsb' 0 12

/-- `p = cmd[6:5]` of format E. -/
def opP (w : CmdWord) : Position := w.extractLsb' 5 2

/-- `dp = cmd[4]` of format E. -/
def opDp (w : CmdWord) : Bool := w.getLsbD 4

/-- `val = cmd[3:0]` of format E. -/
def opVal (w : CmdWord) : Digit := w.extractLsb' 0 4

/-- `b = cmd[0]` of format B. -/
def opB (w : CmdWord) : Bool := w.getLsbD 0

/-- `x = cmd[7:0]` of format Y. -/
def opX (w : CmdWord) : Byte := w.extractLsb' 0 8

/-- `t = cmd[11:8]` of format D. -/
def opT (w : CmdWord) : Digit := w.extractLsb' 8 4

/-- `o = cmd[7:4]` of format D. -/
def opO (w : CmdWord) : Digit := w.extractLsb' 4 4

/-- `h = cmd[3:0]` of format D. -/
def opH (w : CmdWord) : Digit := w.extractLsb' 0 4

/-- Accepts the command if its must-be-zero field holds zeros (30_encoding.md R48). -/
def checkZero {n : Nat} (mnemonic : String) (field : BitVec n) (i : Instr) : Except Illegal Instr :=
  if field = 0 then .ok i else .error (.mustBeZero mnemonic)

/-- The decoder: total on the 65536 words (30_encoding.md R49, R50, R52). -/
def decode (w : CmdWord) : Except Illegal Instr :=
  match (opcodeOf w).toNat with
  | 0 => checkZero "NOP" (w.extractLsb' 0 12) .nop
  | 1 => checkZero "SAMPLE" (w.extractLsb' 0 12) .sample
  | 2 => .ok (.convert (opMv w))
  | 3 => checkZero "ENCODE" (w.extractLsb' 7 5) (.encode (opP w) (opDp w) (opVal w))
  | 4 => checkZero "PUSHBIT" (w.extractLsb' 1 11) (.pushbit (opB w))
  | 5 => checkZero "PUSHBYTE" (w.extractLsb' 8 4) (.pushbyte (opX w))
  | 6 => checkZero "LATCH" (w.extractLsb' 0 12) .latch
  | 7 => .ok (.showDigits (opT w) (opO w) (opH w))
  | 8 => checkZero "CYCLE" (w.extractLsb' 0 12) .cycle
  | _ => .error (.unusedOpcode (opcodeOf w))

/-- The word of a command: its opcode and its fields, from the high bits down (30_encoding.md R48, R50). -/
def encodeInstr : Instr → CmdWord
  | .nop => 0x0000
  | .sample => 0x1000
  | .convert mv => 0x2#4 ++ mv
  | .encode p dp val => 0x3#4 ++ 0#5 ++ p ++ BitVec.ofBool dp ++ val
  | .pushbit b => 0x4#4 ++ 0#11 ++ BitVec.ofBool b
  | .pushbyte x => 0x5#4 ++ 0#4 ++ x
  | .latch => 0x6000
  | .showDigits t o h => 0x7#4 ++ t ++ o ++ h
  | .cycle => 0x8000

/-- The command the decoder reads from the low `nbits` bits of `w`, numbered as
spec/opcode_table.json numbers them; bits above `nbits` are 0. -/
def decodeTableWord (nbits w : Nat) : Option Instr :=
  match decode (BitVec.ofNat 16 (w % 2 ^ nbits)) with
  | .ok i => some i
  | .error _ => none

end Sys2Proof
end

