-- ==== Sys2Proof/Machine/State.lean ====
section
/-! DEFINITION. The state of CORE and of the agents at its pins, as plain data (10_state.md R9), the
reasons a run can stop, and the machine right after reset (10_state.md R31). -/

namespace Sys2Proof.Machine

/-- The sequencer state `ST` (10_state.md R20). -/
inductive SeqState where
  /-- `IDLE`: no operation in progress. -/
  | idle
  /-- `N_EXEC`: the body tick of NOP or of an illegal command. -/
  | nExec
  /-- `E_CALC`: the body tick of ENCODE. -/
  | eCalc
  /-- `C_CALC`: the body tick of CONVERT, or the convert phase of CYCLE. -/
  | cCalc
  /-- `S_TRIG`: a conversion is triggered. -/
  | sTrig
  /-- `S_WAIT`: waiting for `adc_done`. -/
  | sWait
  /-- `S_SETTLE`: the settle wait. -/
  | sSettle
  /-- `S_CALC`: average and scaling. -/
  | sCalc
  /-- `D_ENC`: the three patterns of a frame are computed. -/
  | dEnc
  /-- `B_LOW`: low phase of a bit cell. -/
  | bLow
  /-- `B_HIGH`: high phase of a bit cell. -/
  | bHigh
  /-- `L_LOW`: low phase before the latch pulse. -/
  | lLow
  /-- `L_HIGH`: the latch pulse. -/
  | lHigh
  deriving DecidableEq, Repr

/-- The thirteen data registers (10_state.md R141). -/
structure DataRegs where
  /-- `ACC` (R10). -/
  acc : BitVec 32
  /-- `CNT` (R11). -/
  cnt : BitVec 16
  /-- `AVG` (R12). -/
  avg : BitVec 10
  /-- `VOLT` (R13). -/
  volt : Millivolts
  /-- `TEMP`, two's complement (R14). -/
  temp : BitVec 16
  /-- `TENS` (R15). -/
  tens : Digit
  /-- `ONES` (R15). -/
  ones : Digit
  /-- `TENTHS` (R15). -/
  tenths : Digit
  /-- `PAT` (R16). -/
  pat : Byte
  /-- `P0` (R17). -/
  p0 : Byte
  /-- `P1` (R17). -/
  p1 : Byte
  /-- `P2` (R17). -/
  p2 : Byte
  /-- `FRCNT` (R18). -/
  frcnt : BitVec 5
  deriving DecidableEq, Repr

/-- The seven sequencer registers (10_state.md R142). -/
structure SeqRegs where
  /-- `ST` (R20). -/
  st : SeqState
  /-- `CMDR` (R19). -/
  cmdr : CmdWord
  /-- `SHR` (R22). -/
  shr : Byte
  /-- `BITIX` (R22). -/
  bitix : BitVec 4
  /-- `BYTEIX` (R22). -/
  byteix : BitVec 2
  /-- `TMR` (R22); its width `TMR_BITS` depends on the parameters, so it is a number whose bound is an
  invariant (log 12). -/
  tmr : Nat
  /-- `DONEF`, the level of `done` (R29). -/
  donef : Bool
  deriving DecidableEq, Repr

/-- The registered output pins (10_state.md R27, R30); `true` is level 1. -/
structure Pins where
  /-- `adc_start`. -/
  adcStart : Bool
  /-- `sr_data`. -/
  srData : Bool
  /-- `sr_clk`. -/
  srClk : Bool
  /-- `sr_latch`. -/
  srLatch : Bool
  /-- `sr_clr_n` (44_shift_register_bus.md R85). -/
  srClrN : Bool
  deriving DecidableEq, Repr

/-- The external shift-register chain (20_memory.md R37). -/
structure Chain where
  /-- `SH`, the shift stage. -/
  sh : Stage
  /-- `DISP`, the output stage. -/
  disp : Stage
  deriving DecidableEq, Repr

/-- One answer of the ADC that completes: how many ticks `adc_done` stays low after the trigger tick,
and the result (60_exceptions.md R107 items 2, 3). -/
structure Conversion where
  /-- Ticks with `adc_done` low still to come. -/
  delay : Nat
  /-- The RawSample. -/
  result : RawSample
  deriving DecidableEq, Repr

/-- The ADC's side of its port (60_exceptions.md R107). -/
structure Adc where
  /-- The level of `adc_done`. -/
  done : Bool
  /-- The value on `adc_data`. -/
  data : RawSample
  /-- The conversion in progress. -/
  conv : Option Conversion
  /-- The answers to the coming triggers, in order; `none` is a conversion that never completes (the
  stall, R103). -/
  script : List (Option Conversion)
  /-- How many answers beyond the script were drawn from `Config.adcAnswer`. -/
  drawn : Nat
  deriving DecidableEq, Repr

/-- What the host does next (60_exceptions.md R109). -/
inductive HostAction where
  /-- Presents this word until it is accepted (10_state.md R28). -/
  | issue (w : CmdWord)
  /-- Presents nothing for one step. -/
  | pause
  /-- Asserts `rst` for one clock edge (70_reset_and_hazards.md R114). -/
  | reset
  /-- Presents this word until it is accepted and asserts `rst` at one clock edge after `k` more edges
  (70_reset_and_hazards.md R115, R116). -/
  | issueThenReset (w : CmdWord) (k : Nat)
  deriving DecidableEq, Repr

/-- The pin events of 00_scope.md R2. -/
inductive Event where
  /-- `ADC_START`. -/
  | adcStart
  /-- `ADC_DONE(r)`. -/
  | adcDone (r : RawSample)
  /-- `SETTLE`. -/
  | settle
  /-- `DATA(b)`. -/
  | data (b : Bool)
  /-- `CLK_RISE`. -/
  | clkRise
  /-- `CLK_FALL`. -/
  | clkFall
  /-- `LATCH_RISE`. -/
  | latchRise
  /-- `LATCH_FALL`. -/
  | latchFall
  deriving DecidableEq, Repr

/-- One entry of the log: an event, or a `hold(n)`, at least `n` ticks in which no output pin changes
(00_scope.md R7). -/
inductive LogEntry where
  /-- A pin event. -/
  | ev (e : Event)
  /-- At least `n` ticks pass. -/
  | hold (n : Nat)
  deriving DecidableEq, Repr

/-- CORE, the chain, the ADC's port and the host's plans; `draws` and `log` are the model's own. -/
structure State where
  /-- The parameters of this unit (00_scope.md R4): no step writes them. -/
  cfg : LegalConfig
  /-- The data registers. -/
  data : DataRegs
  /-- The sequencer registers. -/
  seq : SeqRegs
  /-- `STATUS` (10_state.md R23). -/
  status : BitVec 8
  /-- The output pins. -/
  pins : Pins
  /-- The chain. -/
  chain : Chain
  /-- The ADC. -/
  adc : Adc
  /-- What the host does next, first action first; empty: it presents nothing. -/
  host : List HostAction
  /-- How many free values were drawn (log 4). -/
  draws : Nat
  /-- The pin events so far, oldest first, with the holds between them (log 10). -/
  log : List LogEntry
  deriving DecidableEq, Repr

/-- CORE has no fault: nothing of it stops a run (60_exceptions.md R97: an error sets a flag and the
operation goes on; R103: the stall is an endless wait). So there is no constructor, and no step can
answer a fault. -/
inductive Fault where
  deriving DecidableEq, Repr

/-- Reasons for giving something no meaning. -/
inductive Refusal where
  /-- An instruction that has no meaning yet: raised by `exec`'s arms only. Safe: a run ends where the
  hardware goes on. No arm raises it. -/
  | notModelled (mnemonic : String)
  /-- The configuration is illegal (00_scope.md R5): raised by `State.boot`, before there is a machine.
  Safe: the spec says that a model refuses it. -/
  | illegalConfiguration (e : ConfigError)
  deriving DecidableEq, Repr

/-- The cells of the open segment table: the 30 addresses, with bytes nothing is known of but that the
digit 0 is not 0x00 (20_memory.md R34, log 3). -/
def openSegRom : List Host.Cell :=
  romAddrs.map fun a =>
    (a, if a % 16 = 0 then BitVec.ofNat 8 ((Config.openZeroDigit (a / 16)).val + 1) else Config.openSegByte a)

/-- A positive clock at which `p + 1` ticks last 40 microseconds or longer; every such rational clock is
one of these, for its numerator and its denominator less 1 (log 3). -/
def openFrequency (c : Nat × Nat) (p : Nat) : Rat :=
  (c.1 % (25000 * ((p + 1) * (c.2 + 1))) + 1 : Nat) / (c.2 + 1 : Nat)

/-- The configuration of this hardware (00_scope.md R4): the values the spec gives, and the open ones
(log 3). Every legal pair of a clock and a pulse length is one of these: 40 microseconds are at most
`PULSE_TICKS` ticks exactly when `F_CLK <= 25000 * PULSE_TICKS`. -/
def openConfig : Config where
  nSamples := 10
  scale := 2
  offsetMv := 500
  fClk := openFrequency Config.openClock Config.openPulse
  pulseTicks := Config.openPulse + 1
  settleTicks := Config.openSettle + 1
  segRom := openSegRom

/-- The digit 0 of the open table is not 0x00, whatever the open values are. -/
theorem openSegRom_zeroDigits :
    ¬ Memory.zeroDigitDark openSegRom = true := by
  have hz : ∀ p, ¬ BitVec.ofNat 8 ((Config.openZeroDigit p).val + 1) = 0#8 := by
    intro p h
    have h' := congrArg BitVec.toNat h
    have := (Config.openZeroDigit p).isLt
    simp only [BitVec.toNat_ofNat] at h'
    omega
  simp [Memory.zeroDigitDark, openSegRom, romAddrs, hz]

/-- An open clock is positive. -/
theorem openFrequency_pos (c : Nat × Nat) (p : Nat) : 0 < openFrequency c p :=
  div_pos (Nat.cast_pos.mpr (Nat.succ_pos _)) (Nat.cast_pos.mpr (Nat.succ_pos _))

/-- An open clock keeps the pulse long enough (44_shift_register_bus.md R84). -/
theorem pulse_long_enough (c : Nat × Nat) (p : Nat) :
    Config.tPulseMinUs * openFrequency c p ≤ ((p + 1 : Nat) : Rat) * 1000000 := by
  have h := Nat.mod_lt c.1 (show 25000 * ((p + 1) * (c.2 + 1)) > 0 by positivity)
  have h' : (40 * (c.1 % (25000 * ((p + 1) * (c.2 + 1))) + 1) : Nat) ≤ (p + 1) * 1000000 * (c.2 + 1) := by
    rw [show (p + 1) * 1000000 * (c.2 + 1) = 40 * (25000 * ((p + 1) * (c.2 + 1))) by ring]
    omega
  have hd : (0 : Rat) < ((c.2 + 1 : Nat) : Rat) := Nat.cast_pos.mpr (Nat.succ_pos _)
  rw [openFrequency, Config.tPulseMinUs, ← mul_div_assoc, div_le_iff₀ hd]
  exact_mod_cast h'

/-- The open configuration is legal, whatever the open values are. -/
theorem openConfig_legal : openConfig.legal = true := by
  refine openConfig.legal_iff.mpr
    ⟨⟨?_, ?_⟩, ⟨?_, ?_⟩, ?_, openFrequency_pos _ _, Nat.succ_pos _, pulse_long_enough _ _, Nat.succ_pos _, ?_, openSegRom_zeroDigits⟩
  · exact Nat.le_of_ble_eq_true rfl
  · exact Nat.le_of_ble_eq_true rfl
  · exact Nat.le_of_ble_eq_true rfl
  · exact Nat.le_of_ble_eq_true rfl
  · exact Nat.le_of_ble_eq_true rfl
  · simp [openConfig, openSegRom, Function.comp_def]

/-- This hardware's configuration with its proof. -/
def openLegal : LegalConfig := ⟨openConfig, openConfig_legal⟩

/-- The machine right after the first reset of a unit with this configuration: every register as
10_state.md R31 says, the chain as it powered up (70_reset_and_hazards.md R117), the ADC idle, the host
presenting nothing. -/
def State.resetWith (c : LegalConfig) : State where
  cfg := c
  data :=
    { acc := 0, cnt := 0, avg := 0, volt := 0, temp := 0, tens := 0, ones := 0, tenths := 0
      pat := 0x00, p0 := 0x00, p1 := 0x00, p2 := 0x00, frcnt := 0 }
  seq :=
    { st := .idle, cmdr := 0x0000, shr := 0, bitix := 0, byteix := 0, tmr := 0, donef := false }
  status := 0x00
  pins := { adcStart := false, srData := false, srClk := false, srLatch := false, srClrN := true }
  chain := { sh := Config.freeStage 0, disp := Config.freeStage 1 }
  adc :=
    { done := Config.adcIdlePins.1, data := Config.adcIdlePins.2, conv := none, script := [], drawn := 0 }
  host := []
  draws := 2
  log := []

/-- The machine right after reset (10_state.md R31). -/
def State.reset : State := State.resetWith openLegal

/-- Building a machine: an illegal configuration is refused (00_scope.md R5). -/
def State.boot (c : Config) : Host.Outcome State Fault Refusal :=
  match h : c.error? with
  | none => .next (State.resetWith ⟨c, by simp [Config.legal, h]⟩)
  | some e => .refused (.illegalConfiguration e)

/-! ### The ports that are computed and not stored -/

/-- `BUSY`, bit 0 of `STATUS` (10_state.md R23). -/
def State.busy (s : State) : Bool := s.status.getLsbD 0

/-- `SKIP`, bit 1 of `STATUS` (10_state.md R25). -/
def State.skip (s : State) : Bool := s.status.getLsbD 1

/-- `cmd_ready` for a level of `rst` (10_state.md R24). -/
def State.cmdReady (rst : Bool) (s : State) : Bool := s.seq.st == .idle && !rst

/-- The port `done` (10_state.md R27, R29). -/
def State.done (s : State) : Bool := s.seq.donef

/-- `cmd_valid` and `cmd` as the host drives them now: the word it presents, if any (10_state.md R27). -/
def State.presented (s : State) : Option CmdWord :=
  match s.host with
  | .issue w :: _ => some w
  | .issueThenReset w _ :: _ => some w
  | _ => none

/-- The event of a log entry, if it is one. -/
def LogEntry.event? : LogEntry → Option Event
  | .ev e => some e
  | .hold _ => none

/-- The trace (00_scope.md R2): the pin events in order, without the holds. -/
def State.trace (s : State) : List Event := s.log.filterMap LogEntry.event?

end Sys2Proof.Machine
end

