-- ==== Sys2Proof/Machine/Flags.lean ====
section
/-! DEFINITION. The bits of `STATUS` (10_state.md R23 to R26). There are no condition codes: these five
bits are every flag CORE has. -/

namespace Sys2Proof.Machine

/-- The four errors, each with a sticky flag (60_exceptions.md R98 to R101). -/
inductive ErrorFlag where
  /-- `CmdError`, `ERR_CMD` (R98). -/
  | cmd
  /-- `ArgError`, `ERR_ARG` (R99). -/
  | arg
  /-- `RangeError`, `ERR_RANGE` (R100). -/
  | range
  /-- `FrameError`, `ERR_FRAME` (R101). -/
  | frame
  deriving DecidableEq, Repr

/-- The bit of `STATUS` an error sets, which is also its code (60_exceptions.md R104). -/
def ErrorFlag.bit : ErrorFlag → Nat
  | .cmd => 2
  | .arg => 3
  | .range => 4
  | .frame => 5

/-- A status word with bit `i` set. -/
def setBit (i : Nat) (st : BitVec 8) : BitVec 8 := st ||| BitVec.twoPow 8 i

/-- A status word with bit `i` clear. -/
def clearBit (i : Nat) (st : BitVec 8) : BitVec 8 := st &&& ~~~(BitVec.twoPow 8 i)

/-- Is the flag of this error set? -/
def State.err (e : ErrorFlag) (s : State) : Bool := s.status.getLsbD e.bit

end Sys2Proof.Machine
end

