-- ==== Sys2Proof/Machine/Operands.lean ====
section
/-! DEFINITION. How operands and register values become the numbers the rules compute with
(30_encoding.md R49, 47_common_laws.md R134, R136). -/

namespace Sys2Proof.Machine

/-- `16 * p + v`, the 6-bit ROM address `{p[1:0], v[3:0]}` (20_memory.md R33, 47_common_laws.md R136). -/
def romAddr (p : Position) (v : Digit) : Nat := (p ++ v).toNat

/-- The byte listed at an address, if the address is not a hole (20_memory.md R33, R35). -/
def Memory.read (m : List Host.Cell) (a : Nat) : Option Byte :=
  match m with
  | [] => none
  | c :: rest => if c.1 = a then some c.2 else Memory.read rest a

/-- `RomRead(p, v)` (20_memory.md R33): the byte, or nothing at a hole (R35). -/
def romRead (c : LegalConfig) (p : Position) (v : Digit) : Option Byte :=
  Memory.read c.val.segRom (romAddr p v)

/-- Is a digit field above 9 (45_display_controller.md R91)? -/
def digitTooBig (d : Digit) : Bool := 10 ≤ d.toNat

/-- `zext_32(r)` (42_analog_sampler.md R67). -/
def zext32 (r : RawSample) : BitVec 32 := r.setWidth 32

/-- `trunc_10(ACC div N_SAMPLES)` (42_analog_sampler.md R68). -/
def averageOf (acc : BitVec 32) (n : Nat) : BitVec 10 := BitVec.ofNat 10 (acc.toNat / n)

/-- `trunc_12(AVG * SCALE)` (42_analog_sampler.md R69). -/
def voltageOf (avg : BitVec 10) (scale : Nat) : Millivolts := BitVec.ofNat 12 (avg.toNat * scale)

/-- `v - OFFSET_MV`, exact (43_temperature_converter.md R73). -/
def temperatureOf (v : Millivolts) (offsetMv : Nat) : Int := (v.toNat : Int) - (offsetMv : Int)

/-- `min(FRCNT + 1, 31)` (44_shift_register_bus.md R78). -/
def frcntSucc (f : BitVec 5) : BitVec 5 := BitVec.ofNat 5 (min (f.toNat + 1) 31)

end Sys2Proof.Machine
end

