-- ==== Sys2Proof/Machine/Ops.lean ====
section
/-! DEFINITION. The named operations that the commands are made of: the pins and the log, the free
values, the errors, the start and the end of an operation, reset. -/

namespace Sys2Proof.Machine

/-! ### The log and the pins (00_scope.md R2, R7) -/

/-- Appends a pin event to the trace. -/
def emit (e : Event) (s : State) : State := { s with log := s.log ++ [.ev e] }

/-- `hold(n)`: at least `n` ticks passed during which no output pin changed. The entry stands in the log
when they have passed, so that a hold that a reset cuts short is not in it (log 10). -/
def hold (n : Nat) (s : State) : State := { s with log := s.log ++ [.hold n] }

/-- `pin(sr_data) <- b`, the event `DATA(b)`. -/
def driveData (b : Bool) (s : State) : State := emit (.data b) { s with pins.srData := b }

/-- `pin(sr_clk) <- 1`, the event `CLK_RISE`: the chain does `SH <- {SH[22:0], sr_data}`
(20_memory.md R38). -/
def raiseClk (s : State) : State :=
  emit .clkRise { s with pins.srClk := true, chain.sh := s.chain.sh.shiftConcat s.pins.srData }

/-- `pin(sr_clk) <- 0`, the event `CLK_FALL`: no effect on the chain (20_memory.md R38). -/
def dropClk (s : State) : State := emit .clkFall { s with pins.srClk := false }

/-- `pin(sr_latch) <- 1`, the event `LATCH_RISE`: the chain does `DISP <- SH` (20_memory.md R39). -/
def raiseLatch (s : State) : State :=
  emit .latchRise { s with pins.srLatch := true, chain.disp := s.chain.sh }

/-- `pin(sr_latch) <- 0`, the event `LATCH_FALL`: no effect on the chain (20_memory.md R39). -/
def dropLatch (s : State) : State := emit .latchFall { s with pins.srLatch := false }

/-- `pin(adc_start) <- 1`, the event `ADC_START` (42_analog_sampler.md R66). -/
def raiseTrigger (s : State) : State := emit .adcStart { s with pins.adcStart := true }

/-- `hold(1) ; pin(adc_start) <- 0` (42_analog_sampler.md R66). -/
def dropTrigger (s : State) : State := { hold 1 s with pins.adcStart := false }

/-! ### Free values (log 4) -/

/-- The next `unspecified_8`. -/
def drawByte (s : State) : Byte × State := (Config.freeByte s.draws, { s with draws := s.draws + 1 })

/-- The next `unspecified_4`. -/
def drawDigit (s : State) : Digit × State := (Config.freeDigit s.draws, { s with draws := s.draws + 1 })

/-! ### Errors: the whole of CORE's exception mechanism (60_exceptions.md R97) -/

/-- `raise <Error>`: sets the sticky flag of the error and nothing else. There is no handler, no saved
state and no transfer of control, so there is no return from an error either (R97, R106). -/
def raiseError (e : ErrorFlag) (s : State) : State := { s with status := setBit e.bit s.status }

/-- `raise <Error>` under a condition. -/
def raiseErrorIf (c : Bool) (e : ErrorFlag) (s : State) : State := if c then raiseError e s else s

/-- `SKIP <- b` (10_state.md R25). -/
def setSkip (b : Bool) (s : State) : State :=
  { s with status := if b then setBit 1 s.status else clearBit 1 s.status }

/-! ### The start and the end of an operation -/

/-- The first state of the path of the operation a word selects (10_state.md R21). -/
def firstState (w : CmdWord) : SeqState :=
  match decode w with
  | .ok .nop => .nExec
  | .ok .sample => .sTrig
  | .ok (.convert _) => .cCalc
  | .ok (.encode _ _ _) => .eCalc
  | .ok (.pushbit _) => .bLow
  | .ok (.pushbyte _) => .bLow
  | .ok .latch => .lLow
  | .ok (.showDigits _ _ _) => .dEnc
  | .ok .cycle => .sTrig
  | .error _ => .nExec

/-- Acceptance of a word: `CMDR <- cmd`, `BUSY <- 1`, `ST` leaves `IDLE` for the first state of the
path, and `done` falls (10_state.md R19, R28, R29). -/
def accept (w : CmdWord) (s : State) : State :=
  { s with
    seq.cmdr := w
    seq.st := firstState w
    seq.donef := false
    status := setBit 0 s.status }

/-- The end of an operation: `ST` is `IDLE` again, `BUSY` is 0 and `done` is 1 (10_state.md R29). The
state after it is that of the `done` tick. -/
def finish (s : State) : State :=
  { s with seq.st := .idle, seq.donef := true, status := clearBit 0 s.status }

/-- A whole operation that always completes: acceptance, its body, the end. -/
def operation (w : CmdWord) (body : State → State) (s : State) : Host.Outcome State Fault Refusal :=
  .next (finish (body (accept w s)))

/-- A phase that can stall (60_exceptions.md R103): it completed, or it is left waiting in `S_WAIT`. -/
inductive Phase where
  /-- The phase ended. -/
  | completed (s : State)
  /-- The ADC never answered: `ST` is `S_WAIT` and stays there. -/
  | stalled (s : State)
  deriving DecidableEq, Repr

/-- What follows a phase: the rest of the operation and its end, or nothing when it stalled. -/
def Phase.conclude (rest : State → State) : Phase → State
  | .completed s => finish (rest s)
  | .stalled s => s

/-! ### Reset (70_reset_and_hazards.md R114 to R116) -/

/-- What a reset at this moment does to the chain: a clock or latch pulse that it cuts short leaves the
stage concerned unspecified, anything else leaves the chain alone (R116). -/
def chainAtReset (s : State) : Chain :=
  match s.seq.st with
  | .bHigh => { s.chain with sh := Config.freeStage s.draws }
  | .lHigh => { s.chain with disp := Config.freeStage s.draws }
  | .idle | .nExec | .eCalc | .cCalc | .sTrig | .sWait | .sSettle | .sCalc | .dEnc | .bLow | .lLow =>
    s.chain

/-- How many ticks the `hold` of a state lasts (10_state.md R20): `S_TRIG` is one tick long, and a state
that is not timed has none. -/
def holdTicks (c : LegalConfig) (st : SeqState) : Nat :=
  match st with
  | .sTrig => 1
  | .sSettle => c.val.settleTicks
  | .bLow | .bHigh | .lLow | .lHigh => c.val.pulseTicks
  | .idle | .nExec | .eCalc | .cCalc | .sWait | .sCalc | .dEnc => 0

/-- The ticks of the `hold` in progress that have passed at the edge that ends this tick: all of them
when `TMR` is at most 1, and one less for each further count of it. -/
def elapsedTicks (s : State) : Nat :=
  min (holdTicks s.cfg s.seq.st) (holdTicks s.cfg s.seq.st + 1 - s.seq.tmr)

/-- What a reset leaves of the `hold` it ends: the ticks that passed and no more
(70_reset_and_hazards.md R116). A settle wait has no `SETTLE`, which needs the whole wait. -/
def cutHold (s : State) : List LogEntry :=
  if elapsedTicks s = 0 then [] else [.hold (elapsedTicks s)]

/-- The pin events of a reset: every serial pin that was high falls (00_scope.md R2, log 11). -/
def resetEvents (p : Pins) : List LogEntry :=
  (if p.srLatch then [.ev .latchFall] else []) ++ (if p.srClk then [.ev .clkFall] else []) ++
    (if p.srData then [.ev (.data false)] else [])

/-- The reset action (R115): every register and pin of CORE takes its value of 10_state.md R31; the
agents outside CORE keep theirs, but for the stage of a pulse cut short. -/
def resetCore (s : State) : State :=
  { State.resetWith s.cfg with
    chain := chainAtReset s
    adc := s.adc
    host := s.host
    draws := s.draws + 1
    log := s.log ++ cutHold s ++ resetEvents s.pins }

end Sys2Proof.Machine
end

