-- ==== Sys2Proof/Machine/AnalogSampler.lean ====
section
/-! DEFINITION. AnalogSampler: SAMPLE (42_analog_sampler.md), and the ADC behind its port
(60_exceptions.md R107). -/

namespace Sys2Proof.Machine

/-- The ADC's answer to its next trigger: the next of the script, then the environment's own (R107
item 3, R103; log 6). -/
def nextAnswer (a : Adc) : Option Conversion × Adc :=
  match a.script with
  | x :: rest => (x, { a with script := rest })
  | [] =>
    ((Config.adcAnswer a.drawn).map fun x => { delay := x.1, result := x.2 }, { a with drawn := a.drawn + 1 })

/-- `ACC <- 0 ; CNT <- 0` (42_analog_sampler.md R65). -/
def clearSum (s : State) : State := { s with data.acc := 0, data.cnt := 0 }

/-- `ACC <- ACC + zext_32(r) ; CNT <- CNT + 1` at the event `ADC_DONE(r)` (42_analog_sampler.md R66, R67). -/
def accumulate (r : RawSample) (s : State) : State :=
  emit (.adcDone r) { s with data.acc := s.data.acc + zext32 r, data.cnt := s.data.cnt + 1 }

/-- `hold(SETTLE_TICKS)`, and then the event `SETTLE`, a wait that has passed (42_analog_sampler.md R70,
00_scope.md R2). -/
def settle (s : State) : State := emit .settle (hold s.cfg.val.settleTicks s)

/-- `AVG <- trunc_10(ACC div N_SAMPLES) ; VOLT <- trunc_12(AVG * SCALE)` (42_analog_sampler.md R68, R69):
divide first, then multiply. -/
def average (s : State) : State :=
  let avg := averageOf s.data.acc s.cfg.val.nSamples
  { s with data.avg := avg, data.volt := voltageOf avg s.cfg.val.scale }

/-- The ADC after it answered a trigger (60_exceptions.md R107): the result stands on its port, or
`adc_done` stays low. DESIGN CHOICE (log 21): with `adc_done` low `adc_data` shows the last result. -/
def adcAnswered (c : Option Conversion) (a : Adc) : Adc :=
  match c with
  | some c => { a with done := true, data := c.result, conv := none }
  | none => { a with done := false, conv := none }

/-- `adc_convert()` (42_analog_sampler.md R66), up to the answer: the RawSample, or nothing when the ADC
never completes. -/
def adcConvert (s : State) : Option RawSample × State :=
  let s := dropTrigger (raiseTrigger s)
  let r := nextAnswer s.adc
  (r.1.map Conversion.result, { s with adc := adcAnswered r.1 r.2 })

/-- `n` conversions: each is triggered, waited for, accumulated and followed by the settle wait
(42_analog_sampler.md R64). A conversion that never completes leaves the sequencer in `S_WAIT` with
the sum so far (R71). -/
def sampleLoop : Nat → State → Phase
  | 0, s => .completed s
  | n + 1, s =>
    match adcConvert s with
    | (some r, s) => sampleLoop n (settle (accumulate r s))
    | (none, s) => .stalled { s with seq.st := .sWait }

/-- `sample_voltage()` (42_analog_sampler.md R64). -/
def sampleVoltage (s : State) : Phase :=
  match sampleLoop s.cfg.val.nSamples (clearSum s) with
  | .completed s => .completed (average s)
  | .stalled s => .stalled s

/-- SAMPLE (42_analog_sampler.md R64). -/
def execSample (s : State) : Host.Outcome State Fault Refusal :=
  .next ((sampleVoltage (accept (encodeInstr .sample) s)).conclude id)

end Sys2Proof.Machine
end

