-- ==== Sys2Proof/Machine/SegmentEncoder.lean ====
section
/-! DEFINITION. SegmentEncoder: ENCODE (41_segment_encoder.md). -/

namespace Sys2Proof.Machine

/-- A pattern with the decimal point of bit 6 set when `dp` is (41_segment_encoder.md R60). -/
def withPoint (dp : Bool) (t : Byte) : Byte := if dp then t ||| BitVec.twoPow 8 Config.dpBit else t

/-- `enc(p, v, dp)` (41_segment_encoder.md R60): the table byte with the decimal point, or the next
`unspecified_8` at a hole (20_memory.md R35). It writes no register; the state it answers with differs
in the count of free values only. -/
def enc (p : Position) (v : Digit) (dp : Bool) (s : State) : Byte × State :=
  match romRead s.cfg p v with
  | some t => (withPoint dp t, s)
  | none => drawByte s

/-- The body of ENCODE (41_segment_encoder.md R62, R63). -/
def encodeBody (p : Position) (dp : Bool) (val : Digit) (s : State) : State :=
  let r := enc p val dp s
  raiseErrorIf (!segInRange p val) .arg { r.2 with data.pat := r.1 }

/-- ENCODE `p, val, dp` (41_segment_encoder.md R62). -/
def execEncode (p : Position) (dp : Bool) (val : Digit) (s : State) : Host.Outcome State Fault Refusal :=
  operation (encodeInstr (.encode p dp val)) (encodeBody p dp val) s

end Sys2Proof.Machine
end

