-- ==== Sys2Proof/Machine/ShiftRegisterBus.lean ====
section
/-! DEFINITION. ShiftRegisterBus: PUSHBIT, PUSHBYTE, LATCH (44_shift_register_bus.md). -/

namespace Sys2Proof.Machine

/-- `hold(PULSE_TICKS)`. -/
def holdPulse (s : State) : State := hold s.cfg.val.pulseTicks s

/-- `FRCNT <- min(FRCNT + 1, 31)` (44_shift_register_bus.md R78). -/
def countBit (s : State) : State := { s with data.frcnt := frcntSucc s.data.frcnt }

/-- `push_bit(b)` (44_shift_register_bus.md R78). -/
def pushBit (b : Bool) (s : State) : State :=
  countBit (dropClk (holdPulse (raiseClk (holdPulse (driveData b s)))))

/-- One turn of the loop of `push_byte` (44_shift_register_bus.md R80): the top bit of `SHR` goes out,
`SHR <- {SHR[6:0], 0}`, `BITIX <- BITIX - 1`. -/
def pushTop (s : State) : State :=
  let s := pushBit s.seq.shr.msb s
  { s with seq.shr := s.seq.shr.shiftConcat false, seq.bitix := s.seq.bitix - 1 }

/-- The loop of `push_byte`, `n` turns. -/
def pushLoop : Nat → State → State
  | 0, s => s
  | n + 1, s => pushLoop n (pushTop s)

/-- `push_byte(x)` (44_shift_register_bus.md R80): `BITIX` counts 8 turns down to 0. -/
def pushByte (x : Byte) (s : State) : State :=
  pushLoop 8 { s with seq.shr := x, seq.bitix := 8 }

/-- `FRCNT <- 0` (44_shift_register_bus.md R82, 45_display_controller.md R86). -/
def clearCount (s : State) : State := { s with data.frcnt := 0 }

/-- `latch()` (44_shift_register_bus.md R82). -/
def latchPulse (s : State) : State :=
  clearCount (dropLatch (holdPulse (raiseLatch (holdPulse s))))

/-- The frame check of LATCH: `FrameError` unless exactly 24 bits were pushed (44_shift_register_bus.md R83). -/
def frameCheck (s : State) : State := raiseErrorIf (s.data.frcnt != 24) .frame s

/-- PUSHBIT `b` (44_shift_register_bus.md R79). -/
def execPushbit (b : Bool) (s : State) : Host.Outcome State Fault Refusal :=
  operation (encodeInstr (.pushbit b)) (fun s => driveData false (pushBit b s)) s

/-- PUSHBYTE `#x` (44_shift_register_bus.md R81). -/
def execPushbyte (x : Byte) (s : State) : Host.Outcome State Fault Refusal :=
  operation (encodeInstr (.pushbyte x)) (fun s => driveData false (pushByte x s)) s

/-- LATCH (44_shift_register_bus.md R83): the pulse is issued whether or not the check failed. -/
def execLatch (s : State) : Host.Outcome State Fault Refusal :=
  operation (encodeInstr .latch) (fun s => latchPulse (frameCheck s)) s

end Sys2Proof.Machine
end

