-- ==== Sys2Proof/Machine/DisplayController.lean ====
section
/-! DEFINITION. DisplayController: SHOW (45_display_controller.md). -/

namespace Sys2Proof.Machine

/-- The encoding step (45_display_controller.md R86, R87, R91): tenths at position 0, ones at position 1
with the decimal point, tens at position 2. -/
def encodeFrame (t o h : Digit) (s : State) : State :=
  let s := raiseErrorIf (digitTooBig t || digitTooBig o || digitTooBig h) .arg s
  let r0 := enc 0 h false s
  let r1 := enc 1 o true r0.2
  let r2 := enc 2 t false r1.2
  { r2.2 with data.p0 := r0.1, data.p1 := r1.1, data.p2 := r2.1 }

/-- The sentinel: all three computed patterns are 0x00 (45_display_controller.md R88). -/
def sentinel (s : State) : Bool := s.data.p0 == 0 && s.data.p1 == 0 && s.data.p2 == 0

/-- The `i`-th byte of the frame: `P0`, `P1`, `P2` (30_encoding.md R55, 10_state.md R22). -/
def frameByte (i : BitVec 2) (s : State) : Byte :=
  if i = 0 then s.data.p0 else if i = 1 then s.data.p1 else s.data.p2

/-- `BYTEIX <- i` (10_state.md R22). -/
def selectByte (i : BitVec 2) (s : State) : State := { s with seq.byteix := i }

/-- Pushes the `i`-th byte of the frame. -/
def pushFrameByte (i : BitVec 2) (s : State) : State := pushByte (frameByte i s) (selectByte i s)

/-- The three bytes in the fixed order tenths, ones, tens, then `sr_data` low and one latch pulse
(45_display_controller.md R89, R90). -/
def sendFrame (s : State) : State :=
  latchPulse (driveData false (selectByte 0 (pushFrameByte 2 (pushFrameByte 1 (pushFrameByte 0 s)))))

/-- `show(t, o, h)` (45_display_controller.md R86, R88). -/
def showBody (t o h : Digit) (s : State) : State :=
  let s := encodeFrame t o h s
  if sentinel s then setSkip true s else sendFrame (clearCount (setSkip false s))

/-- SHOW `t, o, h` (45_display_controller.md R86): the digits are the operands, not the digit registers. -/
def execShow (t o h : Digit) (s : State) : Host.Outcome State Fault Refusal :=
  operation (encodeInstr (.showDigits t o h)) (showBody t o h) s

end Sys2Proof.Machine
end

