-- ==== Sys2Proof/Machine/TemperatureConverter.lean ====
section
/-! DEFINITION. TemperatureConverter: CONVERT (43_temperature_converter.md). -/

namespace Sys2Proof.Machine

/-- The three digits of a temperature inside the domain (43_temperature_converter.md R73). -/
def writeDigits (t : Nat) (s : State) : State :=
  { s with
    data.tens := BitVec.ofNat 4 (t / 100)
    data.ones := BitVec.ofNat 4 (t % 100 / 10)
    data.tenths := BitVec.ofNat 4 (t % 100 % 10) }

/-- The three digits outside the domain: an `unspecified_4` each, drawn in the order tens, ones, tenths
(43_temperature_converter.md R76). -/
def drawDigits (s : State) : State :=
  let d1 := drawDigit s
  let d2 := drawDigit d1.2
  let d3 := drawDigit d2.2
  { d3.2 with data.tens := d1.1, data.ones := d2.1, data.tenths := d3.1 }

/-- `to_digits(v)` (43_temperature_converter.md R73, R76). -/
def toDigits (v : Millivolts) (s : State) : State :=
  let t := temperatureOf v s.cfg.val.offsetMv
  let s := { s with data.temp := BitVec.ofInt 16 t }
  if 0 ≤ t ∧ t ≤ 999 then writeDigits t.toNat s else drawDigits (raiseError .range s)

/-- CONVERT `#mv` (43_temperature_converter.md R74): the operand does not pass through `VOLT`. -/
def execConvert (mv : Millivolts) (s : State) : Host.Outcome State Fault Refusal :=
  operation (encodeInstr (.convert mv)) (toDigits mv) s

end Sys2Proof.Machine
end

