-- ==== Sys2Proof/Machine/Housekeeping.lean ====
section
/-! DEFINITION. CYCLE, NOP and the illegal command (46_cycle_and_nop.md). -/

namespace Sys2Proof.Machine

/-- The phases of CYCLE after the sample phase: convert `VOLT`, show the three digits
(46_cycle_and_nop.md R93). A temperature outside the domain does not stop it (R94). -/
def convertAndShow (s : State) : State :=
  let s := toDigits s.data.volt s
  showBody s.data.tens s.data.ones s.data.tenths s

/-- CYCLE (46_cycle_and_nop.md R93, R94). -/
def execCycle (s : State) : Host.Outcome State Fault Refusal :=
  .next ((sampleVoltage (accept (encodeInstr .cycle) s)).conclude convertAndShow)

/-- NOP (46_cycle_and_nop.md R95). -/
def execNop (s : State) : Host.Outcome State Fault Refusal := operation (encodeInstr .nop) id s

/-- The illegal command (46_cycle_and_nop.md R96): `raise CmdError` and nothing else. -/
def execIllegal (w : CmdWord) (s : State) : Host.Outcome State Fault Refusal :=
  operation w (raiseError .cmd) s

end Sys2Proof.Machine
end

