-- ==== Sys2Proof/Machine/Dispatch.lean ====
section
/-! DEFINITION. One command from its acceptance to its `done` tick: one arm per constructor. -/

namespace Sys2Proof.Machine

/-- What a command does (30_encoding.md R50). -/
def exec (i : Instr) (s : State) : Host.Outcome State Fault Refusal :=
  match i with
  | .nop => Sys2Proof.Machine.execNop s
  | .sample => Sys2Proof.Machine.execSample s
  | .convert mv => Sys2Proof.Machine.execConvert mv s
  | .encode p dp val => Sys2Proof.Machine.execEncode p dp val s
  | .pushbit b => Sys2Proof.Machine.execPushbit b s
  | .pushbyte x => Sys2Proof.Machine.execPushbyte x s
  | .latch => Sys2Proof.Machine.execLatch s
  | .showDigits t o h => Sys2Proof.Machine.execShow t o h s
  | .cycle => Sys2Proof.Machine.execCycle s

end Sys2Proof.Machine
end

