-- ==== Sys2Proof/Machine/Sequencer.lean ====
section
/-! DEFINITION. The reference sequencer, one clock edge at a time (10_state.md R19 to R22, R28, R29;
70_reset_and_hazards.md R114 to R116, R127 to R129), and the ADC at the same edge (60_exceptions.md
R107). A state is what the registers and pins hold during a tick; `tick` gives the next tick's. -/

namespace Sys2Proof.Machine

/-- What the host drives at one rising edge of `clk` (10_state.md R27): `rst`, and `cmd` when
`cmd_valid` is 1. -/
structure TickIn where
  /-- `rst`. -/
  rst : Bool
  /-- The word on `cmd` if `cmd_valid = 1`. -/
  cmd : Option CmdWord
  deriving DecidableEq, Repr

/-- Nothing presented, no reset. -/
def quiet : TickIn := { rst := false, cmd := none }

/-- A word presented, no reset. -/
def presenting (w : CmdWord) : TickIn := { rst := false, cmd := some w }

/-- `rst = 1`. -/
def resetting : TickIn := { rst := true, cmd := none }

/-! ### Entering the states of a path (10_state.md R20, R21, R22) -/

/-- Enters a state that lasts `n` ticks: `TMR` is loaded with the tick count of the `hold`, which enters
the log when the state ends. -/
def enterTimed (st : SeqState) (n : Nat) (s : State) : State := { s with seq.st := st, seq.tmr := n }

/-- Enters `B_LOW` with a bit on `sr_data`. -/
def enterLow (b : Bool) (s : State) : State :=
  enterTimed .bLow s.cfg.val.pulseTicks (driveData b s)

/-- Loads `SHR` and `BITIX` and enters the first bit cell of a byte (44_shift_register_bus.md R80). -/
def startByte (x : Byte) (s : State) : State :=
  enterLow x.msb { s with seq.shr := x, seq.bitix := 8 }

/-- Enters `L_LOW`. -/
def enterLatch (s : State) : State := enterTimed .lLow s.cfg.val.pulseTicks s

/-- Enters `S_TRIG`: `adc_start` is 1 for one tick. -/
def enterTrigger (s : State) : State := raiseTrigger { s with seq.st := .sTrig, seq.tmr := 0 }

/-- Ends an operation of the serial port; `BITIX`, `BYTEIX` and `TMR` are 0 in `IDLE` (10_state.md R142). -/
def finishTimed (s : State) : State :=
  finish { s with seq.bitix := 0, seq.byteix := 0, seq.tmr := 0 }

/-! ### The edge that ends a tick in each state -/

/-- Is the operation in progress a CYCLE? Read from `CMDR` (10_state.md R19). -/
def inCycle (s : State) : Bool := s.seq.cmdr == encodeInstr .cycle

/-- Does the operation in progress push a whole frame (SHOW or CYCLE)? -/
def inFrame (s : State) : Bool := opcodeOf s.seq.cmdr == 7 || inCycle s

/-- A timed state that is not over yet counts `TMR` down; at its last tick `next` happens. -/
def countdown (next : State → State) (s : State) : State :=
  if s.seq.tmr ≤ 1 then next s else { s with seq.tmr := s.seq.tmr - 1 }

/-- The end of the last bit cell of PUSHBIT or PUSHBYTE: `sr_data` returns to 0. -/
def endSerial (s : State) : State := finishTimed (driveData false s)

/-- The end of a byte: the next byte of the frame, the latch pulse, or the end of PUSHBYTE. -/
def endByte (s : State) : State :=
  if inFrame s then
    if s.seq.byteix.toNat < 2 then
      let s := selectByte (s.seq.byteix + 1) s
      startByte (frameByte s.seq.byteix s) s
    else enterLatch (driveData false (selectByte 0 s))
  else endSerial s

/-- The end of `B_HIGH`: the clock falls, the bit is counted, and the next bit of `SHR` follows if
there is one. PUSHBIT does not use `SHR`: its `BITIX` is 0. -/
def endCell (s : State) : State :=
  let s := countBit (dropClk (holdPulse s))
  if s.seq.bitix = 0 then endSerial s
  else
    let s := { s with seq.shr := s.seq.shr.shiftConcat false, seq.bitix := s.seq.bitix - 1 }
    if s.seq.bitix = 0 then endByte s else enterLow s.seq.shr.msb s

/-- The end of `B_LOW`: the clock rises. -/
def endLow (s : State) : State :=
  enterTimed .bHigh s.cfg.val.pulseTicks (raiseClk (holdPulse s))

/-- The end of `L_LOW`: the latch pulse begins. -/
def endLatchLow (s : State) : State :=
  enterTimed .lHigh s.cfg.val.pulseTicks (raiseLatch (holdPulse s))

/-- The end of `L_HIGH`: the latch pulse ends and with it the operation. -/
def endLatchHigh (s : State) : State := finishTimed (clearCount (dropLatch (holdPulse s)))

/-- The end of `S_WAIT`: `adc_done` is sampled (42_analog_sampler.md R66). -/
def endWait (s : State) : State :=
  if s.adc.done then enterTimed .sSettle s.cfg.val.settleTicks (accumulate s.adc.data s) else s

/-- The end of `S_SETTLE`: the wait has passed, and the next conversion follows, or the average. -/
def endSettle (s : State) : State :=
  let s := settle s
  if s.cfg.val.nSamples ≤ s.data.cnt.toNat then { s with seq.st := .sCalc, seq.tmr := 0 }
  else enterTrigger s

/-- The end of `S_CALC`. -/
def endAverage (s : State) : State :=
  let s := average s
  if inCycle s then { s with seq.st := .cCalc } else finish s

/-- The end of `C_CALC`: CONVERT takes its operand from `CMDR`, CYCLE takes `VOLT`. -/
def endConvert (s : State) : State :=
  if inCycle s then { toDigits s.data.volt s with seq.st := .dEnc }
  else finish (toDigits (opMv s.seq.cmdr) s)

/-- After the encoding step: the sentinel ends the operation, anything else starts the frame
(45_display_controller.md R88). -/
def startFrame (s : State) : State :=
  if sentinel s then finish (setSkip true s)
  else
    let s := selectByte 0 (clearCount (setSkip false s))
    startByte (frameByte 0 s) s

/-- The end of `D_ENC`: SHOW takes its digits from `CMDR`, CYCLE takes the digit registers. -/
def endEncode (s : State) : State :=
  if inCycle s then startFrame (encodeFrame s.data.tens s.data.ones s.data.tenths s)
  else startFrame (encodeFrame (opT s.seq.cmdr) (opO s.seq.cmdr) (opH s.seq.cmdr) s)

/-- The end of `N_EXEC`: any word but NOP's is illegal here (46_cycle_and_nop.md R95, R96). -/
def endExec (s : State) : State :=
  finish (raiseErrorIf (s.seq.cmdr != encodeInstr .nop) .cmd s)

/-- The edge that ends a tick with no reset, for each `ST` but `IDLE` (10_state.md R21). -/
def busyEdge (s : State) : State :=
  match s.seq.st with
  | .idle => s
  | .nExec => endExec s
  | .eCalc => finish (encodeBody (opP s.seq.cmdr) (opDp s.seq.cmdr) (opVal s.seq.cmdr) s)
  | .cCalc => endConvert s
  | .sTrig => { dropTrigger s with seq.st := .sWait }
  | .sWait => endWait s
  | .sSettle => countdown endSettle s
  | .sCalc => endAverage s
  | .dEnc => endEncode s
  | .bLow => countdown endLow s
  | .bHigh => countdown endCell s
  | .lLow => countdown endLatchLow s
  | .lHigh => countdown endLatchHigh s

/-- The edge at which a word is accepted: `CMDR` latches it, and the first state of its path begins
(10_state.md R19, R28). -/
def acceptEdge (w : CmdWord) (s : State) : State :=
  let s := accept w s
  match decode w with
  | .ok .nop => s
  | .ok .sample => enterTrigger (clearSum s)
  | .ok (.convert _) => s
  | .ok (.encode _ _ _) => s
  | .ok (.pushbit b) => enterLow b s
  | .ok (.pushbyte x) => startByte x s
  | .ok .latch => enterLatch (frameCheck s)
  | .ok (.showDigits _ _ _) => s
  | .ok .cycle => enterTrigger (clearSum s)
  | .error _ => s

/-- CORE and the chain at one edge. Reset wins (60_exceptions.md R105); a word is accepted only in
`IDLE` and ignored otherwise (10_state.md R28); `done` lasts one tick (R29). -/
def coreEdge (inp : TickIn) (s : State) : State :=
  if inp.rst then resetCore s
  else if s.seq.st = .idle then
    match inp.cmd with
    | some w => acceptEdge w s
    | none => { s with seq.donef := false }
  else busyEdge s

/-- The ADC at one edge (60_exceptions.md R107), from the level of `adc_start` in the tick that ends:
a trigger starts a conversion and takes `adc_done` low, unless the answer comes with the next tick
already; otherwise a conversion in progress goes on. DESIGN CHOICE (log 21): from a trigger to its
completion `adc_data` keeps the last result. -/
def adcEdge (start : Bool) (a : Adc) : Adc :=
  if start then
    let r := nextAnswer a
    match r.1 with
    | none => { r.2 with done := false, conv := none }
    | some { delay := 0, result := x } => { r.2 with done := true, data := x, conv := none }
    | some { delay := d + 1, result := x } => { r.2 with done := false, conv := some { delay := d, result := x } }
  else
    match a.conv with
    | none => a
    | some { delay := 0, result := x } => { a with done := true, data := x, conv := none }
    | some { delay := d + 1, result := x } => { a with conv := some { delay := d, result := x } }

/-- One rising edge of `clk`. -/
def tick (inp : TickIn) (s : State) : State :=
  { coreEdge inp s with adc := adcEdge s.pins.adcStart s.adc }

/-- `n` edges at which the host presents nothing. -/
def ticks : Nat → State → State
  | 0, s => s
  | n + 1, s => ticks n (tick quiet s)

/-- A word is accepted, and reset comes `k` edges after the accepting one (70_reset_and_hazards.md R116). -/
def cutShort (w : CmdWord) (k : Nat) (s : State) : State :=
  tick resetting (ticks k (tick (presenting w) s))

end Sys2Proof.Machine
end

