-- ==== Sys2Proof/Machine/HostPort.lean ====
section
/-! DEFINITION. The command port: what CORE does with the host's next action (10_state.md R28;
60_exceptions.md R109). There is no program counter and no fetch: the command word comes from the host
(47_common_laws.md R135). -/

namespace Sys2Proof.Machine

/-- The host's plans with the first action done. -/
def withHost (rest : List HostAction) (s : State) : State := { s with host := rest }

/-- An accepted word, to its `done` tick: the command it decodes to, or the illegal command
(30_encoding.md R52). -/
def runWord (w : CmdWord) (s : State) : Host.Outcome State Fault Refusal :=
  match decode w with
  | .ok i => exec i s
  | .error _ => execIllegal w s

/-- One action of the host, given the actions after it. In `IDLE` a presented word is accepted and its
whole operation runs. In any other state (a stall) the word waits and one clock tick passes. -/
def hostAction (a : HostAction) (rest : List HostAction) (s : State) : Host.Outcome State Fault Refusal :=
  match a with
  | .pause => .next (tick quiet (withHost rest s))
  | .reset => .next (tick resetting (withHost rest s))
  | .issue w => if s.seq.st = .idle then runWord w (withHost rest s) else .next (tick (presenting w) s)
  | .issueThenReset w k =>
    if s.seq.st = .idle then .next (cutShort w k (withHost rest s)) else .next (tick (presenting w) s)

/-- The host presents a word at its next action. -/
def presentNext (w : CmdWord) (s : State) : State := { s with host := .issue w :: s.host }

end Sys2Proof.Machine
end

