-- ==== Sys2Proof/Machine/Step.lean ====
section
/-! DEFINITION. One step: one action of the host. -/

namespace Sys2Proof.Machine

/-- One step of the machine. A command that the host presents in `IDLE` runs from its acceptance to its
`done` tick (00_scope.md R1, 30_encoding.md R56); with nothing presented one clock tick passes. -/
def step (s : State) : Host.Outcome State Fault Refusal :=
  match s.host with
  | [] => .next (tick quiet s)
  | a :: rest => hostAction a rest s

/-- The state with the instruction of the low `nbits` bits of `w` on the command port, so that the next
step of an idle machine accepts and runs it (log 8). -/
def State.withFetchWord (s : State) (nbits w : Nat) : State :=
  presentNext (BitVec.ofNat 16 (w % 2 ^ nbits)) s

end Sys2Proof.Machine
end

