-- ==== Sys2Proof/Safety.lean ====
section
/-! DEFINITION. What counts as a sound state and a safe run, in the terms the claims use. -/

namespace Sys2Proof.Machine

/-! ### Flags -/

/-- "No fault recorded": all four sticky flags are 0 (10_state.md R26). -/
def NoErrorRecorded (s : State) : Prop := ∀ e : ErrorFlag, s.err e = false

/-! ### What an operation leaves as it was -/

/-- The operation ended and pulses `done` (10_state.md R29): `ST` is `IDLE`, `BUSY` is 0, `DONEF` is 1,
and `CMDR` holds its word. -/
def Completed (w : CmdWord) (t : State) : Prop :=
  t.seq.st = .idle ∧ t.seq.donef = true ∧ t.busy = false ∧ t.seq.cmdr = w

/-- Every bit of `STATUS` but `BUSY` and the bits listed is as it was. -/
def StatusKept (bits : List Nat) (s t : State) : Prop :=
  ∀ j, j ≠ 0 → j ∉ bits → t.status.getLsbD j = s.status.getLsbD j

/-- The configuration, every byte of the ROM and the host's plans are as they were. -/
def UnitKept (s t : State) : Prop :=
  t.cfg = s.cfg ∧ t.host = s.host ∧
    ∀ a, Memory.read t.cfg.val.segRom a = Memory.read s.cfg.val.segRom a

/-- No pin moved: the pins, the chain and the log are as they were. -/
def PinsKept (s t : State) : Prop := t.pins = s.pins ∧ t.chain = s.chain ∧ t.log = s.log

/-- The working registers of the serializer and of `hold` are as they were. -/
def WorkKept (s t : State) : Prop :=
  t.seq.shr = s.seq.shr ∧ t.seq.bitix = s.seq.bitix ∧ t.seq.byteix = s.seq.byteix ∧ t.seq.tmr = s.seq.tmr

/-- A program (30_encoding.md R56): commands run in order, each after the `done` of the one before. It has
no result when one of them stalls. -/
def runCommands : List Instr → State → Option State
  | [], s => some s
  | i :: rest, s =>
    match exec i s with
    | .next t => if t.seq.st = .idle then runCommands rest t else none
    | .fault _ => none
    | .refused _ => none

/-! ### The ADC (60_exceptions.md R107) -/

/-- The next `n` answers of the ADC, if every one of them completes. -/
def nextConversions : Nat → Adc → Option (List Conversion)
  | 0, _ => some []
  | n + 1, a =>
    match nextAnswer a with
    | (some c, a') => (nextConversions n (adcAnswered (some c) a')).map (c :: ·)
    | (none, _) => none

/-- `ADC_LIVE` for the next averaging cycle (R107 item 4): its conversions all complete, and these are
they, in order. -/
def AdcLive (s : State) (cs : List Conversion) : Prop :=
  nextConversions s.cfg.val.nSamples s.adc = some cs

/-- The conversion that stalls: the next `k` answers complete and the one after them never does. -/
def AdcStalls (s : State) (k : Nat) (cs : List Conversion) : Prop :=
  k < s.cfg.val.nSamples ∧ nextConversions k s.adc = some cs ∧ nextConversions (k + 1) s.adc = none

/-- The sum of the RawSamples of these conversions. -/
def sampleSum (cs : List Conversion) : Nat := (cs.map fun c => c.result.toNat).sum

/-- The pin events of one averaging cycle (42_analog_sampler.md R64). -/
def sampleTrace (cs : List Conversion) : List Event :=
  cs.flatMap fun c => [.adcStart, .adcDone c.result, .settle]

/-! ### The serial port (30_encoding.md R55) -/

/-- The bits of a byte, most significant first (20_memory.md R41). -/
def msbFirst (x : Byte) : List Bool := [7, 6, 5, 4, 3, 2, 1, 0].map fun i => x.getLsbD i

/-- The pin events of `push_bit` (44_shift_register_bus.md R78). -/
def bitTrace (b : Bool) : List Event := [.data b, .clkRise, .clkFall]

/-- The pin events of `push_byte` (44_shift_register_bus.md R80). -/
def byteTrace (x : Byte) : List Event := (msbFirst x).flatMap bitTrace

/-- The 75 pin events of a frame: tenths, ones, tens, `sr_data` low, one latch pulse
(45_display_controller.md R86). -/
def frameTrace (p0 p1 p2 : Byte) : List Event :=
  byteTrace p0 ++ byteTrace p1 ++ byteTrace p2 ++ [.data false, .latchRise, .latchFall]

/-- The level of `sr_data` at each `CLK_RISE` of a trace, given the level before it. -/
def levelsAtRise (level : Bool) : List Event → List Bool
  | [] => []
  | .data b :: es => levelsAtRise b es
  | .clkRise :: es => level :: levelsAtRise level es
  | .adcStart :: es => levelsAtRise level es
  | .adcDone _ :: es => levelsAtRise level es
  | .settle :: es => levelsAtRise level es
  | .clkFall :: es => levelsAtRise level es
  | .latchRise :: es => levelsAtRise level es
  | .latchFall :: es => levelsAtRise level es

/-! ### The minimum durations (70_reset_and_hazards.md R126) -/

/-- What a watcher of the pins remembers: the levels of `sr_clk` and `sr_latch`, the ticks that passed
for certain since the last serial event, and since the last `ADC_DONE`. -/
structure Watch where
  /-- The level of `sr_clk`. -/
  clk : Bool
  /-- The level of `sr_latch`. -/
  latch : Bool
  /-- Ticks since the last serial event. -/
  quiet : Nat
  /-- Ticks since the last `ADC_DONE`, if there was one. -/
  sinceDone : Option Nat
  deriving DecidableEq, Repr

/-- The watcher at one log entry: it gives up where a bound of R126 is broken. With `P` ticks for a
pulse and `S` for the settle wait: `sr_clk` and `sr_latch` rise only from low, with the other one low,
and `P` ticks after the last serial event (rows 3, 5, 6, 7, 8); they fall only `P` ticks after they
rose (rows 1, 2); `sr_data` does not change while `sr_clk` is high (row 4); `ADC_START` comes `S`
ticks after the last `ADC_DONE` at the earliest (row 9). `SETTLE` needs `S` ticks after an `ADC_DONE`
(00_scope.md R2). -/
def watch (P S : Nat) (w : Watch) : LogEntry → Option Watch
  | .hold n => some { w with quiet := w.quiet + n, sinceDone := w.sinceDone.map (· + n) }
  | .ev (.data _) => if w.clk then none else some { w with quiet := 0 }
  | .ev .clkRise =>
    if !w.clk && !w.latch && decide (P ≤ w.quiet) then some { w with clk := true, quiet := 0 } else none
  | .ev .clkFall => if w.clk && decide (P ≤ w.quiet) then some { w with clk := false, quiet := 0 } else none
  | .ev .latchRise =>
    if !w.clk && !w.latch && decide (P ≤ w.quiet) then some { w with latch := true, quiet := 0 } else none
  | .ev .latchFall =>
    if w.latch && decide (P ≤ w.quiet) then some { w with latch := false, quiet := 0 } else none
  | .ev .adcStart => if w.sinceDone.all (fun n => decide (S ≤ n)) then some w else none
  | .ev (.adcDone _) => some { w with sinceDone := some 0 }
  | .ev .settle => if w.sinceDone.any (fun n => decide (S ≤ n)) then some w else none

/-- The watcher over a whole log. -/
def watchAll (P S : Nat) : Watch → List LogEntry → Option Watch
  | w, [] => some w
  | w, x :: xs =>
    match watch P S w x with
    | some w' => watchAll P S w' xs
    | none => none

/-- The pins as they are between two operations: `sr_clk` and `sr_latch` low, the last settle wait over. -/
def Watch.rested (S : Nat) (w : Watch) : Prop :=
  w.clk = false ∧ w.latch = false ∧ ∀ n, w.sinceDone = some n → S ≤ n

/-! ### The reference sequencer (70_reset_and_hazards.md R127, R128) -/

/-- The body ticks of a non-suppressed frame push and latch: 24 bit cells and one latch pulse. -/
def frameTicks (P : Nat) : Nat := 48 * P + 2 * P

/-- The body ticks of one averaging cycle: a trigger tick, `w_i` waiting ticks and the settle wait for
each conversion, and the calculation (R128). A conversion with `d` low ticks of `adc_done` after the
trigger tick makes `w_i = d + 1` waiting ticks. -/
def sampleTicks (S : Nat) (cs : List Conversion) : Nat :=
  (cs.map fun c => 1 + (c.delay + 1) + S).sum + 1

/-- Is an operation started now met with everything at rest: `IDLE`, and no conversion in progress in
the ADC (60_exceptions.md R107 item 5)? -/
def AtRest (s : State) : Prop := s.seq.st = .idle ∧ s.adc.conv = none

/-- Is `ST` a state in which a byte is being pushed? -/
def SeqState.pushing (st : SeqState) : Bool := st == .bLow || st == .bHigh

/-- Is `ST` a state that `TMR` times (10_state.md R22)? -/
def SeqState.timed (st : SeqState) : Bool :=
  st == .sSettle || st == .bLow || st == .bHigh || st == .lLow || st == .lHigh

/-! ### The log against time (00_scope.md R7) -/

/-- The ticks of all the holds of a log. -/
def loggedTicks : List LogEntry → Nat
  | [] => 0
  | .hold n :: rest => n + loggedTicks rest
  | .ev _ :: rest => loggedTicks rest

/-- The ticks of the hold in progress that passed before this tick. -/
def runningTicks (s : State) : Nat :=
  if s.seq.st.timed then holdTicks s.cfg s.seq.st - s.seq.tmr else 0

/-! ### The invariant -/

/-- What every step of the machine keeps, in each of the 13 states of the sequencer. -/
structure Inv (s : State) : Prop where
  /-- The clear line is never active (44_shift_register_bus.md R85). -/
  clearHigh : s.pins.srClrN = true
  /-- `STATUS` bits 7:6 read 0 (10_state.md R23). -/
  reserved : s.status.getLsbD 6 = false ∧ s.status.getLsbD 7 = false
  /-- `BUSY` is 1 exactly while `ST` is not `IDLE` (10_state.md R24). -/
  busyIff : s.busy = true ↔ s.seq.st ≠ .idle
  /-- `adc_start` is 1 in `S_TRIG` only (10_state.md R20). -/
  triggerPin : s.pins.adcStart = true ↔ s.seq.st = .sTrig
  /-- `sr_clk` is 1 in `B_HIGH` only (10_state.md R20). -/
  clkPin : s.pins.srClk = true ↔ s.seq.st = .bHigh
  /-- `sr_latch` is 1 in `L_HIGH` only (10_state.md R20). -/
  latchPin : s.pins.srLatch = true ↔ s.seq.st = .lHigh
  /-- `sr_data` is 1 in a bit cell only (10_state.md R20, R30). -/
  dataPin : s.pins.srData = true → s.seq.st.pushing = true
  /-- `done` is 1 in `IDLE` only (10_state.md R29). -/
  doneIdle : s.seq.donef = true → s.seq.st = .idle
  /-- `BITIX` is at most 8, and 0 outside a bit cell (10_state.md R142). -/
  bitix : s.seq.bitix.toNat ≤ 8 ∧ (s.seq.bitix ≠ 0 → s.seq.st.pushing = true)
  /-- `BYTEIX` is at most 2, and 0 outside a bit cell: 10_state.md R142 says so of `IDLE`, and in `L_LOW`
  and `L_HIGH` it is the model's choice (log 13). -/
  byteix : s.seq.byteix.toNat ≤ 2 ∧ (s.seq.byteix ≠ 0 → s.seq.st.pushing = true)
  /-- `TMR` fits `TMR_BITS` and is no more than was loaded; it is not 0 in a timed state, and 0 in every
  other: 10_state.md R142 says so of `IDLE`, and elsewhere it is the model's choice (log 12). -/
  timer : s.seq.tmr ≤ max s.cfg.val.pulseTicks s.cfg.val.settleTicks ∧
    s.seq.tmr ≤ holdTicks s.cfg s.seq.st ∧ (s.seq.tmr ≠ 0 ↔ s.seq.st.timed = true)
  /-- `SKIP` needs an out-of-range digit, which left its flag (45_display_controller.md R92 item 1). -/
  skipNeedsArg : s.skip = true → s.err .arg = true
  /-- With no range error recorded the digit registers hold digits (10_state.md R15). -/
  digits : s.err .range = false →
    s.data.tens.toNat ≤ 9 ∧ s.data.ones.toNat ≤ 9 ∧ s.data.tenths.toNat ≤ 9
  /-- `CNT` never passes `N_SAMPLES`, and is below it before an accumulation (10_state.md R11). -/
  count : s.data.cnt.toNat ≤ s.cfg.val.nSamples ∧
    (s.seq.st = .sTrig ∨ s.seq.st = .sWait → s.data.cnt.toNat < s.cfg.val.nSamples)
  /-- `ACC` is a sum of `CNT` RawSamples (10_state.md R10). -/
  sum : s.data.acc.toNat ≤ 1023 * s.data.cnt.toNat
  /-- `VOLT` is `AVG * SCALE` (10_state.md R13). -/
  voltage : s.data.volt.toNat = s.data.avg.toNat * s.cfg.val.scale
  /-- `TEMP` is an exact difference (10_state.md R14). -/
  temperature : -4095 ≤ s.data.temp.toInt ∧ s.data.temp.toInt ≤ 4095

end Sys2Proof.Machine
end

