-- ==== Sys2Proof/Certificates/Slice0/Obligations.lean ====
section
/-! DEFINITION. The statements about the model, from the numbered rules of spec/. -/

open Sys2Proof Sys2Proof.Machine

/-! ### Encoding -/

/-- Decoding the word of any command gives that command back, with every operand at every value
(30_encoding.md R48 to R50). -/
def Obligations.DecodeOfEncode : Prop := ∀ i : Instr, decode (encodeInstr i) = .ok i

/-- A word that decodes is the word of what it decodes to: no bit of a legal word is dropped, and two
words never decode to one command (30_encoding.md R50). -/
def Obligations.EncodeOfDecode : Prop :=
  ∀ (w : CmdWord) (i : Instr), decode w = .ok i → encodeInstr i = w

/-- A word is illegal exactly when its opcode is 0x9 to 0xF or it has a 1 in a must-be-zero bit of its
format (30_encoding.md R52). -/
def Obligations.IllegalWordsExactly : Prop :=
  ∀ w : CmdWord,
    (∃ e, decode w = .error e) ↔
      (9 ≤ (w >>> 12).toNat ∨
        ((w >>> 12) ∈ [0x0#16, 0x1#16, 0x6#16, 0x8#16] ∧ w &&& 0x0FFF#16 ≠ 0) ∨
        (w >>> 12 = 0x3#16 ∧ w &&& 0x0F80#16 ≠ 0) ∨
        (w >>> 12 = 0x4#16 ∧ w &&& 0x0FFE#16 ≠ 0) ∨
        (w >>> 12 = 0x5#16 ∧ w &&& 0x0F00#16 ≠ 0))

/-- Words written out from 30_encoding.md and 95_test_vectors.md decode to the commands they stand for. -/
def Obligations.SampleWordsDecode : Prop :=
  decode 0x0000 = .ok .nop ∧ decode 0x1000 = .ok .sample ∧
  decode 0x24E2 = .ok (.convert 1250) ∧ decode 0x3035 = .ok (.encode 1 true 5) ∧
  decode 0x4001 = .ok (.pushbit true) ∧ decode 0x50A5 = .ok (.pushbyte 0xA5) ∧
  decode 0x6000 = .ok .latch ∧ decode 0x7234 = .ok (.showDigits 2 3 4) ∧
  decode 0x8000 = .ok .cycle ∧ decode 0x9000 = .error (.unusedOpcode 9) ∧
  decode 0x6001 = .error (.mustBeZero "LATCH")

/-! ### The step, configurations, reset -/

/-- A step of an idle machine whose host presents a word runs the command the word decodes to, or the
illegal command; the host's list loses that one action and nothing else happens around it. The host's
list is the model's form of the command port (log 8). -/
def Obligations.StepRunsDecodedCommand : Prop :=
  ∀ (s : State) (w : CmdWord) (rest : List HostAction),
    s.seq.st = .idle → s.host = .issue w :: rest →
      (∀ i, decode w = .ok i → step s = exec i (withHost rest s)) ∧
      (∀ e, decode w = .error e → step s = execIllegal w (withHost rest s))

/-- An illegal word sets `ERR_CMD` and changes nothing else but `CMDR`: no data register, no pin, no other
flag; in the reference sequencer its path is `IDLE, N_EXEC, IDLE`, busy for one tick, and `done` pulses
(46_cycle_and_nop.md R96). -/
def Obligations.IllegalWordSetsFlagOnly : Prop :=
  ∀ (s : State) (w : CmdWord) (e : Illegal), decode w = .error e →
    (∃ t, runWord w s = .next t ∧ Completed w t ∧ t.err .cmd = true ∧ StatusKept [2] s t ∧
      t.data = s.data ∧ PinsKept s t ∧ WorkKept s t ∧ UnitKept s t ∧ t.adc = s.adc ∧ t.draws = s.draws) ∧
    (s.seq.st = .idle →
      (tick (presenting w) s).seq.st = .nExec ∧ (tick (presenting w) s).busy = true ∧
      (tick quiet (tick (presenting w) s)).seq.st = .idle ∧
      (tick quiet (tick (presenting w) s)).done = true)

/-- No step ever stops: every state of every unit has a next one. The hardware sets a sticky flag and goes on
(60_exceptions.md R97). That the model goes on too at a hole read and at a temperature outside the domain,
where the spec lets it fault first (93_implementation_defined.md U1, U2), is the model's choice, log 17; and
that a stall is a next state, one of the two forms that R103 offers, is the model's choice, log 15. -/
def Obligations.EveryStepHasNext : Prop := ∀ s : State, ∃ t, step s = .next t

/-- A configuration is legal exactly when every parameter is in its range (00_scope.md R4, R5; 20_memory.md
R34, R36; 44_shift_register_bus.md R84); both products of R5 are then in range too. An illegal one is
refused, one with `N_SAMPLES = 0` among them, and a legal one gets the machine after reset. -/
def Obligations.IllegalConfigurationRefused : Prop :=
  (∀ c : Config, c.legal = true ↔
    (1 ≤ c.nSamples ∧ c.nSamples ≤ 65535) ∧ (1 ≤ c.scale ∧ c.scale ≤ 4) ∧ c.offsetMv ≤ 4095 ∧
    0 < c.fClk ∧ 1 ≤ c.pulseTicks ∧ 40 * c.fClk ≤ c.pulseTicks * 1000000 ∧ 1 ≤ c.settleTicks ∧
    c.segRom.map Prod.fst = romAddrs ∧ (∀ b, (0, b) ∈ c.segRom → b ≠ 0) ∧
    (∀ b, (16, b) ∈ c.segRom → b ≠ 0) ∧ (∀ b, (32, b) ∈ c.segRom → b ≠ 0)) ∧
  (∀ c : Config, c.legal = true → c.scale * 1023 ≤ 4095 ∧ c.nSamples * 1023 < 2 ^ 32) ∧
  (∀ c : Config, c.legal = false → ∃ e, State.boot c = .refused (.illegalConfiguration e)) ∧
  (∀ c : Config, c.nSamples = 0 → ∃ e, State.boot c = .refused (.illegalConfiguration e)) ∧
  (∀ c : LegalConfig, State.boot c.val = .next (State.resetWith c))

/-- No step and no clock edge writes the configuration (00_scope.md R4). -/
def Obligations.ConfigurationNeverWritten : Prop :=
  (∀ s t : State, step s = .next t → t.cfg = s.cfg) ∧
  (∀ (s : State) (inp : TickIn), (tick inp s).cfg = s.cfg)

/-- At an edge with `rst = 1`, whatever the state and whatever else is presented, every register, flag
and pin of CORE takes its reset value (70_reset_and_hazards.md R115, 10_state.md R31). -/
def Obligations.ResetEdgeClearsEverything : Prop :=
  ∀ (s : State) (inp : TickIn), inp.rst = true →
    let t := tick inp s
    t.data = ⟨0, 0, 0, 0, 0, 0, 0, 0, 0, 0, 0, 0, 0⟩ ∧ t.status = 0 ∧
    t.seq = ⟨.idle, 0, 0, 0, 0, 0, false⟩ ∧
    t.pins.adcStart = false ∧ t.pins.srData = false ∧ t.pins.srClk = false ∧ t.pins.srLatch = false ∧
    t.pins.srClrN = true ∧ t.done = false ∧ s.cmdReady true = false ∧ t.cmdReady false = true

/-- A reset that cuts no pulse short leaves the chain alone; in `B_HIGH` it leaves the output stage, in
`L_HIGH` the shift stage (70_reset_and_hazards.md R116). -/
def Obligations.ResetKeepsTheChain : Prop :=
  ∀ (s : State) (inp : TickIn), inp.rst = true →
    (s.seq.st ≠ .bHigh → (tick inp s).chain.sh = s.chain.sh) ∧
    (s.seq.st ≠ .lHigh → (tick inp s).chain.disp = s.chain.disp)

/-- CORE starts nothing by itself (70_reset_and_hazards.md R118). A reset edge, in whatever state it comes
(an ADC still converting, a frame in the chain), leaves CORE in `IDLE` and ready. In `IDLE`, reset or not,
an edge at which nothing is presented keeps the data registers, `STATUS`, the pins, the chain and the log, and
takes `done` low and leaves the other sequencer registers. So after a reset edge any number of such edges
leaves all of CORE as the reset did. -/
def Obligations.NothingStartsByItself : Prop :=
  (∀ (s : State) (inp : TickIn), inp.rst = true →
    (tick inp s).seq.st = .idle ∧ (tick inp s).cmdReady false = true) ∧
  (∀ s : State, s.seq.st = .idle →
    (tick quiet s).data = s.data ∧ (tick quiet s).status = s.status ∧ (tick quiet s).pins = s.pins ∧
    (tick quiet s).chain = s.chain ∧ (tick quiet s).log = s.log ∧
    (tick quiet s).seq = { s.seq with donef := false }) ∧
  (∀ (s : State) (inp : TickIn) (n : Nat), inp.rst = true →
    (ticks n (tick inp s)).data = (tick inp s).data ∧ (ticks n (tick inp s)).seq = (tick inp s).seq ∧
    (ticks n (tick inp s)).status = (tick inp s).status ∧ (ticks n (tick inp s)).pins = (tick inp s).pins ∧
    (ticks n (tick inp s)).chain = (tick inp s).chain ∧ (ticks n (tick inp s)).log = (tick inp s).log)

/-! ### The handshake -/

/-- Acceptance (10_state.md R28): in `IDLE` with no reset the word is latched, `BUSY` rises and `ST`
leaves `IDLE`; while busy a presented word changes nothing; with reset it is not accepted. -/
def Obligations.CommandAcceptance : Prop :=
  ∀ (s : State) (w : CmdWord),
    (s.seq.st = .idle →
      (tick (presenting w) s).seq.cmdr = w ∧ (tick (presenting w) s).busy = true ∧
      (tick (presenting w) s).seq.st ≠ .idle) ∧
    (s.seq.st ≠ .idle → tick (presenting w) s = tick quiet s) ∧
    tick ⟨true, some w⟩ s = tick resetting s

/-- `CMDR` latches the word at the edge that accepts it, which also chooses the first state of the path and,
for PUSHBIT and PUSHBYTE, the first level of `sr_data` from that word; it keeps the word until the next
acceptance, and the live `cmd` input has no effect on the operation in progress (10_state.md R19). -/
def Obligations.CommandRegisterHolds : Prop :=
  (∀ (s : State) (w : CmdWord), s.seq.st = .idle →
    (tick (presenting w) s).seq.cmdr = w ∧ (tick (presenting w) s).seq.st = firstState w ∧
    (∀ b, decode w = .ok (.pushbit b) → (tick (presenting w) s).pins.srData = b) ∧
    (∀ x, decode w = .ok (.pushbyte x) → (tick (presenting w) s).pins.srData = x.getLsbD 7)) ∧
  (∀ (s : State) (inp : TickIn), inp.rst = false → s.seq.st ≠ .idle ∨ inp.cmd = none →
    (tick inp s).seq.cmdr = s.seq.cmdr) ∧
  (∀ (s : State) (inp : TickIn), inp.rst = false → s.seq.st ≠ .idle → tick inp s = tick quiet s)

/-- `done` is 1 in the first `IDLE` tick only: the edge that ends it takes it low (10_state.md R29). -/
def Obligations.DoneLastsOneTick : Prop :=
  (∀ (s : State) (inp : TickIn), s.seq.st = .idle → (tick inp s).done = false) ∧
  (∀ (i : Instr) (s t : State), exec i s = .next t → t.seq.st = .idle →
    t.done = true ∧ t.cmdReady false = true)

/-! ### SegmentEncoder -/

/-- The ROM of a legal unit has a byte at exactly the 30 addresses with `p <= 2` and `v <= 9`; the other
34 are holes (20_memory.md R35, R36). -/
def Obligations.RomCellsAndHoles : Prop :=
  ∀ (c : LegalConfig) (p : Position) (v : Digit),
    (romRead c p v).isSome = true ↔ p.toNat ≤ 2 ∧ v.toNat ≤ 9

/-- The byte for the digit 0 is not 0x00 at any position (20_memory.md R34 item 2). -/
def Obligations.ZeroDigitIsLit : Prop :=
  ∀ (c : LegalConfig) (p : Position), p.toNat ≤ 2 → ∃ b, romRead c p 0 = some b ∧ b ≠ 0

/-- The properties of `enc` (41_segment_encoder.md R61): without the point it is the table byte, with it
bit 6 is set, and a byte that has bit 6 already is unchanged; `enc` changes no state. -/
def Obligations.EncoderProperties : Prop :=
  ∀ (s : State) (p : Position) (v : Digit), p.toNat ≤ 2 → v.toNat ≤ 9 →
    ∃ b, Memory.read s.cfg.val.segRom (16 * p.toNat + v.toNat) = some b ∧
      enc p v false s = (b, s) ∧ enc p v true s = (b ||| 0x40, s) ∧
      (enc p v true s).1.getLsbD 6 = true ∧ (enc p v true s).1 ≠ 0 ∧
      (b.getLsbD 6 = true → enc p v true s = enc p v false s)

/-- ENCODE in range: `PAT` is the table byte, with bit 6 set when `dp` is 1, whatever the position; no
flag, no pin and no other register changes (41_segment_encoder.md R62). -/
def Obligations.EncodeInRange : Prop :=
  ∀ (s : State) (p : Position) (dp : Bool) (v : Digit), p.toNat ≤ 2 → v.toNat ≤ 9 →
    ∃ b t, Memory.read s.cfg.val.segRom (16 * p.toNat + v.toNat) = some b ∧
      exec (.encode p dp v) s = .next t ∧
      t.data = { s.data with pat := if dp then b ||| 0x40 else b } ∧
      Completed (encodeInstr (.encode p dp v)) t ∧ StatusKept [] s t ∧ PinsKept s t ∧ WorkKept s t ∧
      UnitKept s t ∧ t.adc = s.adc ∧ t.draws = s.draws

/-- ENCODE out of range: it completes, raises `ArgError`, drives no pin and changes no register but `PAT`
(41_segment_encoder.md R63 item 1). Nothing is said of `PAT`'s value. That the model goes on here, where the spec
lets it fault, is log 17. -/
def Obligations.EncodeOutOfRange : Prop :=
  ∀ (s : State) (p : Position) (dp : Bool) (v : Digit), (p.toNat = 3 ∨ 10 ≤ v.toNat) →
    ∃ t, exec (.encode p dp v) s = .next t ∧ t.err .arg = true ∧
      t.data = { s.data with pat := t.data.pat } ∧
      Completed (encodeInstr (.encode p dp v)) t ∧ StatusKept [3] s t ∧ PinsKept s t ∧ WorkKept s t ∧
      UnitKept s t ∧ t.adc = s.adc

/-! ### TemperatureConverter -/

/-- CONVERT inside the domain: `TEMP` is the exact difference, the digits are those of its decimal
numeral, and nothing else changes (43_temperature_converter.md R73 to R75). -/
def Obligations.ConvertInDomain : Prop :=
  ∀ (s : State) (mv : Millivolts), s.cfg.val.offsetMv ≤ mv.toNat → mv.toNat ≤ s.cfg.val.offsetMv + 999 →
    ∃ t, exec (.convert mv) s = .next t ∧
      t.data.temp.toInt = mv.toNat - s.cfg.val.offsetMv ∧
      t.data.tens.toNat = (mv.toNat - s.cfg.val.offsetMv) / 100 ∧
      t.data.ones.toNat = (mv.toNat - s.cfg.val.offsetMv) % 100 / 10 ∧
      t.data.tenths.toNat = (mv.toNat - s.cfg.val.offsetMv) % 10 ∧
      t.data = { s.data with
        temp := t.data.temp, tens := t.data.tens, ones := t.data.ones, tenths := t.data.tenths } ∧
      Completed (encodeInstr (.convert mv)) t ∧ StatusKept [] s t ∧ PinsKept s t ∧ WorkKept s t ∧
      UnitKept s t ∧ t.adc = s.adc ∧ t.draws = s.draws

/-- Reconstruction (43_temperature_converter.md R77): for every temperature of the domain the digits put
it together again, each is in 0..9, and the whole degrees are the first two. -/
def Obligations.DigitsReconstruct : Prop :=
  ∀ (s : State) (mv : Millivolts) (n : Nat), n ≤ 999 → mv.toNat = s.cfg.val.offsetMv + n →
    let d := (toDigits mv s).data
    d.tens.toNat * 100 + d.ones.toNat * 10 + d.tenths.toNat = n ∧
    d.tens.toNat ≤ 9 ∧ d.ones.toNat ≤ 9 ∧ d.tenths.toNat ≤ 9 ∧
    d.ones.toNat = n / 10 % 10 ∧ d.tenths.toNat = n % 10 ∧ n / 10 = d.tens.toNat * 10 + d.ones.toNat

/-- CONVERT outside the domain: `TEMP` is still the exact difference, `RangeError` is raised, the
operation completes, and only the digits besides are touched (43_temperature_converter.md R76). Nothing
is said of the digits' values. That the model goes on here, where the spec
lets it fault, is log 17. -/
def Obligations.ConvertOutOfDomain : Prop :=
  ∀ (s : State) (mv : Millivolts),
    (mv.toNat < s.cfg.val.offsetMv ∨ s.cfg.val.offsetMv + 999 < mv.toNat) →
    ∃ t, exec (.convert mv) s = .next t ∧ t.err .range = true ∧
      t.data.temp.toInt = (mv.toNat : Int) - s.cfg.val.offsetMv ∧
      t.data = { s.data with
        temp := t.data.temp, tens := t.data.tens, ones := t.data.ones, tenths := t.data.tenths } ∧
      Completed (encodeInstr (.convert mv)) t ∧ StatusKept [4] s t ∧ PinsKept s t ∧ WorkKept s t ∧
      UnitKept s t ∧ t.adc = s.adc

/-! ### AnalogSampler -/

/-- SAMPLE with an ADC that answers: `ACC` is the sum of the results, `CNT` is `N_SAMPLES`, `AVG` the
truncated average, `VOLT` the average times `SCALE`; the trace is one trigger, completion and settle
wait per conversion; nothing else changes (42_analog_sampler.md R64 to R70). -/
def Obligations.SampleResult : Prop :=
  ∀ (s : State) (cs : List Conversion), AdcLive s cs →
    ∃ t, exec .sample s = .next t ∧
      t.data.acc.toNat = sampleSum cs ∧ t.data.cnt.toNat = s.cfg.val.nSamples ∧
      t.data.avg.toNat = sampleSum cs / s.cfg.val.nSamples ∧
      t.data.volt.toNat = sampleSum cs / s.cfg.val.nSamples * s.cfg.val.scale ∧
      t.trace = s.trace ++ sampleTrace cs ∧ cs.length = s.cfg.val.nSamples ∧
      t.data = { s.data with
        acc := t.data.acc, cnt := t.data.cnt, avg := t.data.avg, volt := t.data.volt } ∧
      t.pins = { s.pins with adcStart := false } ∧ t.chain = s.chain ∧
      Completed (encodeInstr .sample) t ∧ StatusKept [] s t ∧ WorkKept s t ∧ UnitKept s t ∧
      t.draws = s.draws

/-- The stall (42_analog_sampler.md R71): when the answer after `k` conversions never comes, SAMPLE and
CYCLE are left in `S_WAIT`, busy, not ready, without `done` and without a flag; `ACC` and `CNT` hold the
partial sum and count, every other data register and the chain keep what they had; every edge without
reset, whatever the host presents, leaves the machine as it is, and a reset takes it to `IDLE`. -/
def Obligations.StallHangs : Prop :=
  ∀ (i : Instr) (s : State) (k : Nat) (cs : List Conversion),
    (i = .sample ∨ i = .cycle) → AdcStalls s k cs →
    ∃ t, exec i s = .next t ∧ t.seq.st = .sWait ∧ t.busy = true ∧ t.cmdReady false = false ∧
      t.done = false ∧ t.data = { s.data with acc := t.data.acc, cnt := t.data.cnt } ∧
      t.data.acc.toNat = sampleSum cs ∧ t.data.cnt.toNat = k ∧ StatusKept [] s t ∧
      t.trace = s.trace ++ sampleTrace cs ++ [.adcStart] ∧ t.chain = s.chain ∧
      t.pins = { s.pins with adcStart := false } ∧ WorkKept s t ∧ UnitKept s t ∧ t.draws = s.draws ∧
      (∀ inp : TickIn, inp.rst = false → tick inp t = t) ∧
      (∀ inp : TickIn, inp.rst = true → (tick inp t).seq.st = .idle)

/-- Nothing of an earlier state enters a new averaging cycle (42_analog_sampler.md R65): two machines of
one configuration whose ADC gives the same answers get the same four results, whatever else differs. -/
def Obligations.SampleDependsOnAdcOnly : Prop :=
  ∀ (s s' t t' : State), s'.cfg = s.cfg → s'.adc = s.adc →
    exec .sample s = .next t → exec .sample s' = .next t' →
    t'.data.acc = t.data.acc ∧ t'.data.cnt = t.data.cnt ∧
    (t.seq.st = .idle → t'.data.avg = t.data.avg ∧ t'.data.volt = t.data.volt)

/-- Identical samples, range, granularity and order of the samples (42_analog_sampler.md R72 items 1, 2,
3 and 6). -/
def Obligations.SampleProperties : Prop :=
  ∀ (s t : State) (cs : List Conversion), AdcLive s cs → exec .sample s = .next t →
    (∀ r : RawSample, (∀ c ∈ cs, c.result = r) →
      t.data.avg = r ∧ t.data.volt.toNat = r.toNat * s.cfg.val.scale) ∧
    t.data.volt.toNat ≤ 1023 * s.cfg.val.scale ∧ s.cfg.val.scale ∣ t.data.volt.toNat ∧
    (∀ (s' t' : State) (cs' : List Conversion), s'.cfg = s.cfg → AdcLive s' cs' → List.Perm cs cs' →
      exec .sample s' = .next t' → t'.data.volt = t.data.volt)

/-! ### ShiftRegisterBus -/

/-- PUSHBIT: one bit cell, `sr_data` back to 0, one bit into the chain, `FRCNT` one higher up to 31;
nothing else changes (44_shift_register_bus.md R78, R79). -/
def Obligations.PushbitEffect : Prop :=
  ∀ (s : State) (b : Bool), ∃ t, exec (.pushbit b) s = .next t ∧
    t.log = s.log ++ [.ev (.data b), .hold s.cfg.val.pulseTicks, .ev .clkRise,
      .hold s.cfg.val.pulseTicks, .ev .clkFall, .ev (.data false)] ∧
    t.chain = { s.chain with sh := s.chain.sh.extractLsb' 0 23 ++ BitVec.ofBool b } ∧
    t.data = { s.data with frcnt := t.data.frcnt } ∧ t.data.frcnt.toNat = min (s.data.frcnt.toNat + 1) 31 ∧
    t.pins = { s.pins with srData := false, srClk := false } ∧
    Completed (encodeInstr (.pushbit b)) t ∧ StatusKept [] s t ∧ WorkKept s t ∧ UnitKept s t ∧
    t.adc = s.adc ∧ t.draws = s.draws

/-- PUSHBYTE: the eight bits go out most significant first, the byte stands in the low bits of the shift
stage, `FRCNT` is eight higher up to 31; nothing else changes but `SHR` and `BITIX`
(44_shift_register_bus.md R80, R81). -/
def Obligations.PushbyteEffect : Prop :=
  ∀ (s : State) (x : Byte), ∃ t, exec (.pushbyte x) s = .next t ∧
    t.trace = s.trace ++ byteTrace x ++ [.data false] ∧
    t.chain = { s.chain with sh := s.chain.sh.extractLsb' 0 16 ++ x } ∧
    t.data = { s.data with frcnt := t.data.frcnt } ∧ t.data.frcnt.toNat = min (s.data.frcnt.toNat + 8) 31 ∧
    t.pins = { s.pins with srData := false, srClk := false } ∧
    t.seq.shr = 0 ∧ t.seq.bitix = 0 ∧ t.seq.byteix = s.seq.byteix ∧ t.seq.tmr = s.seq.tmr ∧
    Completed (encodeInstr (.pushbyte x)) t ∧ StatusKept [] s t ∧ UnitKept s t ∧
    t.adc = s.adc ∧ t.draws = s.draws

/-- LATCH: one latch pulse whether or not the check failed, the display takes the shift stage, `FRCNT` is
0, and `ERR_FRAME` is set when `FRCNT` was not 24; nothing else changes (44_shift_register_bus.md R82,
R83). -/
def Obligations.LatchEffect : Prop :=
  ∀ s : State, ∃ t, exec .latch s = .next t ∧
    t.log = s.log ++ [.hold s.cfg.val.pulseTicks, .ev .latchRise, .hold s.cfg.val.pulseTicks,
      .ev .latchFall] ∧
    t.chain = ⟨s.chain.sh, s.chain.sh⟩ ∧ t.data = { s.data with frcnt := 0 } ∧
    t.err .frame = (s.err .frame || decide (s.data.frcnt.toNat ≠ 24)) ∧
    t.pins = { s.pins with srLatch := false } ∧
    Completed (encodeInstr .latch) t ∧ StatusKept [5] s t ∧ WorkKept s t ∧ UnitKept s t ∧
    t.adc = s.adc ∧ t.draws = s.draws

/-- A run of PUSHBIT commands (10_state.md R18, 20_memory.md R38): the count saturates at 31 and the bits
stand in the shift stage in the order they were pushed, the last one in bit 0. -/
def Obligations.PushedBitsAccumulate : Prop :=
  ∀ (bs : List Bool) (s : State), ∃ t, runCommands (bs.map .pushbit) s = some t ∧
    t.data.frcnt.toNat = min (s.data.frcnt.toNat + bs.length) 31 ∧
    t.chain.disp = s.chain.disp ∧
    ∀ k, k < 24 →
      t.chain.sh.getLsbD k =
        if k < bs.length then bs.reverse.getD k false else s.chain.sh.getLsbD (k - bs.length)

/-- The pseudo-instruction FRAME (30_encoding.md R56): three bytes and a LATCH after an earlier latch show
the three bytes, the first one in the high bits (20_memory.md R40), and record no frame error
(70_reset_and_hazards.md R125 item 1). -/
def Obligations.HandBuiltFrame : Prop :=
  ∀ (s : State) (a b c : Byte), s.data.frcnt = 0 →
    ∃ t, runCommands [.pushbyte a, .pushbyte b, .pushbyte c, .latch] s = some t ∧
      t.chain.disp = a ++ b ++ c ∧ t.err .frame = s.err .frame ∧ t.data.frcnt = 0 ∧
      t.trace = s.trace ++ byteTrace a ++ [.data false] ++ byteTrace b ++ [.data false] ++
        byteTrace c ++ [.data false] ++ [.latchRise, .latchFall]

/-! ### DisplayController -/

/-- SHOW of three digits in range: tenths at position 0, ones at position 1 with the point, tens at
position 2; never suppressed; 75 pin events in the fixed order; the display is the three patterns;
nothing else changes (45_display_controller.md R86, R87, R89, R90, R92 item 1). -/
def Obligations.ShowInRange : Prop :=
  ∀ (s : State) (t o h : Digit), t.toNat ≤ 9 → o.toNat ≤ 9 → h.toNat ≤ 9 →
    ∃ b0 b1 b2 s', Memory.read s.cfg.val.segRom h.toNat = some b0 ∧
      Memory.read s.cfg.val.segRom (16 + o.toNat) = some b1 ∧
      Memory.read s.cfg.val.segRom (32 + t.toNat) = some b2 ∧
      exec (.showDigits t o h) s = .next s' ∧
      s'.data = { s.data with p0 := b0, p1 := b1 ||| 0x40, p2 := b2, frcnt := 0 } ∧
      s'.skip = false ∧ s'.trace = s.trace ++ frameTrace b0 (b1 ||| 0x40) b2 ∧
      s'.chain = ⟨b0 ++ (b1 ||| 0x40) ++ b2, b0 ++ (b1 ||| 0x40) ++ b2⟩ ∧
      s'.pins = { s.pins with srData := false, srClk := false, srLatch := false } ∧
      s'.seq.shr = 0 ∧ s'.seq.bitix = 0 ∧ s'.seq.byteix = 0 ∧ s'.seq.tmr = s.seq.tmr ∧
      Completed (encodeInstr (.showDigits t o h)) s' ∧ StatusKept [1] s s' ∧ UnitKept s s' ∧
      s'.adc = s.adc ∧ s'.draws = s.draws

/-- The sentinel, for every three digits (45_display_controller.md R88, R91): SHOW completes; `SKIP` is 1
exactly when all three patterns are 0x00; then no pin moves, no event is added, no count changes and the
display keeps its frame; otherwise the whole frame is pushed and latched. Out-of-range digits raise
`ArgError`; in-range ones get the patterns of R87. The clause on the trace, the shift stage and `FRCNT` of a
suppressed update rests on decision D18 of 92_eei_decisions.md. That the model goes on with free values at
an out-of-range digit is the model's choice, log 17; only such a value can suppress the update, so the
witness of that clause takes the value of a free byte as its hypothesis. -/
def Obligations.ShowSentinel : Prop :=
  ∀ (s : State) (t o h : Digit), ∃ s', exec (.showDigits t o h) s = .next s' ∧
    Completed (encodeInstr (.showDigits t o h)) s' ∧
    (s'.skip = true ↔ s'.data.p0 = 0 ∧ s'.data.p1 = 0 ∧ s'.data.p2 = 0) ∧
    (s'.skip = true → PinsKept s s' ∧ s'.data.frcnt = s.data.frcnt) ∧
    (s'.skip = false →
      s'.trace = s.trace ++ frameTrace s'.data.p0 s'.data.p1 s'.data.p2 ∧
      s'.chain.disp = s'.data.p0 ++ s'.data.p1 ++ s'.data.p2 ∧
      s'.chain.sh = s'.chain.disp ∧ s'.data.frcnt = 0) ∧
    (s'.err .arg = (s.err .arg || decide (10 ≤ t.toNat ∨ 10 ≤ o.toNat ∨ 10 ≤ h.toNat))) ∧
    (h.toNat ≤ 9 → Memory.read s.cfg.val.segRom h.toNat = some s'.data.p0) ∧
    (o.toNat ≤ 9 → ∃ b, Memory.read s.cfg.val.segRom (16 + o.toNat) = some b ∧ s'.data.p1 = b ||| 0x40) ∧
    (t.toNat ≤ 9 → Memory.read s.cfg.val.segRom (32 + t.toNat) = some s'.data.p2) ∧
    s'.data = { s.data with
      p0 := s'.data.p0, p1 := s'.data.p1, p2 := s'.data.p2, frcnt := s'.data.frcnt } ∧
    StatusKept [1, 3] s s' ∧ UnitKept s s' ∧ s'.adc = s.adc

/-- The frame of a SHOW that is not suppressed: the levels at its 24 rising clock edges are `P0`, `P1`,
`P2`, each most significant bit first, so that cell `k` carries bit `7 - k mod 8` of byte `k div 8`; there
is one clock pulse per cell; then `sr_data` returns to 0 and `sr_latch` is pulsed once
(30_encoding.md R55). -/
def Obligations.FrameBitOrder : Prop :=
  ∀ (s s' : State) (t o h : Digit), exec (.showDigits t o h) s = .next s' → s'.skip = false →
    ∃ es, s'.trace = s.trace ++ es ∧ es.length = 75 ∧
      (∀ level k, k < 24 → (levelsAtRise level es)[k]? =
        some ((if k / 8 = 0 then s'.data.p0 else if k / 8 = 1 then s'.data.p1
          else s'.data.p2).getLsbD (7 - k % 8))) ∧
      (∀ level, (levelsAtRise level es).length = 24) ∧
      (∀ k, k < 24 → es[3 * k + 1]? = some .clkRise ∧ es[3 * k + 2]? = some .clkFall) ∧
      es.count .latchRise = 1 ∧ es.drop 72 = [.data false, .latchRise, .latchFall]

/-- Only SHOW and CYCLE change `SKIP` (10_state.md R25). -/
def Obligations.OnlyShowChangesSkip : Prop :=
  ∀ (i : Instr) (s t : State), exec i s = .next t →
    (∀ a b c, i ≠ .showDigits a b c) → i ≠ .cycle → t.skip = s.skip

/-! ### CYCLE and NOP -/

/-- CYCLE with an ADC that answers: the four results of SAMPLE, the exact temperature; inside the domain
its digits and their frame on the display and no flag but `SKIP` touched; outside it `RangeError`, and the
operation still completes, with a frame or a suppressed update (46_cycle_and_nop.md R93, R94). After a frame
the serial pins are low, the chain holds the three patterns in both stages, `FRCNT` and the working registers
are 0, inside the domain and outside it; after a suppressed update the serial pins, the chain, `FRCNT` and
the working registers are as they were (45_display_controller.md R88; that no event is added and the shift
stage and `FRCNT` are kept rests on decision D18 of 92_eei_decisions.md). That the model goes on with free
values outside the domain is the model's choice, log 17; only such values can suppress the update, so the
witness of that clause takes the values of free digits and a free byte as its hypotheses. -/
def Obligations.CycleResult : Prop :=
  ∀ (s : State) (cs : List Conversion), AdcLive s cs →
    ∃ t, exec .cycle s = .next t ∧ Completed (encodeInstr .cycle) t ∧
      t.data.acc.toNat = sampleSum cs ∧ t.data.cnt.toNat = s.cfg.val.nSamples ∧
      t.data.avg.toNat = sampleSum cs / s.cfg.val.nSamples ∧
      t.data.volt.toNat = t.data.avg.toNat * s.cfg.val.scale ∧
      t.data.temp.toInt = (t.data.volt.toNat : Int) - s.cfg.val.offsetMv ∧
      t.data = { t.data with pat := s.data.pat } ∧ StatusKept [1, 3, 4] s t ∧
      t.pins.srClrN = s.pins.srClrN ∧ t.pins.adcStart = false ∧ t.seq.tmr = s.seq.tmr ∧ UnitKept s t ∧
      (0 ≤ t.data.temp.toInt ∧ t.data.temp.toInt ≤ 999 →
        (t.data.tens.toNat * 100 + t.data.ones.toNat * 10 + t.data.tenths.toNat : Int) =
          t.data.temp.toInt ∧
        t.data.tens.toNat ≤ 9 ∧ t.data.ones.toNat ≤ 9 ∧ t.data.tenths.toNat ≤ 9 ∧
        Memory.read s.cfg.val.segRom t.data.tenths.toNat = some t.data.p0 ∧
        (∃ b, Memory.read s.cfg.val.segRom (16 + t.data.ones.toNat) = some b ∧
          t.data.p1 = b ||| 0x40) ∧
        Memory.read s.cfg.val.segRom (32 + t.data.tens.toNat) = some t.data.p2 ∧
        t.trace = s.trace ++ sampleTrace cs ++ frameTrace t.data.p0 t.data.p1 t.data.p2 ∧
        t.chain = ⟨t.data.p0 ++ t.data.p1 ++ t.data.p2, t.data.p0 ++ t.data.p1 ++ t.data.p2⟩ ∧
        t.data.frcnt = 0 ∧ t.skip = false ∧ StatusKept [1] s t ∧ t.draws = s.draws) ∧
      (t.data.temp.toInt < 0 ∨ 999 < t.data.temp.toInt → t.err .range = true) ∧
      (t.skip = false →
        t.trace = s.trace ++ sampleTrace cs ++ frameTrace t.data.p0 t.data.p1 t.data.p2 ∧
        t.chain = ⟨t.data.p0 ++ t.data.p1 ++ t.data.p2, t.data.p0 ++ t.data.p1 ++ t.data.p2⟩ ∧
        t.data.frcnt = 0 ∧ t.pins = ⟨false, false, false, false, s.pins.srClrN⟩ ∧
        t.seq.shr = 0 ∧ t.seq.bitix = 0 ∧ t.seq.byteix = 0) ∧
      (t.skip = true →
        t.trace = s.trace ++ sampleTrace cs ∧ t.chain = s.chain ∧ t.data.frcnt = s.data.frcnt ∧
        t.pins = { s.pins with adcStart := false } ∧ WorkKept s t)

/-- CYCLE leaves what the program `SAMPLE; CONVERT #VOLT; SHOW TENS, ONES, TENTHS` leaves, in which the
host copies the registers into the operands (46_cycle_and_nop.md R93, equivalence): the same registers,
flags, pins, chain and trace; only `CMDR` holds another word. R93 says so when no error is raised. That the
two agree outside the domain too rests on the model's choice that both runs draw the same free values from
the counter `draws`, log 4, and go on with them, log 17. -/
def Obligations.CycleEqualsProgram : Prop :=
  ∀ (s : State) (cs : List Conversion), AdcLive s cs →
    ∃ s1 s2 s3, exec .sample s = .next s1 ∧ exec (.convert s1.data.volt) s1 = .next s2 ∧
      exec (.showDigits s2.data.tens s2.data.ones s2.data.tenths) s2 = .next s3 ∧
      exec .cycle s = .next { s3 with seq.cmdr := 0x8000 }

/-- NOP: all data registers, flags and pins are as before; `CMDR` holds 0x0000 and `done` pulses
(46_cycle_and_nop.md R95). In the reference sequencer its path is `IDLE, N_EXEC, IDLE`. -/
def Obligations.NopChangesNothing : Prop :=
  ∀ s : State,
    (∃ t, exec .nop s = .next t ∧ Completed 0x0000 t ∧ t.data = s.data ∧ StatusKept [] s t ∧
      PinsKept s t ∧ WorkKept s t ∧ UnitKept s t ∧ t.adc = s.adc ∧ t.draws = s.draws) ∧
    (s.seq.st = .idle →
      (tick (presenting 0x0000) s).seq.st = .nExec ∧ (tick (presenting 0x0000) s).busy = true ∧
      (tick quiet (tick (presenting 0x0000) s)).seq.st = .idle ∧
      (tick quiet (tick (presenting 0x0000) s)).done = true)

/-! ### Errors -/

/-- The four error flags are sticky (10_state.md R26): no command and no clock edge without reset clears
one, and reset clears all. -/
def Obligations.ErrorFlagsAreSticky : Prop :=
  (∀ (i : Instr) (s t : State) (e : ErrorFlag), exec i s = .next t → s.err e = true → t.err e = true) ∧
  (∀ (s : State) (inp : TickIn) (e : ErrorFlag), inp.rst = false → s.err e = true →
    (tick inp s).err e = true) ∧
  (∀ (s : State) (inp : TickIn), inp.rst = true → NoErrorRecorded (tick inp s))

/-- Raising an error sets the bit of its code in `STATUS` and nothing else: no transfer of control, no
saved state (60_exceptions.md R97, R104). -/
def Obligations.RaiseSetsOneBit : Prop :=
  ∀ (s : State) (e : ErrorFlag),
    (raiseError e s).err e = true ∧ (∀ j, j ≠ e.bit → (raiseError e s).status.getLsbD j = s.status.getLsbD j) ∧
    raiseError e s = { s with status := (raiseError e s).status } ∧
    [ErrorFlag.cmd.bit, ErrorFlag.arg.bit, ErrorFlag.range.bit, ErrorFlag.frame.bit] = [2, 3, 4, 5]

/-- Which commands can set which error flag (60_exceptions.md R104): ENCODE, SHOW and CYCLE set `ERR_ARG`,
CONVERT and CYCLE set `ERR_RANGE`, LATCH sets `ERR_FRAME`, no command sets `ERR_CMD`; SAMPLE, PUSHBIT,
PUSHBYTE and NOP raise nothing. -/
def Obligations.WhoRaisesWhat : Prop :=
  ∀ (i : Instr) (s t : State), exec i s = .next t →
    t.err .cmd = s.err .cmd ∧
    (t.err .arg ≠ s.err .arg →
      (∃ p d v, i = .encode p d v) ∨ (∃ a b c, i = .showDigits a b c) ∨ i = .cycle) ∧
    (t.err .range ≠ s.err .range → (∃ mv, i = .convert mv) ∨ i = .cycle) ∧
    (t.err .frame ≠ s.err .frame → i = .latch)

/-- A caller that keeps its duties (70_reset_and_hazards.md R123, R124), with an ADC that is not used,
sets no error flag but by a LATCH of a frame that is not 24 bits long. -/
def Obligations.DutifulCallerRaisesNothing : Prop :=
  ∀ (i : Instr) (s t : State), i.callerOk s.cfg.val = true → i ≠ .cycle →
    (i = .latch → s.data.frcnt = 24) → exec i s = .next t → ∀ e, t.err e = s.err e

/-! ### Invariants -/

/-- The state after reset is sound, in every legal configuration (10_state.md R31). -/
def Obligations.ResetIsSound : Prop := ∀ c : LegalConfig, Inv (State.resetWith c)

/-- Every step keeps the invariant, from every state that has it: a command, an illegal word, a reset, a
cut operation, a tick of the reference sequencer. That `BYTEIX` is 0 in `L_LOW` and `L_HIGH`
is the model's choice, log 13, and that `TMR` is 0 in the untimed states other than `IDLE` and is not 0 in a
timed one is the model's choice, log 12; 10_state.md R142 says both of `IDLE` only. -/
def Obligations.StepKeepsInvariant : Prop := ∀ s t : State, Inv s → step s = .next t → Inv t

/-- Every clock edge keeps the invariant, whatever the host drives. That `BYTEIX` is 0 in `L_LOW` and `L_HIGH`
is the model's choice, log 13, and that `TMR` is 0 in the untimed states other than `IDLE` and is not 0 in a
timed one is the model's choice, log 12; 10_state.md R142 says both of `IDLE` only. -/
def Obligations.EdgeKeepsInvariant : Prop := ∀ (s : State) (inp : TickIn), Inv s → Inv (tick inp s)

/-- The display changes at a latch pulse only (20_memory.md R39, R46): an edge that does not end `L_LOW`
leaves the output stage alone, but for a reset that cuts the pulse short (70_reset_and_hazards.md R116). That
the stage changes at the edge that ends `L_LOW`, where the pulse rises, and not where it falls, is PRESUMED,
log 5: R39 marks it as general knowledge (93_implementation_defined.md G1), and a claim about the chain
between the two edges is unsafe. -/
def Obligations.DisplayChangesAtLatchOnly : Prop :=
  ∀ (s : State) (inp : TickIn),
    ¬ (s.seq.st = .lLow ∧ s.seq.tmr ≤ 1 ∧ inp.rst = false) → ¬ (s.seq.st = .lHigh ∧ inp.rst = true) →
    (tick inp s).chain.disp = s.chain.disp

/-! ### Timing -/

/-- The pulse-width contract (44_shift_register_bus.md R84): in the reference sequencer a clock pulse and
a latch pulse, once risen, stay high for `PULSE_TICKS` ticks if no reset comes, and that is at least 40
microseconds at the clock of the unit. -/
def Obligations.PulsesHeldLongEnough : Prop :=
  ∀ s : State,
    (s.seq.st = .bLow → s.seq.tmr ≤ 1 → ∀ k, k < s.cfg.val.pulseTicks →
      (ticks k (tick quiet s)).pins.srClk = true) ∧
    (s.seq.st = .lLow → s.seq.tmr ≤ 1 → ∀ k, k < s.cfg.val.pulseTicks →
      (ticks k (tick quiet s)).pins.srLatch = true) ∧
    40 * s.cfg.val.fClk ≤ s.cfg.val.pulseTicks * 1000000

/-- The minimum durations at the command level (70_reset_and_hazards.md R126, rows 1 to 9), across command
boundaries too: whatever command runs, a watcher that saw the pins at rest before it sees no bound
broken in what the command adds to the log, and the pins at rest after it. -/
def Obligations.MinimumDurations : Prop :=
  ∀ (i : Instr) (s t : State) (w : Watch), exec i s = .next t → w.rested s.cfg.val.settleTicks →
    ∃ added w', t.log = s.log ++ added ∧
      watchAll s.cfg.val.pulseTicks s.cfg.val.settleTicks w added = some w' ∧
      w'.rested s.cfg.val.settleTicks

/-! ### The reference sequencer against the command level -/

/-- NOP, CONVERT, ENCODE and every illegal word take one body tick in the reference sequencer, busy and
without `done`, and leave exactly what the command level says (70_reset_and_hazards.md R127, R128). That
`C_CALC` and `E_CALC` last one tick is the model's choice, log 14 (92_eei_decisions.md D32). The counts are those of the reference
realisation: 00_scope.md R1 makes them non-normative and no claim about the hardware may rest on them. -/
def Obligations.SequencerRunsShortCommands : Prop :=
  ∀ (s t : State) (w : CmdWord), Inv s → AtRest s →
    (decode w = .ok .nop ∨ (∃ mv, decode w = .ok (.convert mv)) ∨
      (∃ p dp v, decode w = .ok (.encode p dp v)) ∨ (∃ e, decode w = .error e)) →
    runWord w s = .next t →
    (tick (presenting w) s).busy = true ∧ (tick (presenting w) s).done = false ∧
    tick quiet (tick (presenting w) s) = t

/-- PUSHBIT and LATCH take `2 * PULSE_TICKS` body ticks, PUSHBYTE takes `16 * PULSE_TICKS`, and what they
leave is what the command level says (70_reset_and_hazards.md R128). The counts are those of the reference
realisation: 00_scope.md R1 makes them non-normative and no claim about the hardware may rest on them. -/
def Obligations.SequencerRunsSerialCommands : Prop :=
  ∀ (s t : State) (w : CmdWord), Inv s → AtRest s → runWord w s = .next t →
    ((∃ b, decode w = .ok (.pushbit b)) → ticks (2 * s.cfg.val.pulseTicks) (tick (presenting w) s) = t) ∧
    ((∃ x, decode w = .ok (.pushbyte x)) → ticks (16 * s.cfg.val.pulseTicks) (tick (presenting w) s) = t) ∧
    (decode w = .ok .latch → ticks (2 * s.cfg.val.pulseTicks) (tick (presenting w) s) = t)

/-- SHOW takes `1 + 48 * PULSE_TICKS + 2 * PULSE_TICKS` body ticks, or one when the update is suppressed,
and leaves what the command level says (70_reset_and_hazards.md R128). That `D_ENC` lasts one tick is the
model's choice, log 14 (92_eei_decisions.md D32); the clause of a suppressed update rests on decision D18 of
92_eei_decisions.md, and its witness takes the value of a free byte as its hypothesis. The counts are those of the reference
realisation: 00_scope.md R1 makes them non-normative and no claim about the hardware may rest on them. -/
def Obligations.SequencerRunsShow : Prop :=
  ∀ (s s' : State) (t o h : Digit), Inv s → AtRest s → exec (.showDigits t o h) s = .next s' →
    (s'.skip = false →
      ticks (1 + frameTicks s.cfg.val.pulseTicks)
        (tick (presenting (encodeInstr (.showDigits t o h))) s) = s') ∧
    (s'.skip = true → tick quiet (tick (presenting (encodeInstr (.showDigits t o h))) s) = s')

/-- SAMPLE takes a trigger tick, the waiting ticks of the ADC and the settle wait for each conversion and
one tick more, and leaves what the command level says (70_reset_and_hazards.md R128). That `S_CALC` lasts
one tick is the model's choice, log 14 (92_eei_decisions.md D32). The counts are those of the reference
realisation: 00_scope.md R1 makes them non-normative and no claim about the hardware may rest on them. -/
def Obligations.SequencerRunsSample : Prop :=
  ∀ (s t : State) (cs : List Conversion), Inv s → AtRest s → AdcLive s cs → exec .sample s = .next t →
    ticks (sampleTicks s.cfg.val.settleTicks cs) (tick (presenting 0x1000) s) = t

/-- CYCLE takes the ticks of SAMPLE, one for the conversion and those of SHOW, and leaves what the command
level says (70_reset_and_hazards.md R128). That `S_CALC`, `C_CALC` and `D_ENC` last one tick each is the
model's choice, log 14 (92_eei_decisions.md D32); the clause of a suppressed update rests on decision D18 of
92_eei_decisions.md, and its witness takes the values of free digits and a free byte as its hypotheses.
The counts are those of the reference
realisation: 00_scope.md R1 makes them non-normative and no claim about the hardware may rest on them. -/
def Obligations.SequencerRunsCycle : Prop :=
  ∀ (s t : State) (cs : List Conversion), Inv s → AtRest s → AdcLive s cs → exec .cycle s = .next t →
    (t.skip = false →
      ticks (sampleTicks s.cfg.val.settleTicks cs + 1 + (1 + frameTicks s.cfg.val.pulseTicks))
        (tick (presenting 0x8000) s) = t) ∧
    (t.skip = true →
      ticks (sampleTicks s.cfg.val.settleTicks cs + 1 + 1) (tick (presenting 0x8000) s) = t)

/-- A stalled SAMPLE or CYCLE: from some tick on the reference sequencer is, at every tick, in the state
that the command level gives for the stall (42_analog_sampler.md R71). -/
def Obligations.SequencerStalls : Prop :=
  ∀ (i : Instr) (s t : State) (k : Nat) (cs : List Conversion), (i = .sample ∨ i = .cycle) →
    Inv s → AtRest s → AdcStalls s k cs → exec i s = .next t →
    ∃ n, ∀ m, n ≤ m → ticks m (tick (presenting (encodeInstr i)) s) = t

/-- Nothing but reset takes `ST` out of an operation before its end (10_state.md R21), and the end comes
at one edge: from an accepted word to the `done` tick the reference sequencer is busy at every tick and
then holds what the command level says, for every word, legal or not, that does not stall. -/
def Obligations.SequencerRefinesCommandLevel : Prop :=
  ∀ (s t : State) (w : CmdWord), Inv s → AtRest s → runWord w s = .next t → t.seq.st = .idle →
    ∃ n, 1 ≤ n ∧ ticks n (tick (presenting w) s) = t ∧
      ∀ k, k < n → (ticks k (tick (presenting w) s)).busy = true ∧
        (ticks k (tick (presenting w) s)).done = false

/-! ### The log against time -/

/-- The log never says more ticks than passed (00_scope.md R7): with the ticks of the hold in progress, what
it says grows by at most one at each edge, whatever the host drives, reset included. -/
def Obligations.LogNeverOverstatesTime : Prop :=
  ∀ (s : State) (inp : TickIn), Inv s →
    loggedTicks (tick inp s).log + runningTicks (tick inp s) ≤ loggedTicks s.log + runningTicks s + 1

/-- What a reset leaves in the log of the pulse or the wait that it cuts short (70_reset_and_hazards.md R116,
00_scope.md R2, R7). With `k` ticks of it over, `k` below its length, the reset edge ends the next one: a
clock pulse and a latch pulse stand there as `k + 1` ticks long, and a settle wait as `k + 1` ticks without
a `SETTLE`. Which events a reset appends is the model's choice, log 11. -/
def Obligations.ResetLogsWhatPassed : Prop :=
  ∀ (s : State) (inp : TickIn) (k : Nat), Inv s → inp.rst = true →
    (s.seq.st = .bLow → s.seq.tmr = 1 → k < s.cfg.val.pulseTicks →
      (tick inp (ticks k (tick quiet s))).log = s.log ++
        [.hold s.cfg.val.pulseTicks, .ev .clkRise, .hold (k + 1), .ev .clkFall] ++
        if s.pins.srData then [.ev (.data false)] else []) ∧
    (s.seq.st = .lLow → s.seq.tmr = 1 → k < s.cfg.val.pulseTicks →
      (tick inp (ticks k (tick quiet s))).log = s.log ++
        [.hold s.cfg.val.pulseTicks, .ev .latchRise, .hold (k + 1), .ev .latchFall]) ∧
    (s.seq.st = .sWait → s.adc.done = true → k < s.cfg.val.settleTicks →
      (tick inp (ticks k (tick quiet s))).log = s.log ++ [.ev (.adcDone s.adc.data), .hold (k + 1)])
end

