-- ==== Sys2Proof/Laws/Config.lean ====
section
/-! SUPPORT. The open configuration leaves nothing out: every legal clock is one of its clocks (log 3). -/

namespace Sys2Proof.Machine

/-- Every positive rational clock at which `p + 1` ticks last 40 microseconds or longer is open. -/
theorem openFrequency_reaches {q : Rat} {p : Nat} (h0 : 0 < q)
    (h : Config.tPulseMinUs * q ≤ ((p + 1 : Nat) : Rat) * 1000000) : ∃ c, openFrequency c p = q := by
  have hn : 0 < q.num := Rat.num_pos.mpr h0
  obtain ⟨m, hm⟩ := Int.eq_succ_of_zero_lt hn
  obtain ⟨d, hd⟩ := Nat.exists_eq_add_of_le' q.den_pos
  have hq : q = ((m + 1 : Nat) : Rat) / ((d + 1 : Nat) : Rat) := by
    conv_lhs => rw [← Rat.num_div_den q, hm, hd]
    push_cast
    rfl
  have hlt : m < 25000 * ((p + 1) * (d + 1)) := by
    have hd0 : (0 : Rat) < ((d + 1 : Nat) : Rat) := Nat.cast_pos.mpr (Nat.succ_pos _)
    rw [hq, Config.tPulseMinUs, ← mul_div_assoc, div_le_iff₀ hd0] at h
    have h' : 40 * (m + 1) ≤ (p + 1) * 1000000 * (d + 1) := by exact_mod_cast h
    rw [show (p + 1) * 1000000 * (d + 1) = 40 * (25000 * ((p + 1) * (d + 1))) by ring] at h'
    omega
  exact ⟨(m, d), by rw [openFrequency, Nat.mod_eq_of_lt hlt, ← hq]⟩

end Sys2Proof.Machine
end

