-- ==== Sys2Proof/Laws/State.lean ====
section
/-! SUPPORT. One lemma per field per update of the state: what each named operation leaves in each field
of `State`, true by `rfl`. No later proof unfolds a record update. -/

namespace Sys2Proof.Machine

/-! ### emit -/

@[simp] theorem emit_cfg (e : Event) (s : State) : (emit e s).cfg = s.cfg := rfl
@[simp] theorem emit_data (e : Event) (s : State) : (emit e s).data = s.data := rfl
@[simp] theorem emit_seq (e : Event) (s : State) : (emit e s).seq = s.seq := rfl
@[simp] theorem emit_status (e : Event) (s : State) : (emit e s).status = s.status := rfl
@[simp] theorem emit_pins (e : Event) (s : State) : (emit e s).pins = s.pins := rfl
@[simp] theorem emit_chain (e : Event) (s : State) : (emit e s).chain = s.chain := rfl
@[simp] theorem emit_adc (e : Event) (s : State) : (emit e s).adc = s.adc := rfl
@[simp] theorem emit_host (e : Event) (s : State) : (emit e s).host = s.host := rfl
@[simp] theorem emit_draws (e : Event) (s : State) : (emit e s).draws = s.draws := rfl
@[simp] theorem emit_log (e : Event) (s : State) : (emit e s).log = s.log ++ [.ev e] := rfl

/-! ### hold -/

@[simp] theorem hold_cfg (n : Nat) (s : State) : (hold n s).cfg = s.cfg := rfl
@[simp] theorem hold_data (n : Nat) (s : State) : (hold n s).data = s.data := rfl
@[simp] theorem hold_seq (n : Nat) (s : State) : (hold n s).seq = s.seq := rfl
@[simp] theorem hold_status (n : Nat) (s : State) : (hold n s).status = s.status := rfl
@[simp] theorem hold_pins (n : Nat) (s : State) : (hold n s).pins = s.pins := rfl
@[simp] theorem hold_chain (n : Nat) (s : State) : (hold n s).chain = s.chain := rfl
@[simp] theorem hold_adc (n : Nat) (s : State) : (hold n s).adc = s.adc := rfl
@[simp] theorem hold_host (n : Nat) (s : State) : (hold n s).host = s.host := rfl
@[simp] theorem hold_draws (n : Nat) (s : State) : (hold n s).draws = s.draws := rfl
@[simp] theorem hold_log (n : Nat) (s : State) : (hold n s).log = s.log ++ [.hold n] := rfl

/-! ### driveData -/

@[simp] theorem driveData_cfg (b : Bool) (s : State) : (driveData b s).cfg = s.cfg := rfl
@[simp] theorem driveData_data (b : Bool) (s : State) : (driveData b s).data = s.data := rfl
@[simp] theorem driveData_seq (b : Bool) (s : State) : (driveData b s).seq = s.seq := rfl
@[simp] theorem driveData_status (b : Bool) (s : State) : (driveData b s).status = s.status := rfl
@[simp] theorem driveData_pins (b : Bool) (s : State) :
    (driveData b s).pins = { s.pins with srData := b } := rfl
@[simp] theorem driveData_chain (b : Bool) (s : State) : (driveData b s).chain = s.chain := rfl
@[simp] theorem driveData_adc (b : Bool) (s : State) : (driveData b s).adc = s.adc := rfl
@[simp] theorem driveData_host (b : Bool) (s : State) : (driveData b s).host = s.host := rfl
@[simp] theorem driveData_draws (b : Bool) (s : State) : (driveData b s).draws = s.draws := rfl
@[simp] theorem driveData_log (b : Bool) (s : State) : (driveData b s).log = s.log ++ [.ev (.data b)] := rfl

/-! ### raiseClk -/

@[simp] theorem raiseClk_cfg (s : State) : (raiseClk s).cfg = s.cfg := rfl
@[simp] theorem raiseClk_data (s : State) : (raiseClk s).data = s.data := rfl
@[simp] theorem raiseClk_seq (s : State) : (raiseClk s).seq = s.seq := rfl
@[simp] theorem raiseClk_status (s : State) : (raiseClk s).status = s.status := rfl
@[simp] theorem raiseClk_pins (s : State) : (raiseClk s).pins = { s.pins with srClk := true } := rfl
@[simp] theorem raiseClk_chain (s : State) :
    (raiseClk s).chain = { s.chain with sh := s.chain.sh.shiftConcat s.pins.srData } := rfl
@[simp] theorem raiseClk_adc (s : State) : (raiseClk s).adc = s.adc := rfl
@[simp] theorem raiseClk_host (s : State) : (raiseClk s).host = s.host := rfl
@[simp] theorem raiseClk_draws (s : State) : (raiseClk s).draws = s.draws := rfl
@[simp] theorem raiseClk_log (s : State) : (raiseClk s).log = s.log ++ [.ev .clkRise] := rfl

/-! ### dropClk -/

@[simp] theorem dropClk_cfg (s : State) : (dropClk s).cfg = s.cfg := rfl
@[simp] theorem dropClk_data (s : State) : (dropClk s).data = s.data := rfl
@[simp] theorem dropClk_seq (s : State) : (dropClk s).seq = s.seq := rfl
@[simp] theorem dropClk_status (s : State) : (dropClk s).status = s.status := rfl
@[simp] theorem dropClk_pins (s : State) : (dropClk s).pins = { s.pins with srClk := false } := rfl
@[simp] theorem dropClk_chain (s : State) : (dropClk s).chain = s.chain := rfl
@[simp] theorem dropClk_adc (s : State) : (dropClk s).adc = s.adc := rfl
@[simp] theorem dropClk_host (s : State) : (dropClk s).host = s.host := rfl
@[simp] theorem dropClk_draws (s : State) : (dropClk s).draws = s.draws := rfl
@[simp] theorem dropClk_log (s : State) : (dropClk s).log = s.log ++ [.ev .clkFall] := rfl

/-! ### raiseLatch -/

@[simp] theorem raiseLatch_cfg (s : State) : (raiseLatch s).cfg = s.cfg := rfl
@[simp] theorem raiseLatch_data (s : State) : (raiseLatch s).data = s.data := rfl
@[simp] theorem raiseLatch_seq (s : State) : (raiseLatch s).seq = s.seq := rfl
@[simp] theorem raiseLatch_status (s : State) : (raiseLatch s).status = s.status := rfl
@[simp] theorem raiseLatch_pins (s : State) : (raiseLatch s).pins = { s.pins with srLatch := true } := rfl
@[simp] theorem raiseLatch_chain (s : State) :
    (raiseLatch s).chain = { s.chain with disp := s.chain.sh } := rfl
@[simp] theorem raiseLatch_adc (s : State) : (raiseLatch s).adc = s.adc := rfl
@[simp] theorem raiseLatch_host (s : State) : (raiseLatch s).host = s.host := rfl
@[simp] theorem raiseLatch_draws (s : State) : (raiseLatch s).draws = s.draws := rfl
@[simp] theorem raiseLatch_log (s : State) : (raiseLatch s).log = s.log ++ [.ev .latchRise] := rfl

/-! ### dropLatch -/

@[simp] theorem dropLatch_cfg (s : State) : (dropLatch s).cfg = s.cfg := rfl
@[simp] theorem dropLatch_data (s : State) : (dropLatch s).data = s.data := rfl
@[simp] theorem dropLatch_seq (s : State) : (dropLatch s).seq = s.seq := rfl
@[simp] theorem dropLatch_status (s : State) : (dropLatch s).status = s.status := rfl
@[simp] theorem dropLatch_pins (s : State) : (dropLatch s).pins = { s.pins with srLatch := false } := rfl
@[simp] theorem dropLatch_chain (s : State) : (dropLatch s).chain = s.chain := rfl
@[simp] theorem dropLatch_adc (s : State) : (dropLatch s).adc = s.adc := rfl
@[simp] theorem dropLatch_host (s : State) : (dropLatch s).host = s.host := rfl
@[simp] theorem dropLatch_draws (s : State) : (dropLatch s).draws = s.draws := rfl
@[simp] theorem dropLatch_log (s : State) : (dropLatch s).log = s.log ++ [.ev .latchFall] := rfl

/-! ### raiseTrigger -/

@[simp] theorem raiseTrigger_cfg (s : State) : (raiseTrigger s).cfg = s.cfg := rfl
@[simp] theorem raiseTrigger_data (s : State) : (raiseTrigger s).data = s.data := rfl
@[simp] theorem raiseTrigger_seq (s : State) : (raiseTrigger s).seq = s.seq := rfl
@[simp] theorem raiseTrigger_status (s : State) : (raiseTrigger s).status = s.status := rfl
@[simp] theorem raiseTrigger_pins (s : State) :
    (raiseTrigger s).pins = { s.pins with adcStart := true } := rfl
@[simp] theorem raiseTrigger_chain (s : State) : (raiseTrigger s).chain = s.chain := rfl
@[simp] theorem raiseTrigger_adc (s : State) : (raiseTrigger s).adc = s.adc := rfl
@[simp] theorem raiseTrigger_host (s : State) : (raiseTrigger s).host = s.host := rfl
@[simp] theorem raiseTrigger_draws (s : State) : (raiseTrigger s).draws = s.draws := rfl
@[simp] theorem raiseTrigger_log (s : State) : (raiseTrigger s).log = s.log ++ [.ev .adcStart] := rfl

/-! ### dropTrigger -/

@[simp] theorem dropTrigger_cfg (s : State) : (dropTrigger s).cfg = s.cfg := rfl
@[simp] theorem dropTrigger_data (s : State) : (dropTrigger s).data = s.data := rfl
@[simp] theorem dropTrigger_seq (s : State) : (dropTrigger s).seq = s.seq := rfl
@[simp] theorem dropTrigger_status (s : State) : (dropTrigger s).status = s.status := rfl
@[simp] theorem dropTrigger_pins (s : State) : (dropTrigger s).pins = { s.pins with adcStart := false } := rfl
@[simp] theorem dropTrigger_chain (s : State) : (dropTrigger s).chain = s.chain := rfl
@[simp] theorem dropTrigger_adc (s : State) : (dropTrigger s).adc = s.adc := rfl
@[simp] theorem dropTrigger_host (s : State) : (dropTrigger s).host = s.host := rfl
@[simp] theorem dropTrigger_draws (s : State) : (dropTrigger s).draws = s.draws := rfl
@[simp] theorem dropTrigger_log (s : State) : (dropTrigger s).log = s.log ++ [.hold 1] := rfl

/-! ### raiseError -/

@[simp] theorem raiseError_cfg (e : ErrorFlag) (s : State) : (raiseError e s).cfg = s.cfg := rfl
@[simp] theorem raiseError_data (e : ErrorFlag) (s : State) : (raiseError e s).data = s.data := rfl
@[simp] theorem raiseError_seq (e : ErrorFlag) (s : State) : (raiseError e s).seq = s.seq := rfl
@[simp] theorem raiseError_status (e : ErrorFlag) (s : State) :
    (raiseError e s).status = setBit e.bit s.status := rfl
@[simp] theorem raiseError_pins (e : ErrorFlag) (s : State) : (raiseError e s).pins = s.pins := rfl
@[simp] theorem raiseError_chain (e : ErrorFlag) (s : State) : (raiseError e s).chain = s.chain := rfl
@[simp] theorem raiseError_adc (e : ErrorFlag) (s : State) : (raiseError e s).adc = s.adc := rfl
@[simp] theorem raiseError_host (e : ErrorFlag) (s : State) : (raiseError e s).host = s.host := rfl
@[simp] theorem raiseError_draws (e : ErrorFlag) (s : State) : (raiseError e s).draws = s.draws := rfl
@[simp] theorem raiseError_log (e : ErrorFlag) (s : State) : (raiseError e s).log = s.log := rfl

/-! ### setSkip -/

@[simp] theorem setSkip_cfg (b : Bool) (s : State) : (setSkip b s).cfg = s.cfg := rfl
@[simp] theorem setSkip_data (b : Bool) (s : State) : (setSkip b s).data = s.data := rfl
@[simp] theorem setSkip_seq (b : Bool) (s : State) : (setSkip b s).seq = s.seq := rfl
@[simp] theorem setSkip_status (b : Bool) (s : State) :
    (setSkip b s).status = if b then setBit 1 s.status else clearBit 1 s.status := rfl
@[simp] theorem setSkip_pins (b : Bool) (s : State) : (setSkip b s).pins = s.pins := rfl
@[simp] theorem setSkip_chain (b : Bool) (s : State) : (setSkip b s).chain = s.chain := rfl
@[simp] theorem setSkip_adc (b : Bool) (s : State) : (setSkip b s).adc = s.adc := rfl
@[simp] theorem setSkip_host (b : Bool) (s : State) : (setSkip b s).host = s.host := rfl
@[simp] theorem setSkip_draws (b : Bool) (s : State) : (setSkip b s).draws = s.draws := rfl
@[simp] theorem setSkip_log (b : Bool) (s : State) : (setSkip b s).log = s.log := rfl

/-! ### accept -/

@[simp] theorem accept_cfg (w : CmdWord) (s : State) : (accept w s).cfg = s.cfg := rfl
@[simp] theorem accept_data (w : CmdWord) (s : State) : (accept w s).data = s.data := rfl
@[simp] theorem accept_seq (w : CmdWord) (s : State) :
    (accept w s).seq = { s.seq with cmdr := w, st := firstState w, donef := false } := rfl
@[simp] theorem accept_status (w : CmdWord) (s : State) : (accept w s).status = setBit 0 s.status := rfl
@[simp] theorem accept_pins (w : CmdWord) (s : State) : (accept w s).pins = s.pins := rfl
@[simp] theorem accept_chain (w : CmdWord) (s : State) : (accept w s).chain = s.chain := rfl
@[simp] theorem accept_adc (w : CmdWord) (s : State) : (accept w s).adc = s.adc := rfl
@[simp] theorem accept_host (w : CmdWord) (s : State) : (accept w s).host = s.host := rfl
@[simp] theorem accept_draws (w : CmdWord) (s : State) : (accept w s).draws = s.draws := rfl
@[simp] theorem accept_log (w : CmdWord) (s : State) : (accept w s).log = s.log := rfl

/-! ### finish -/

@[simp] theorem finish_cfg (s : State) : (finish s).cfg = s.cfg := rfl
@[simp] theorem finish_data (s : State) : (finish s).data = s.data := rfl
@[simp] theorem finish_seq (s : State) : (finish s).seq = { s.seq with st := .idle, donef := true } := rfl
@[simp] theorem finish_status (s : State) : (finish s).status = clearBit 0 s.status := rfl
@[simp] theorem finish_pins (s : State) : (finish s).pins = s.pins := rfl
@[simp] theorem finish_chain (s : State) : (finish s).chain = s.chain := rfl
@[simp] theorem finish_adc (s : State) : (finish s).adc = s.adc := rfl
@[simp] theorem finish_host (s : State) : (finish s).host = s.host := rfl
@[simp] theorem finish_draws (s : State) : (finish s).draws = s.draws := rfl
@[simp] theorem finish_log (s : State) : (finish s).log = s.log := rfl

/-! ### clearSum -/

@[simp] theorem clearSum_cfg (s : State) : (clearSum s).cfg = s.cfg := rfl
@[simp] theorem clearSum_data (s : State) : (clearSum s).data = { s.data with acc := 0, cnt := 0 } := rfl
@[simp] theorem clearSum_seq (s : State) : (clearSum s).seq = s.seq := rfl
@[simp] theorem clearSum_status (s : State) : (clearSum s).status = s.status := rfl
@[simp] theorem clearSum_pins (s : State) : (clearSum s).pins = s.pins := rfl
@[simp] theorem clearSum_chain (s : State) : (clearSum s).chain = s.chain := rfl
@[simp] theorem clearSum_adc (s : State) : (clearSum s).adc = s.adc := rfl
@[simp] theorem clearSum_host (s : State) : (clearSum s).host = s.host := rfl
@[simp] theorem clearSum_draws (s : State) : (clearSum s).draws = s.draws := rfl
@[simp] theorem clearSum_log (s : State) : (clearSum s).log = s.log := rfl

/-! ### accumulate -/

@[simp] theorem accumulate_cfg (r : RawSample) (s : State) : (accumulate r s).cfg = s.cfg := rfl
@[simp] theorem accumulate_data (r : RawSample) (s : State) :
    (accumulate r s).data = { s.data with acc := s.data.acc + zext32 r, cnt := s.data.cnt + 1 } := rfl
@[simp] theorem accumulate_seq (r : RawSample) (s : State) : (accumulate r s).seq = s.seq := rfl
@[simp] theorem accumulate_status (r : RawSample) (s : State) : (accumulate r s).status = s.status := rfl
@[simp] theorem accumulate_pins (r : RawSample) (s : State) : (accumulate r s).pins = s.pins := rfl
@[simp] theorem accumulate_chain (r : RawSample) (s : State) : (accumulate r s).chain = s.chain := rfl
@[simp] theorem accumulate_adc (r : RawSample) (s : State) : (accumulate r s).adc = s.adc := rfl
@[simp] theorem accumulate_host (r : RawSample) (s : State) : (accumulate r s).host = s.host := rfl
@[simp] theorem accumulate_draws (r : RawSample) (s : State) : (accumulate r s).draws = s.draws := rfl
@[simp] theorem accumulate_log (r : RawSample) (s : State) :
    (accumulate r s).log = s.log ++ [.ev (.adcDone r)] := rfl

/-! ### settle -/

@[simp] theorem settle_cfg (s : State) : (settle s).cfg = s.cfg := rfl
@[simp] theorem settle_data (s : State) : (settle s).data = s.data := rfl
@[simp] theorem settle_seq (s : State) : (settle s).seq = s.seq := rfl
@[simp] theorem settle_status (s : State) : (settle s).status = s.status := rfl
@[simp] theorem settle_pins (s : State) : (settle s).pins = s.pins := rfl
@[simp] theorem settle_chain (s : State) : (settle s).chain = s.chain := rfl
@[simp] theorem settle_adc (s : State) : (settle s).adc = s.adc := rfl
@[simp] theorem settle_host (s : State) : (settle s).host = s.host := rfl
@[simp] theorem settle_draws (s : State) : (settle s).draws = s.draws := rfl
@[simp] theorem settle_log (s : State) :
    (settle s).log = s.log ++ [.hold s.cfg.val.settleTicks] ++ [.ev .settle] := rfl

/-! ### writeDigits -/

@[simp] theorem writeDigits_cfg (t : Nat) (s : State) : (writeDigits t s).cfg = s.cfg := rfl
@[simp] theorem writeDigits_data (t : Nat) (s : State) :
    (writeDigits t s).data = { s.data with tens := BitVec.ofNat 4 (t / 100), ones := BitVec.ofNat 4 (t % 100 / 10), tenths := BitVec.ofNat 4 (t % 100 % 10) } := rfl
@[simp] theorem writeDigits_seq (t : Nat) (s : State) : (writeDigits t s).seq = s.seq := rfl
@[simp] theorem writeDigits_status (t : Nat) (s : State) : (writeDigits t s).status = s.status := rfl
@[simp] theorem writeDigits_pins (t : Nat) (s : State) : (writeDigits t s).pins = s.pins := rfl
@[simp] theorem writeDigits_chain (t : Nat) (s : State) : (writeDigits t s).chain = s.chain := rfl
@[simp] theorem writeDigits_adc (t : Nat) (s : State) : (writeDigits t s).adc = s.adc := rfl
@[simp] theorem writeDigits_host (t : Nat) (s : State) : (writeDigits t s).host = s.host := rfl
@[simp] theorem writeDigits_draws (t : Nat) (s : State) : (writeDigits t s).draws = s.draws := rfl
@[simp] theorem writeDigits_log (t : Nat) (s : State) : (writeDigits t s).log = s.log := rfl

/-! ### holdPulse -/

@[simp] theorem holdPulse_cfg (s : State) : (holdPulse s).cfg = s.cfg := rfl
@[simp] theorem holdPulse_data (s : State) : (holdPulse s).data = s.data := rfl
@[simp] theorem holdPulse_seq (s : State) : (holdPulse s).seq = s.seq := rfl
@[simp] theorem holdPulse_status (s : State) : (holdPulse s).status = s.status := rfl
@[simp] theorem holdPulse_pins (s : State) : (holdPulse s).pins = s.pins := rfl
@[simp] theorem holdPulse_chain (s : State) : (holdPulse s).chain = s.chain := rfl
@[simp] theorem holdPulse_adc (s : State) : (holdPulse s).adc = s.adc := rfl
@[simp] theorem holdPulse_host (s : State) : (holdPulse s).host = s.host := rfl
@[simp] theorem holdPulse_draws (s : State) : (holdPulse s).draws = s.draws := rfl
@[simp] theorem holdPulse_log (s : State) : (holdPulse s).log = s.log ++ [.hold s.cfg.val.pulseTicks] := rfl

/-! ### countBit -/

@[simp] theorem countBit_cfg (s : State) : (countBit s).cfg = s.cfg := rfl
@[simp] theorem countBit_data (s : State) :
    (countBit s).data = { s.data with frcnt := frcntSucc s.data.frcnt } := rfl
@[simp] theorem countBit_seq (s : State) : (countBit s).seq = s.seq := rfl
@[simp] theorem countBit_status (s : State) : (countBit s).status = s.status := rfl
@[simp] theorem countBit_pins (s : State) : (countBit s).pins = s.pins := rfl
@[simp] theorem countBit_chain (s : State) : (countBit s).chain = s.chain := rfl
@[simp] theorem countBit_adc (s : State) : (countBit s).adc = s.adc := rfl
@[simp] theorem countBit_host (s : State) : (countBit s).host = s.host := rfl
@[simp] theorem countBit_draws (s : State) : (countBit s).draws = s.draws := rfl
@[simp] theorem countBit_log (s : State) : (countBit s).log = s.log := rfl

/-! ### clearCount -/

@[simp] theorem clearCount_cfg (s : State) : (clearCount s).cfg = s.cfg := rfl
@[simp] theorem clearCount_data (s : State) : (clearCount s).data = { s.data with frcnt := 0 } := rfl
@[simp] theorem clearCount_seq (s : State) : (clearCount s).seq = s.seq := rfl
@[simp] theorem clearCount_status (s : State) : (clearCount s).status = s.status := rfl
@[simp] theorem clearCount_pins (s : State) : (clearCount s).pins = s.pins := rfl
@[simp] theorem clearCount_chain (s : State) : (clearCount s).chain = s.chain := rfl
@[simp] theorem clearCount_adc (s : State) : (clearCount s).adc = s.adc := rfl
@[simp] theorem clearCount_host (s : State) : (clearCount s).host = s.host := rfl
@[simp] theorem clearCount_draws (s : State) : (clearCount s).draws = s.draws := rfl
@[simp] theorem clearCount_log (s : State) : (clearCount s).log = s.log := rfl

/-! ### selectByte -/

@[simp] theorem selectByte_cfg (i : BitVec 2) (s : State) : (selectByte i s).cfg = s.cfg := rfl
@[simp] theorem selectByte_data (i : BitVec 2) (s : State) : (selectByte i s).data = s.data := rfl
@[simp] theorem selectByte_seq (i : BitVec 2) (s : State) :
    (selectByte i s).seq = { s.seq with byteix := i } := rfl
@[simp] theorem selectByte_status (i : BitVec 2) (s : State) : (selectByte i s).status = s.status := rfl
@[simp] theorem selectByte_pins (i : BitVec 2) (s : State) : (selectByte i s).pins = s.pins := rfl
@[simp] theorem selectByte_chain (i : BitVec 2) (s : State) : (selectByte i s).chain = s.chain := rfl
@[simp] theorem selectByte_adc (i : BitVec 2) (s : State) : (selectByte i s).adc = s.adc := rfl
@[simp] theorem selectByte_host (i : BitVec 2) (s : State) : (selectByte i s).host = s.host := rfl
@[simp] theorem selectByte_draws (i : BitVec 2) (s : State) : (selectByte i s).draws = s.draws := rfl
@[simp] theorem selectByte_log (i : BitVec 2) (s : State) : (selectByte i s).log = s.log := rfl

/-! ### enterTimed -/

@[simp] theorem enterTimed_cfg (st : SeqState) (n : Nat) (s : State) : (enterTimed st n s).cfg = s.cfg := rfl
@[simp] theorem enterTimed_data (st : SeqState) (n : Nat) (s : State) :
    (enterTimed st n s).data = s.data := rfl
@[simp] theorem enterTimed_seq (st : SeqState) (n : Nat) (s : State) :
    (enterTimed st n s).seq = { s.seq with st := st, tmr := n } := rfl
@[simp] theorem enterTimed_status (st : SeqState) (n : Nat) (s : State) :
    (enterTimed st n s).status = s.status := rfl
@[simp] theorem enterTimed_pins (st : SeqState) (n : Nat) (s : State) :
    (enterTimed st n s).pins = s.pins := rfl
@[simp] theorem enterTimed_chain (st : SeqState) (n : Nat) (s : State) :
    (enterTimed st n s).chain = s.chain := rfl
@[simp] theorem enterTimed_adc (st : SeqState) (n : Nat) (s : State) : (enterTimed st n s).adc = s.adc := rfl
@[simp] theorem enterTimed_host (st : SeqState) (n : Nat) (s : State) :
    (enterTimed st n s).host = s.host := rfl
@[simp] theorem enterTimed_draws (st : SeqState) (n : Nat) (s : State) :
    (enterTimed st n s).draws = s.draws := rfl
@[simp] theorem enterTimed_log (st : SeqState) (n : Nat) (s : State) : (enterTimed st n s).log = s.log := rfl

/-! ### finishTimed -/

@[simp] theorem finishTimed_cfg (s : State) : (finishTimed s).cfg = s.cfg := rfl
@[simp] theorem finishTimed_data (s : State) : (finishTimed s).data = s.data := rfl
@[simp] theorem finishTimed_seq (s : State) :
    (finishTimed s).seq = { s.seq with bitix := 0, byteix := 0, tmr := 0, st := .idle, donef := true } := rfl
@[simp] theorem finishTimed_status (s : State) : (finishTimed s).status = clearBit 0 s.status := rfl
@[simp] theorem finishTimed_pins (s : State) : (finishTimed s).pins = s.pins := rfl
@[simp] theorem finishTimed_chain (s : State) : (finishTimed s).chain = s.chain := rfl
@[simp] theorem finishTimed_adc (s : State) : (finishTimed s).adc = s.adc := rfl
@[simp] theorem finishTimed_host (s : State) : (finishTimed s).host = s.host := rfl
@[simp] theorem finishTimed_draws (s : State) : (finishTimed s).draws = s.draws := rfl
@[simp] theorem finishTimed_log (s : State) : (finishTimed s).log = s.log := rfl

/-! ### withHost -/

@[simp] theorem withHost_cfg (rest : List HostAction) (s : State) : (withHost rest s).cfg = s.cfg := rfl
@[simp] theorem withHost_data (rest : List HostAction) (s : State) : (withHost rest s).data = s.data := rfl
@[simp] theorem withHost_seq (rest : List HostAction) (s : State) : (withHost rest s).seq = s.seq := rfl
@[simp] theorem withHost_status (rest : List HostAction) (s : State) :
    (withHost rest s).status = s.status := rfl
@[simp] theorem withHost_pins (rest : List HostAction) (s : State) : (withHost rest s).pins = s.pins := rfl
@[simp] theorem withHost_chain (rest : List HostAction) (s : State) : (withHost rest s).chain = s.chain := rfl
@[simp] theorem withHost_adc (rest : List HostAction) (s : State) : (withHost rest s).adc = s.adc := rfl
@[simp] theorem withHost_host (rest : List HostAction) (s : State) : (withHost rest s).host = rest := rfl
@[simp] theorem withHost_draws (rest : List HostAction) (s : State) : (withHost rest s).draws = s.draws := rfl
@[simp] theorem withHost_log (rest : List HostAction) (s : State) : (withHost rest s).log = s.log := rfl

/-! ### raiseErrorIf: one of two states -/

/-- A raise that does not happen changes nothing. -/
@[simp] theorem raiseErrorIf_false (e : ErrorFlag) (s : State) : raiseErrorIf false e s = s := rfl

/-- A raise that happens is `raiseError`. -/
@[simp] theorem raiseErrorIf_true (e : ErrorFlag) (s : State) : raiseErrorIf true e s = raiseError e s := rfl

@[simp] theorem raiseErrorIf_cfg (c : Bool) (e : ErrorFlag) (s : State) : (raiseErrorIf c e s).cfg = s.cfg := by
  cases c <;> rfl
@[simp] theorem raiseErrorIf_data (c : Bool) (e : ErrorFlag) (s : State) : (raiseErrorIf c e s).data = s.data := by
  cases c <;> rfl
@[simp] theorem raiseErrorIf_seq (c : Bool) (e : ErrorFlag) (s : State) : (raiseErrorIf c e s).seq = s.seq := by
  cases c <;> rfl
@[simp] theorem raiseErrorIf_status (c : Bool) (e : ErrorFlag) (s : State) :
    (raiseErrorIf c e s).status = if c then setBit e.bit s.status else s.status := by cases c <;> rfl
@[simp] theorem raiseErrorIf_pins (c : Bool) (e : ErrorFlag) (s : State) : (raiseErrorIf c e s).pins = s.pins := by
  cases c <;> rfl
@[simp] theorem raiseErrorIf_chain (c : Bool) (e : ErrorFlag) (s : State) : (raiseErrorIf c e s).chain = s.chain := by
  cases c <;> rfl
@[simp] theorem raiseErrorIf_adc (c : Bool) (e : ErrorFlag) (s : State) : (raiseErrorIf c e s).adc = s.adc := by
  cases c <;> rfl
@[simp] theorem raiseErrorIf_host (c : Bool) (e : ErrorFlag) (s : State) : (raiseErrorIf c e s).host = s.host := by
  cases c <;> rfl
@[simp] theorem raiseErrorIf_draws (c : Bool) (e : ErrorFlag) (s : State) : (raiseErrorIf c e s).draws = s.draws := by
  cases c <;> rfl
@[simp] theorem raiseErrorIf_log (c : Bool) (e : ErrorFlag) (s : State) : (raiseErrorIf c e s).log = s.log := by
  cases c <;> rfl

end Sys2Proof.Machine
end

