-- ==== Sys2Proof/Laws/Flags.lean ====
section
/-! SUPPORT. What setting and clearing a bit of `STATUS` does to every bit. -/

namespace Sys2Proof.Machine

/-- Every bit of a status word after bit `i` was set. -/
theorem getLsbD_setBit (i j : Nat) (st : BitVec 8) :
    (setBit i st).getLsbD j = (st.getLsbD j || (decide (i < 8) && decide (i = j))) := by
  simp only [setBit, BitVec.getLsbD_or, BitVec.getLsbD_twoPow]

/-- Every bit of a status word after bit `i` was cleared. -/
theorem getLsbD_clearBit (i j : Nat) (st : BitVec 8) :
    (clearBit i st).getLsbD j = (st.getLsbD j && !(decide (i = j))) := by
  simp only [clearBit, BitVec.getLsbD_and, BitVec.getLsbD_not, BitVec.getLsbD_twoPow]
  by_cases h8 : j < 8
  · by_cases hij : i = j
    · subst hij; simp [h8]
    · simp [h8, hij]
  · simp [BitVec.getLsbD_of_ge st j (by omega)]

/-- A set bit is 1. -/
theorem getLsbD_setBit_self (i : Nat) (h : i < 8) (st : BitVec 8) : (setBit i st).getLsbD i = true := by
  simp [getLsbD_setBit, h]

/-- Setting a bit leaves the others. -/
theorem getLsbD_setBit_ne {i j : Nat} (h : i ≠ j) (st : BitVec 8) :
    (setBit i st).getLsbD j = st.getLsbD j := by
  simp [getLsbD_setBit, h]

/-- A cleared bit is 0. -/
theorem getLsbD_clearBit_self (i : Nat) (st : BitVec 8) : (clearBit i st).getLsbD i = false := by
  simp [getLsbD_clearBit]

/-- Clearing a bit leaves the others. -/
theorem getLsbD_clearBit_ne {i j : Nat} (h : i ≠ j) (st : BitVec 8) :
    (clearBit i st).getLsbD j = st.getLsbD j := by
  simp [getLsbD_clearBit, h]

/-- Every error has a bit of its own between 2 and 5. -/
theorem ErrorFlag.bit_range (e : ErrorFlag) : 2 ≤ e.bit ∧ e.bit ≤ 5 := by cases e <;> decide

/-- Two errors with one bit are one error. -/
theorem ErrorFlag.bit_inj {e e' : ErrorFlag} (h : e.bit = e'.bit) : e = e' := by
  cases e <;> cases e' <;> simp_all [ErrorFlag.bit]

/-- `SKIP` set or cleared, bit by bit. -/
theorem getLsbD_setSkip (b : Bool) (j : Nat) (s : State) :
    (setSkip b s).status.getLsbD j = if j = 1 then b else s.status.getLsbD j := by
  cases b
  · by_cases h : j = 1
    · subst h; exact getLsbD_clearBit_self 1 s.status
    · simp [getLsbD_clearBit_ne (Ne.symm h), h]
  · by_cases h : j = 1
    · subst h; exact getLsbD_setBit_self 1 (by decide) s.status
    · simp [getLsbD_setBit_ne (Ne.symm h), h]

/-- A raise, bit by bit. -/
theorem getLsbD_raiseErrorIf (c : Bool) (e : ErrorFlag) (j : Nat) (s : State) :
    (raiseErrorIf c e s).status.getLsbD j = (s.status.getLsbD j || (c && decide (e.bit = j))) := by
  have := e.bit_range
  cases c
  · simp
  · simp [getLsbD_setBit, show e.bit < 8 by omega]

end Sys2Proof.Machine
end

