-- ==== Sys2Proof/Laws/Memory.lean ====
section
/-! SUPPORT. The segment ROM of a legal unit: its canonical form, and which addresses have a byte. No
operation writes it, so no operation can break the form. -/

namespace Sys2Proof.Machine

/-- The ROM of a legal unit is in canonical form: addresses strictly rising. -/
theorem segRom_wf (c : LegalConfig) : Memory.wf c.val.segRom = true := by
  have h := (c.val.legal_iff.mp c.ok).2.2.2.2.2.2.2.1
  simp only [Memory.wf, h]
  decide

/-- A listed address has a byte, an unlisted one has none. -/
theorem read_isSome (m : List Host.Cell) (a : Nat) :
    (Memory.read m a).isSome = true ↔ a ∈ m.map Prod.fst := by
  induction m with
  | nil => simp [Memory.read]
  | cons c rest ih =>
    by_cases h : c.1 = a
    · simp [Memory.read, h]
    · simp only [Memory.read, h, if_false, ih, List.map_cons, List.mem_cons]
      simp [Ne.symm h]

/-- What a read answers is listed. -/
theorem mem_of_read {m : List Host.Cell} {a : Nat} {b : Byte} (h : Memory.read m a = some b) : (a, b) ∈ m := by
  induction m with
  | nil => simp [Memory.read] at h
  | cons c rest ih =>
    by_cases hc : c.1 = a
    · simp [Memory.read, hc] at h
      exact List.mem_cons.mpr (.inl (by rw [← h, ← hc]))
    · simp only [Memory.read, hc, if_false] at h
      exact List.mem_cons_of_mem _ (ih h)

/-- The address of a cell, as a number. -/
theorem romAddr_eq (p : Position) (v : Digit) : romAddr p v = 16 * p.toNat + v.toNat := by
  simp only [romAddr, BitVec.toNat_append]
  have := v.isLt
  rw [Nat.shiftLeft_eq, ← Nat.mul_comm 16, ← Nat.two_pow_add_eq_or_of_lt (i := 4) this]

/-- The addresses of a legal ROM. -/
theorem segRom_addrs (c : LegalConfig) : c.val.segRom.map Prod.fst = romAddrs :=
  (c.val.legal_iff.mp c.ok).2.2.2.2.2.2.2.1

/-- A cell of the table has a byte (20_memory.md R33). -/
theorem romRead_inRange (c : LegalConfig) (p : Position) (v : Digit) (hp : p.toNat ≤ 2) (hv : v.toNat ≤ 9) :
    ∃ b, Memory.read c.val.segRom (16 * p.toNat + v.toNat) = some b ∧ romRead c p v = some b := by
  have h : (Memory.read c.val.segRom (16 * p.toNat + v.toNat)).isSome = true := by
    rw [read_isSome, segRom_addrs]
    interval_cases p.toNat <;> interval_cases v.toNat <;> decide
  obtain ⟨b, hb⟩ := Option.isSome_iff_exists.mp h
  exact ⟨b, hb, by rw [romRead, romAddr_eq, hb]⟩

/-- A hole has no byte (20_memory.md R35). -/
theorem romRead_hole (c : LegalConfig) (p : Position) (v : Digit) (h : 2 < p.toNat ∨ 9 < v.toNat) :
    romRead c p v = none := by
  rw [← Option.not_isSome_iff_eq_none, romRead, romAddr_eq, read_isSome, segRom_addrs]
  have hp := p.isLt
  have hv := v.isLt
  interval_cases p.toNat <;> interval_cases v.toNat <;> first | omega | decide

/-- The position-and-value check says which cells exist. -/
theorem segInRange_iff (p : Position) (v : Digit) :
    segInRange p v = true ↔ p.toNat ≤ 2 ∧ v.toNat ≤ 9 := by
  simp [segInRange]

end Sys2Proof.Machine
end

