-- ==== Sys2Proof/Laws/Ops.lean ====
section
/-! SUPPORT. For each shared operation, once, everything it does. Proofs cite these and do not unfold the
operations. -/

namespace Sys2Proof.Machine

/-! ### The trace -/

/-- The events of a log that grew are the events before and the events added. -/
theorem trace_of_log {s t : State} {added : List LogEntry} (h : t.log = s.log ++ added) :
    t.trace = s.trace ++ added.filterMap LogEntry.event? := by
  simp [State.trace, h]

/-! ### The start and the end of an operation -/

/-- Every operation that runs to its end completes. -/
theorem completed_finish (w : CmdWord) (s : State) (h : s.seq.cmdr = w) : Completed w (finish s) := by
  refine ⟨rfl, rfl, ?_, h⟩
  exact getLsbD_clearBit_self 0 s.status

/-- The status after acceptance and end differs from the one before in `BUSY` only. -/
theorem statusKept_operation (w : CmdWord) (s t : State) (bits : List Nat)
    (h : ∀ j, j ≠ 0 → j ∉ bits → t.status.getLsbD j = (accept w s).status.getLsbD j) :
    StatusKept bits s (finish t) := by
  intro j h0 hj
  rw [finish_status, getLsbD_clearBit_ne (Ne.symm h0), h j h0 hj, accept_status,
    getLsbD_setBit_ne (Ne.symm h0)]

/-- Nothing outside is touched when the configuration and the host's plans are not. -/
theorem unitKept_of (s t : State) (hc : t.cfg = s.cfg) (hh : t.host = s.host) : UnitKept s t :=
  ⟨hc, hh, fun a => by rw [hc]⟩

/-! ### SegmentEncoder -/

/-- `enc` inside the table: the table byte with the point, and the state as it was. -/
theorem enc_inRange (p : Position) (v : Digit) (dp : Bool) (s : State) (hp : p.toNat ≤ 2) (hv : v.toNat ≤ 9) :
    ∃ b, Memory.read s.cfg.val.segRom (16 * p.toNat + v.toNat) = some b ∧
      enc p v dp s = (withPoint dp b, s) := by
  obtain ⟨b, h1, h2⟩ := romRead_inRange s.cfg p v hp hv
  exact ⟨b, h1, by simp [enc, h2]⟩

/-- `enc` at a hole: the next free byte, and one more draw. -/
theorem enc_hole (p : Position) (v : Digit) (dp : Bool) (s : State) (h : 2 < p.toNat ∨ 9 < v.toNat) :
    enc p v dp s = (Config.freeByte s.draws, { s with draws := s.draws + 1 }) := by
  simp [enc, romRead_hole s.cfg p v h, drawByte]

/-- Whatever its arguments, `enc` changes the count of draws at most. -/
theorem enc_state (p : Position) (v : Digit) (dp : Bool) (s : State) :
    ∃ n, (enc p v dp s).2 = { s with draws := n } := by
  unfold enc
  split
  · exact ⟨s.draws, rfl⟩
  · exact ⟨s.draws + 1, rfl⟩

/-- A pattern with the point is not 0x00 and has bit 6 set. -/
theorem withPoint_true (b : Byte) :
    withPoint true b = b ||| 0x40 ∧ (withPoint true b).getLsbD 6 = true ∧ withPoint true b ≠ 0 := by
  have h6 : (withPoint true b).getLsbD 6 = true := by
    simp only [withPoint, Config.dpBit, if_true, BitVec.getLsbD_or, BitVec.getLsbD_twoPow]
    decide +revert
  refine ⟨rfl, h6, ?_⟩
  intro h
  rw [h] at h6
  exact absurd h6 (by decide)

/-! ### ShiftRegisterBus -/

/-- The log of one bit cell (44_shift_register_bus.md R78). -/
def cellLog (P : Nat) (b : Bool) : List LogEntry :=
  [.ev (.data b), .hold P, .ev .clkRise, .hold P, .ev .clkFall]

/-- The log of one byte (44_shift_register_bus.md R80). -/
def byteLog (P : Nat) (x : Byte) : List LogEntry := (msbFirst x).flatMap (cellLog P)

/-- The events of a byte. -/
theorem byteLog_events (P : Nat) (x : Byte) :
    (byteLog P x).filterMap LogEntry.event? = byteTrace x := by
  rfl

/-- Everything one bit cell does. -/
theorem pushBit_eq (b : Bool) (s : State) :
    pushBit b s = { s with
      data.frcnt := frcntSucc s.data.frcnt
      pins.srData := b
      pins.srClk := false
      chain.sh := s.chain.sh.shiftConcat b
      log := s.log ++ cellLog s.cfg.val.pulseTicks b } := by
  simp [pushBit, countBit, dropClk, holdPulse, raiseClk, driveData, emit, hold, cellLog]

/-- The count after one bit, as a number. -/
theorem frcntSucc_toNat (f : BitVec 5) : (frcntSucc f).toNat = min (f.toNat + 1) 31 := by
  simp only [frcntSucc, BitVec.toNat_ofNat]
  omega

/-- Eight bits shifted into a stage, most significant first, stand in its low byte. -/
theorem shift_byte (sh : Stage) (x : Byte) :
    (msbFirst x).foldl BitVec.shiftConcat sh = sh.extractLsb' 0 16 ++ x := by
  apply BitVec.eq_of_getLsbD_eq
  intro i hi
  simp only [msbFirst, List.map_cons, List.map_nil, List.foldl_cons, List.foldl_nil,
    BitVec.getLsbD_shiftConcat, BitVec.getLsbD_append, BitVec.getLsbD_extractLsb']
  interval_cases i <;> simp

/-- One turn of the loop of `push_byte`. -/
theorem pushTop_eq (s : State) :
    pushTop s = { s with
      data.frcnt := frcntSucc s.data.frcnt
      seq.shr := s.seq.shr.shiftConcat false
      seq.bitix := s.seq.bitix - 1
      pins.srData := s.seq.shr.msb
      pins.srClk := false
      chain.sh := s.chain.sh.shiftConcat s.seq.shr.msb
      log := s.log ++ cellLog s.cfg.val.pulseTicks s.seq.shr.msb } := by
  simp only [pushTop, pushBit_eq]

/-- The top bits of a byte as it is shifted left eight times are its bits, most significant first. -/
theorem msb_of_shifts : ∀ x : Byte,
    x.msb = x.getLsbD 7 ∧ (x.shiftConcat false).msb = x.getLsbD 6 ∧
    ((x.shiftConcat false).shiftConcat false).msb = x.getLsbD 5 ∧
    (((x.shiftConcat false).shiftConcat false).shiftConcat false).msb = x.getLsbD 4 ∧
    ((((x.shiftConcat false).shiftConcat false).shiftConcat false).shiftConcat false).msb = x.getLsbD 3 ∧
    (((((x.shiftConcat false).shiftConcat false).shiftConcat false).shiftConcat false).shiftConcat
      false).msb = x.getLsbD 2 ∧
    ((((((x.shiftConcat false).shiftConcat false).shiftConcat false).shiftConcat false).shiftConcat
      false).shiftConcat false).msb = x.getLsbD 1 ∧
    (((((((x.shiftConcat false).shiftConcat false).shiftConcat false).shiftConcat false).shiftConcat
      false).shiftConcat false).shiftConcat false).msb = x.getLsbD 0 ∧
    ((((((((x.shiftConcat false).shiftConcat false).shiftConcat false).shiftConcat false).shiftConcat
      false).shiftConcat false).shiftConcat false).shiftConcat false) = 0 := by
  decide +kernel

/-- Everything `push_byte` does (44_shift_register_bus.md R80). -/
theorem pushByte_eq (x : Byte) (s : State) :
    pushByte x s = { s with
      data.frcnt := BitVec.ofNat 5 (min (s.data.frcnt.toNat + 8) 31)
      seq.shr := 0
      seq.bitix := 0
      pins.srData := x.getLsbD 0
      pins.srClk := false
      chain.sh := s.chain.sh.extractLsb' 0 16 ++ x
      log := s.log ++ byteLog s.cfg.val.pulseTicks x } := by
  obtain ⟨h7, h6, h5, h4, h3, h2, h1, h0, hz⟩ := msb_of_shifts x
  have hf : ∀ f : BitVec 5, frcntSucc (frcntSucc (frcntSucc (frcntSucc (frcntSucc (frcntSucc (frcntSucc
      (frcntSucc f))))))) = BitVec.ofNat 5 (min (f.toNat + 8) 31) := by
    intro f
    apply BitVec.eq_of_toNat_eq
    simp only [frcntSucc_toNat, BitVec.toNat_ofNat]
    omega
  rw [← shift_byte]
  simp only [pushByte, pushLoop, pushTop_eq, h7, h6, h5, h4, h3, h2, h1, h0, hz, hf]
  simp only [byteLog, msbFirst, List.map_cons, List.map_nil, List.flatMap_cons, List.flatMap_nil,
    List.foldl_cons, List.foldl_nil, List.append_assoc, List.append_nil]
  rfl

/-- Everything `latch()` does (44_shift_register_bus.md R82). -/
theorem latchPulse_eq (s : State) :
    latchPulse s = { s with
      data.frcnt := 0
      pins.srLatch := false
      chain.disp := s.chain.sh
      log := s.log ++ [.hold s.cfg.val.pulseTicks, .ev .latchRise, .hold s.cfg.val.pulseTicks,
        .ev .latchFall] } := by
  simp [latchPulse, clearCount, dropLatch, holdPulse, raiseLatch, emit, hold]

/-! ### TemperatureConverter -/

/-- `TEMP` holds the exact difference (10_state.md R14): it always fits. -/
theorem temp_exact (c : LegalConfig) (v : Millivolts) :
    (BitVec.ofInt 16 (temperatureOf v c.val.offsetMv)).toInt = (v.toNat : Int) - c.val.offsetMv := by
  have h := (c.val.legal_iff.mp c.ok).2.2.1
  have hv := v.isLt
  rw [BitVec.toInt_ofInt, temperatureOf, Int.bmod_eq_of_le] <;> omega

/-- Everything `to_digits` does inside the domain (43_temperature_converter.md R73). -/
theorem toDigits_inDomain (v : Millivolts) (s : State) (h1 : s.cfg.val.offsetMv ≤ v.toNat)
    (h2 : v.toNat ≤ s.cfg.val.offsetMv + 999) :
    toDigits v s = writeDigits (v.toNat - s.cfg.val.offsetMv)
      { s with data.temp := BitVec.ofInt 16 (temperatureOf v s.cfg.val.offsetMv) } := by
  have ht : 0 ≤ temperatureOf v s.cfg.val.offsetMv ∧ temperatureOf v s.cfg.val.offsetMv ≤ 999 := by
    simp only [temperatureOf]; omega
  have hn : (temperatureOf v s.cfg.val.offsetMv).toNat = v.toNat - s.cfg.val.offsetMv := by
    simp only [temperatureOf]; omega
  simp only [toDigits, ht, and_self, if_true, hn]

/-- Everything `to_digits` does outside the domain (43_temperature_converter.md R76). -/
theorem toDigits_outOfDomain (v : Millivolts) (s : State)
    (h : v.toNat < s.cfg.val.offsetMv ∨ s.cfg.val.offsetMv + 999 < v.toNat) :
    toDigits v s = drawDigits (raiseError .range
      { s with data.temp := BitVec.ofInt 16 (temperatureOf v s.cfg.val.offsetMv) }) := by
  have ht : ¬ (0 ≤ temperatureOf v s.cfg.val.offsetMv ∧ temperatureOf v s.cfg.val.offsetMv ≤ 999) := by
    simp only [temperatureOf]; omega
  simp only [toDigits, ht, if_false]

/-- What `to_digits` can change: `TEMP`, the digits, the status and the count of draws. -/
theorem toDigits_state (v : Millivolts) (s : State) :
    ∃ a b c n st, toDigits v s = { s with
      data.temp := BitVec.ofInt 16 (temperatureOf v s.cfg.val.offsetMv)
      data.tens := a, data.ones := b, data.tenths := c, draws := n, status := st } ∧
      (st = s.status ∨ st = setBit 4 s.status) := by
  unfold toDigits
  dsimp only
  split
  · exact ⟨_, _, _, _, _, rfl, .inl rfl⟩
  · exact ⟨_, _, _, _, _, rfl, .inr rfl⟩

/-! ### DisplayController -/

/-- The three lookups of a frame, from any state: what they answer and what they change. -/
theorem three_enc (t o h : Digit) (s : State) :
    ∃ n, (enc 2 t false (enc 1 o true (enc 0 h false s).2).2).2 = { s with draws := n } ∧
      (h.toNat ≤ 9 → Memory.read s.cfg.val.segRom h.toNat = some (enc 0 h false s).1) ∧
      (o.toNat ≤ 9 → ∃ b, Memory.read s.cfg.val.segRom (16 + o.toNat) = some b ∧
        (enc 1 o true (enc 0 h false s).2).1 = b ||| 0x40) ∧
      (t.toNat ≤ 9 → Memory.read s.cfg.val.segRom (32 + t.toNat) =
        some (enc 2 t false (enc 1 o true (enc 0 h false s).2).2).1) := by
  obtain ⟨n0, e0⟩ := enc_state 0 h false s
  obtain ⟨n1, e1⟩ := enc_state 1 o true (enc 0 h false s).2
  obtain ⟨n2, e2⟩ := enc_state 2 t false (enc 1 o true (enc 0 h false s).2).2
  refine ⟨n2, by rw [e2, e1, e0], fun hh => ?_, fun ho => ?_, fun ht => ?_⟩
  · obtain ⟨b, hb, he⟩ := enc_inRange 0 h false s (by decide) hh
    rw [he]
    simpa [withPoint] using hb
  · obtain ⟨b, hb, he⟩ := enc_inRange 1 o true (enc 0 h false s).2 (by decide) ho
    refine ⟨b, ?_, by rw [he]; exact (withPoint_true b).1⟩
    rw [e0] at hb
    simpa using hb
  · obtain ⟨b, hb, he⟩ := enc_inRange 2 t false (enc 1 o true (enc 0 h false s).2).2 (by decide) ht
    rw [he]
    rw [e1, e0] at hb
    simpa [withPoint] using hb

/-- What the encoding step can change: the three patterns, `ERR_ARG` and the count of draws. -/
theorem encodeFrame_state (t o h : Digit) (s : State) :
    ∃ b0 b1 b2 n, encodeFrame t o h s = { s with
      data.p0 := b0, data.p1 := b1, data.p2 := b2, draws := n
      status := if digitTooBig t || digitTooBig o || digitTooBig h then setBit 3 s.status else s.status } ∧
      (h.toNat ≤ 9 → Memory.read s.cfg.val.segRom h.toNat = some b0) ∧
      (o.toNat ≤ 9 → ∃ b, Memory.read s.cfg.val.segRom (16 + o.toNat) = some b ∧ b1 = b ||| 0x40) ∧
      (t.toNat ≤ 9 → Memory.read s.cfg.val.segRom (32 + t.toNat) = some b2) := by
  obtain ⟨n, e, hh, ho, ht⟩ :=
    three_enc t o h (raiseErrorIf (digitTooBig t || digitTooBig o || digitTooBig h) .arg s)
  have hc : (raiseErrorIf (digitTooBig t || digitTooBig o || digitTooBig h) .arg s).cfg = s.cfg := by simp
  rw [hc] at hh ho ht
  refine ⟨_, _, _, n, ?_, hh, ho, ht⟩
  unfold encodeFrame
  dsimp only
  rw [e]
  cases digitTooBig t || digitTooBig o || digitTooBig h <;> rfl

/-- The log of a whole frame (45_display_controller.md R86). -/
def frameLog (P : Nat) (p0 p1 p2 : Byte) : List LogEntry :=
  byteLog P p0 ++ byteLog P p1 ++ byteLog P p2 ++
    [.ev (.data false), .hold P, .ev .latchRise, .hold P, .ev .latchFall]

/-- The events of a frame. -/
theorem frameLog_events (P : Nat) (p0 p1 p2 : Byte) :
    (frameLog P p0 p1 p2).filterMap LogEntry.event? = frameTrace p0 p1 p2 := rfl

/-- Three bytes one after another fill the shift stage. -/
theorem three_bytes (sh : Stage) (a b c : Byte) :
    (((sh.extractLsb' 0 16 ++ a : Stage).extractLsb' 0 16 ++ b : Stage).extractLsb' 0 16 ++ c : Stage) =
      a ++ b ++ c := by
  apply BitVec.eq_of_getLsbD_eq
  intro i hi
  simp only [BitVec.getLsbD_append, BitVec.getLsbD_extractLsb']
  interval_cases i <;> simp

/-- Everything the push and the latch of a frame do (45_display_controller.md R89, R90). -/
theorem sendFrame_eq (s : State) :
    sendFrame s = { s with
      data.frcnt := 0
      seq.shr := 0
      seq.bitix := 0
      seq.byteix := 0
      pins.srData := false
      pins.srClk := false
      pins.srLatch := false
      chain := ⟨s.data.p0 ++ s.data.p1 ++ s.data.p2, s.data.p0 ++ s.data.p1 ++ s.data.p2⟩
      log := s.log ++ frameLog s.cfg.val.pulseTicks s.data.p0 s.data.p1 s.data.p2 } := by
  simp only [sendFrame, pushFrameByte, pushByte_eq, latchPulse_eq, driveData, emit, selectByte, frameByte,
    if_true, show ((1 : BitVec 2) = 0) = False by decide, show ((2 : BitVec 2) = 0) = False by decide,
    show ((2 : BitVec 2) = 1) = False by decide, if_false, three_bytes, frameLog, List.append_assoc]
  rfl

/-- A suppressed update: `SKIP` is set after the encoding step and nothing else happens
(45_display_controller.md R88). -/
theorem showBody_suppressed {t o h : Digit} {s : State} (hs : sentinel (encodeFrame t o h s) = true) :
    showBody t o h s = setSkip true (encodeFrame t o h s) := by
  simp [showBody, hs]

/-- An update that is not suppressed: `SKIP` is cleared and the frame is sent (45_display_controller.md R88). -/
theorem showBody_shown {t o h : Digit} {s : State} (hs : sentinel (encodeFrame t o h s) = false) :
    showBody t o h s = sendFrame (clearCount (setSkip false (encodeFrame t o h s))) := by
  simp [showBody, hs]

/-- With the ones digit in range the sentinel never fires (45_display_controller.md R92 item 1). -/
theorem sentinel_encodeFrame {t o h : Digit} {s : State} (ho : o.toNat ≤ 9) :
    sentinel (encodeFrame t o h s) = false := by
  obtain ⟨b0, b1, b2, n, e, -, h1, -⟩ := encodeFrame_state t o h s
  obtain ⟨b, -, rfl⟩ := h1 ho
  have hb : (b ||| 0x40 : Byte) ≠ 0 := by
    rw [← (withPoint_true b).1]
    exact (withPoint_true b).2.2
  rw [sentinel, e]
  simp only [beq_false_of_ne hb, Bool.and_false, Bool.false_and]

/-! ### Reset -/

/-- The state of CORE after a reset, whatever it was before (70_reset_and_hazards.md R115). -/
theorem resetCore_core (s : State) :
    (resetCore s).data = (State.resetWith s.cfg).data ∧ (resetCore s).seq = (State.resetWith s.cfg).seq ∧
    (resetCore s).status = 0 ∧ (resetCore s).pins = (State.resetWith s.cfg).pins ∧
    (resetCore s).cfg = s.cfg ∧ (resetCore s).adc = s.adc ∧ (resetCore s).host = s.host :=
  ⟨rfl, rfl, rfl, rfl, rfl, rfl, rfl⟩

/-- The ticks of a hold that have passed when `k` counts of it are over, `k` below its length. -/
theorem elapsedTicks_of_tmr {s : State} {k : Nat} (hk : k < holdTicks s.cfg s.seq.st)
    (ht : s.seq.tmr = holdTicks s.cfg s.seq.st - k) : elapsedTicks s = k + 1 := by
  rw [elapsedTicks, ht]
  omega

/-- Everything a reset adds to the log (00_scope.md R7, 70_reset_and_hazards.md R116). -/
theorem resetCore_log (s : State) : (resetCore s).log = s.log ++ cutHold s ++ resetEvents s.pins := rfl

/-- A reset never logs more ticks than the hold it ends has. -/
theorem elapsedTicks_le (s : State) : elapsedTicks s ≤ holdTicks s.cfg s.seq.st := Nat.min_le_left _ _

/-- What a reset does to the chain (70_reset_and_hazards.md R116). -/
theorem resetCore_chain (s : State) :
    (s.seq.st = .bHigh ∧ (resetCore s).chain = { s.chain with sh := Config.freeStage s.draws }) ∨
    (s.seq.st = .lHigh ∧ (resetCore s).chain = { s.chain with disp := Config.freeStage s.draws }) ∨
    (s.seq.st ≠ .bHigh ∧ s.seq.st ≠ .lHigh ∧ (resetCore s).chain = s.chain) := by
  show _ ∨ _ ∨ _
  unfold resetCore chainAtReset
  cases hst : s.seq.st <;> simp

end Sys2Proof.Machine
end

