-- ==== Sys2Proof/Laws/PerInstr.lean ====
section
/-! SUPPORT. Statements about every command, one lemma per constructor. -/

namespace Sys2Proof.Laws

namespace WellFormed

/-- Every command that can be written down is well formed (30_encoding.md R48): its operands have the
widths of the fields. -/
def Statement (i : Instr) : Prop := i.wellFormed = true

theorem nop : Statement .nop := rfl

theorem sample : Statement .sample := rfl

theorem convert (mv : Millivolts) : Statement (.convert mv) := decide_eq_true mv.isLt

theorem encode (p : Position) (dp : Bool) (val : Digit) : Statement (.encode p dp val) := by
  have hp := p.isLt
  have hv := val.isLt
  simp only [Statement, Instr.wellFormed, hp, hv, decide_true, Bool.and_self]

theorem pushbit (b : Bool) : Statement (.pushbit b) := rfl

theorem pushbyte (x : Byte) : Statement (.pushbyte x) := decide_eq_true x.isLt

theorem latch : Statement .latch := rfl

theorem showDigits (t o h : Digit) : Statement (.showDigits t o h) := by
  have ht := t.isLt
  have ho := o.isLt
  have hh := h.isLt
  simp only [Statement, Instr.wellFormed, ht, ho, hh, decide_true, Bool.and_self]

theorem cycle : Statement .cycle := rfl

end WellFormed

namespace Opcode

/-- The opcode of each command (30_encoding.md R50). -/
def opcode : Instr → Digit
  | .nop => 0
  | .sample => 1
  | .convert _ => 2
  | .encode _ _ _ => 3
  | .pushbit _ => 4
  | .pushbyte _ => 5
  | .latch => 6
  | .showDigits _ _ _ => 7
  | .cycle => 8

/-- The word of a command has its opcode in the high four bits (30_encoding.md R48, R50). -/
def Statement (i : Instr) : Prop := opcodeOf (encodeInstr i) = opcode i

/-- The high bits of a word that is put together from an opcode and a field. -/
theorem high_of_append (op : Digit) (f : BitVec 12) : (op ++ f : CmdWord).extractLsb' 12 4 = op := by
  apply BitVec.eq_of_getLsbD_eq
  intro i hi
  rw [BitVec.getLsbD_extractLsb', BitVec.getLsbD_append]
  simp [hi]

theorem nop : Statement .nop := rfl

theorem sample : Statement .sample := rfl

theorem convert (mv : Millivolts) : Statement (.convert mv) := high_of_append 2 mv

theorem encode (p : Position) (dp : Bool) (val : Digit) : Statement (.encode p dp val) := by
  revert p dp val
  unfold Statement
  decide +kernel

theorem pushbit (b : Bool) : Statement (.pushbit b) := by cases b <;> rfl

theorem pushbyte (x : Byte) : Statement (.pushbyte x) := by
  revert x
  unfold Statement
  decide +kernel

theorem latch : Statement .latch := rfl

theorem showDigits (t o h : Digit) : Statement (.showDigits t o h) := by
  revert t o h
  unfold Statement
  decide +kernel

theorem cycle : Statement .cycle := rfl

end Opcode

end Sys2Proof.Laws
end

