-- ==== Sys2Proof/Laws/Sampler.lean ====
section
/-! SUPPORT. Everything the averaging loop of AnalogSampler does, when the ADC answers and when it
stalls (42_analog_sampler.md). -/

namespace Sys2Proof.Machine

/-- The log of completed conversions (42_analog_sampler.md R64, R66). -/
def sampleLog (S : Nat) (cs : List Conversion) : List LogEntry :=
  cs.flatMap fun c => [.ev .adcStart, .hold 1, .ev (.adcDone c.result), .hold S, .ev .settle]

/-- The events of completed conversions. -/
theorem sampleLog_events (S : Nat) (cs : List Conversion) :
    (sampleLog S cs).filterMap LogEntry.event? = sampleTrace cs := by
  induction cs with
  | nil => rfl
  | cons c cs ih =>
    simp only [sampleLog, sampleTrace, List.flatMap_cons, List.filterMap_append] at ih ⊢
    rw [ih]
    rfl

/-- The ADC after `n` answers that all complete. -/
def adcAfter : Nat → Adc → Adc
  | 0, a => a
  | n + 1, a => adcAfter n (adcAnswered (nextAnswer a).1 (nextAnswer a).2)

/-- The sum of one more conversion. -/
theorem sampleSum_cons (c : Conversion) (cs : List Conversion) :
    sampleSum (c :: cs) = c.result.toNat + sampleSum cs := by
  simp [sampleSum]

/-- As many conversions as were asked for. -/
theorem nextConversions_length {n : Nat} {a : Adc} {cs : List Conversion}
    (h : nextConversions n a = some cs) : cs.length = n := by
  induction n generalizing a cs with
  | zero => simp only [nextConversions, Option.some.injEq] at h; simp [← h]
  | succ n ih =>
    simp only [nextConversions] at h
    split at h
    · obtain ⟨ds, hd, rfl⟩ := Option.map_eq_some_iff.mp h
      simp [ih hd]
    · cases h

/-- A sum of RawSamples is bounded by their number. -/
theorem sampleSum_le (cs : List Conversion) : sampleSum cs ≤ 1023 * cs.length := by
  induction cs with
  | nil => simp [sampleSum]
  | cons c cs ih =>
    have := c.result.isLt
    simp only [sampleSum_cons, List.length_cons]
    omega

/-- One conversion that completes. -/
theorem adcConvert_some {s : State} {c : Conversion} {a : Adc} (h : nextAnswer s.adc = (some c, a)) :
    adcConvert s = (some c.result, { s with
      pins.adcStart := false
      adc := adcAnswered (some c) a
      log := s.log ++ [.ev .adcStart, .hold 1] }) := by
  simp [adcConvert, dropTrigger, raiseTrigger, emit, hold, h]

/-- One conversion that never completes. -/
theorem adcConvert_none {s : State} {a : Adc} (h : nextAnswer s.adc = (none, a)) :
    adcConvert s = (none, { s with
      pins.adcStart := false
      adc := adcAnswered none a
      log := s.log ++ [.ev .adcStart, .hold 1] }) := by
  simp [adcConvert, dropTrigger, raiseTrigger, emit, hold, h]

/-- Everything `n` conversions do when they all complete. -/
theorem sampleLoop_live {n : Nat} {s : State} {cs : List Conversion}
    (h : nextConversions n s.adc = some cs) :
    sampleLoop n s = .completed { s with
      data.acc := s.data.acc + BitVec.ofNat 32 (sampleSum cs)
      data.cnt := s.data.cnt + BitVec.ofNat 16 n
      pins.adcStart := s.pins.adcStart && decide (n = 0)
      adc := adcAfter n s.adc
      log := s.log ++ sampleLog s.cfg.val.settleTicks cs } := by
  induction n generalizing s cs with
  | zero =>
    simp only [nextConversions, Option.some.injEq] at h
    simp [sampleLoop, ← h, sampleSum, sampleLog, adcAfter]
  | succ n ih =>
    simp only [nextConversions] at h
    split at h
    · rename_i c a hn
      obtain ⟨ds, hd, rfl⟩ := Option.map_eq_some_iff.mp h
      simp only [sampleLoop, adcConvert_some hn]
      rw [ih (cs := ds) (by simpa [settle, accumulate, emit, hold] using hd)]
      have hz : zext32 c.result = BitVec.ofNat 32 c.result.toNat := by
        apply BitVec.eq_of_toNat_eq
        simp [zext32]
      simp only [settle, accumulate, emit, hold, adcAfter, hn, sampleSum_cons, sampleLog, List.flatMap_cons, hz,
        List.append_assoc, BitVec.ofNat_add, BitVec.add_assoc, Bool.false_and, Nat.succ_ne_zero, decide_false,
        Bool.and_false, BitVec.add_comm (1 : BitVec 16)]
      simp
    · cases h

/-- Where the answers run out: the ADC has no answer to trigger `k`. -/
theorem nextAnswer_none {k : Nat} {a : Adc} {cs : List Conversion} (h1 : nextConversions k a = some cs)
    (h2 : nextConversions (k + 1) a = none) : (nextAnswer (adcAfter k a)).1 = none := by
  induction k generalizing a cs with
  | zero =>
    simp only [nextConversions] at h2
    simp only [adcAfter]
    split at h2
    · simp at h2
    · rename_i hn; rw [hn]
  | succ k ih =>
    rw [nextConversions] at h1 h2
    split at h1
    · rename_i c a' hn
      obtain ⟨ds, hd, rfl⟩ := Option.map_eq_some_iff.mp h1
      rw [hn] at h2
      rw [adcAfter, hn]
      exact ih hd (Option.map_eq_none_iff.mp h2)
    · cases h1

/-- A loop of `k + m` turns is a loop of `k` and then one of `m`, when the first `k` answers come. -/
theorem sampleLoop_add {k m : Nat} {s t : State} (h : sampleLoop k s = .completed t) :
    sampleLoop (k + m) s = sampleLoop m t := by
  induction k generalizing s with
  | zero =>
    simp only [sampleLoop, Phase.completed.injEq] at h
    rw [Nat.zero_add, h]
  | succ k ih =>
    rw [sampleLoop] at h
    rw [show k + 1 + m = (k + m) + 1 by omega, sampleLoop]
    split at h
    · exact ih h
    · cases h

/-- Everything the loop does when trigger `k` is never answered. -/
theorem sampleLoop_stalls {n k : Nat} {s : State} {cs : List Conversion} (hk : k < n)
    (h1 : nextConversions k s.adc = some cs) (h2 : nextConversions (k + 1) s.adc = none) :
    sampleLoop n s = .stalled { s with
      data.acc := s.data.acc + BitVec.ofNat 32 (sampleSum cs)
      data.cnt := s.data.cnt + BitVec.ofNat 16 k
      seq.st := .sWait
      pins.adcStart := false
      adc := adcAnswered none (nextAnswer (adcAfter k s.adc)).2
      log := s.log ++ sampleLog s.cfg.val.settleTicks cs ++ [.ev .adcStart, .hold 1] } := by
  obtain ⟨m, rfl⟩ := Nat.exists_eq_add_of_lt hk
  rw [Nat.add_assoc, sampleLoop_add (sampleLoop_live h1)]
  have hn := nextAnswer_none h1 h2
  simp only [sampleLoop]
  rw [adcConvert_none (a := (nextAnswer (adcAfter k s.adc)).2) (by rw [← hn])]

/-- Either every answer comes or there is a first one that does not. -/
theorem live_or_stalls (n : Nat) (a : Adc) :
    (∃ cs, nextConversions n a = some cs) ∨
      ∃ k cs, k < n ∧ nextConversions k a = some cs ∧ nextConversions (k + 1) a = none := by
  induction n with
  | zero => exact .inl ⟨[], rfl⟩
  | succ n ih =>
    obtain ⟨cs, h⟩ | ⟨k, cs, hk, h1, h2⟩ := ih
    · cases h' : nextConversions (n + 1) a with
      | some ds => exact .inl ⟨ds, rfl⟩
      | none => exact .inr ⟨n, cs, by omega, h, h'⟩
    · exact .inr ⟨k, cs, by omega, h1, h2⟩

/-- A number that fits, added to a cleared register. -/
theorem toNat_zero_add {w n : Nat} (h : n < 2 ^ w) : ((0 : BitVec w) + BitVec.ofNat w n).toNat = n := by
  simp [Nat.mod_eq_of_lt h]

/-- Everything `sample_voltage()` does when the ADC answers (42_analog_sampler.md R64 to R70). -/
theorem sampleVoltage_live {s : State} {cs : List Conversion} (h : AdcLive s cs) :
    ∃ t, sampleVoltage s = .completed t ∧
      t = { s with
        data.acc := t.data.acc, data.cnt := t.data.cnt, data.avg := t.data.avg, data.volt := t.data.volt
        pins.adcStart := false
        adc := adcAfter s.cfg.val.nSamples s.adc
        log := s.log ++ sampleLog s.cfg.val.settleTicks cs } ∧
      t.data.acc.toNat = sampleSum cs ∧ t.data.cnt.toNat = s.cfg.val.nSamples ∧
      t.data.avg.toNat = sampleSum cs / s.cfg.val.nSamples ∧
      t.data.volt.toNat = sampleSum cs / s.cfg.val.nSamples * s.cfg.val.scale := by
  have hl := s.cfg.val.legal_iff.mp s.cfg.ok
  have hs := sampleSum_le cs
  rw [nextConversions_length h] at hs
  have h' : nextConversions s.cfg.val.nSamples (clearSum s).adc = some cs := h
  have hmul : sampleSum cs < 2 ^ 32 := by
    have := Nat.mul_le_mul_left 1023 hl.1.2
    omega
  have hpos : s.cfg.val.nSamples ≠ 0 := by omega
  have hq : sampleSum cs / s.cfg.val.nSamples ≤ 1023 :=
    Nat.div_le_of_le_mul (by rw [Nat.mul_comm]; exact hs)
  have hv : sampleSum cs / s.cfg.val.nSamples * s.cfg.val.scale < 4096 := by
    have := Nat.mul_le_mul hq hl.2.1.2
    omega
  unfold sampleVoltage
  rw [sampleLoop_live h']
  have e1 : (0 + BitVec.ofNat 32 (sampleSum cs) : BitVec 32).toNat = sampleSum cs := by
    exact toNat_zero_add hmul
  have e2 : (averageOf (0 + BitVec.ofNat 32 (sampleSum cs)) s.cfg.val.nSamples).toNat =
      sampleSum cs / s.cfg.val.nSamples := by
    rw [averageOf, e1, BitVec.toNat_ofNat, Nat.mod_eq_of_lt (by omega)]
  refine ⟨_, rfl, ?_, e1, ?_, e2, ?_⟩
  · simp [average, clearSum, hpos]
  · exact toNat_zero_add (by omega)
  · show (voltageOf (averageOf (0 + BitVec.ofNat 32 (sampleSum cs)) s.cfg.val.nSamples) s.cfg.val.scale).toNat = _
    rw [voltageOf, e2, BitVec.toNat_ofNat, Nat.mod_eq_of_lt hv]

/-- Everything `sample_voltage()` does when trigger `k` is never answered (42_analog_sampler.md R71). -/
theorem sampleVoltage_stalls {s : State} {k : Nat} {cs : List Conversion} (h : AdcStalls s k cs) :
    ∃ t, sampleVoltage s = .stalled t ∧
      t = { s with
        data.acc := t.data.acc, data.cnt := t.data.cnt
        seq.st := .sWait
        pins.adcStart := false
        adc := adcAnswered none (nextAnswer (adcAfter k s.adc)).2
        log := s.log ++ sampleLog s.cfg.val.settleTicks cs ++ [.ev .adcStart, .hold 1] } ∧
      t.data.acc.toNat = sampleSum cs ∧ t.data.cnt.toNat = k := by
  obtain ⟨hk, h1, h2⟩ := h
  have hl := s.cfg.val.legal_iff.mp s.cfg.ok
  have hs := sampleSum_le cs
  rw [nextConversions_length h1] at hs
  unfold sampleVoltage
  rw [sampleLoop_stalls (s := clearSum s) hk h1 h2]
  refine ⟨_, rfl, rfl, ?_, ?_⟩
  · exact toNat_zero_add (by omega)
  · exact toNat_zero_add (by omega)

end Sys2Proof.Machine
end

