-- ==== Sys2Proof/Laws/Sequencer.lean ====
section
/-! SUPPORT. What ticks of the reference sequencer do in the timed states, in the waiting state and in
`IDLE`, and one whole bit cell. -/

namespace Sys2Proof.Machine

/-- Ticks one after another add up. -/
theorem ticks_add (m n : Nat) (s : State) : ticks (m + n) s = ticks n (ticks m s) := by
  induction m generalizing s with
  | zero => rw [Nat.zero_add, ticks]
  | succ m ih => rw [show m + 1 + n = (m + n) + 1 by omega, ticks, ticks, ih]

/-- An ADC with no trigger and no conversion in progress stands still. -/
theorem adcEdge_still {a : Adc} (h : a.conv = none) : adcEdge false a = a := by
  simp [adcEdge, h]

/-- `enc` leaves the ADC alone. -/
theorem enc_adc (p : Position) (v : Digit) (dp : Bool) (s : State) : (enc p v dp s).2.adc = s.adc := by
  obtain ⟨n, h⟩ := enc_state p v dp s
  rw [h]

/-- `to_digits` leaves the ADC alone. -/
theorem toDigits_adc (v : Millivolts) (s : State) : (toDigits v s).adc = s.adc := by
  obtain ⟨_, _, _, _, _, h, _⟩ := toDigits_state v s
  rw [h]

/-- The encoding step leaves the ADC alone. -/
theorem encodeFrame_adc (t o h : Digit) (s : State) : (encodeFrame t o h s).adc = s.adc := by
  obtain ⟨_, _, _, _, e, _⟩ := encodeFrame_state t o h s
  rw [e]

/-- The start of a frame leaves the ADC alone. -/
theorem startFrame_adc (s : State) : (startFrame s).adc = s.adc := by
  unfold startFrame
  split
  · rfl
  · rfl

/-- The end of a bit cell leaves the ADC alone. -/
theorem endCell_adc (s : State) : (endCell s).adc = s.adc := by
  unfold endCell endByte
  dsimp only
  split_ifs <;> rfl

/-- A busy edge of CORE leaves the ADC alone. -/
theorem busyEdge_adc (s : State) : (busyEdge s).adc = s.adc := by
  unfold busyEdge
  split
  · rfl
  · simp [endExec]
  · simp [encodeBody, enc_adc]
  · unfold endConvert
    split
    · exact toDigits_adc _ _
    · rw [finish_adc, toDigits_adc]
  · rfl
  · unfold endWait
    split <;> rfl
  · unfold countdown endSettle
    dsimp only
    split_ifs <;> rfl
  · unfold endAverage
    dsimp only
    split <;> rfl
  · unfold endEncode
    split <;> rw [startFrame_adc, encodeFrame_adc]
  · unfold countdown
    split <;> rfl
  · unfold countdown
    split
    · exact endCell_adc s
    · rfl
  · unfold countdown
    split <;> rfl
  · unfold countdown
    split <;> rfl

/-- A quiet edge of a busy machine whose ADC stands still is the edge of its state. -/
theorem tick_busy {s : State} (h1 : s.seq.st ≠ .idle) (h2 : s.pins.adcStart = false) (h3 : s.adc.conv = none) :
    tick quiet s = busyEdge s := by
  simp only [tick, coreEdge, quiet, h1, h2, adcEdge_still h3, if_false, Bool.false_eq_true]
  rw [← busyEdge_adc s]

/-- A machine in `IDLE` to which nothing is presented stands still after the `done` tick. -/
theorem tick_idle {s : State} (h1 : s.seq.st = .idle) (h2 : s.pins.adcStart = false) (h3 : s.adc.conv = none) :
    tick quiet s = { s with seq.donef := false } := by
  simp [tick, coreEdge, quiet, h1, h2, adcEdge_still h3]

/-- The machine with another `TMR`. -/
def withTimer (n : Nat) (s : State) : State := { s with seq.tmr := n }

@[simp] theorem withTimer_cfg (n : Nat) (s : State) : (withTimer n s).cfg = s.cfg := rfl
@[simp] theorem withTimer_pins (n : Nat) (s : State) : (withTimer n s).pins = s.pins := rfl
@[simp] theorem withTimer_adc (n : Nat) (s : State) : (withTimer n s).adc = s.adc := rfl
@[simp] theorem withTimer_st (n : Nat) (s : State) : (withTimer n s).seq.st = s.seq.st := rfl
@[simp] theorem withTimer_tmr (n : Nat) (s : State) : (withTimer n s).seq.tmr = n := rfl
@[simp] theorem withTimer_twice (m n : Nat) (s : State) : withTimer m (withTimer n s) = withTimer m s := rfl

/-- The `TMR` a machine has already. -/
theorem withTimer_self (s : State) : withTimer s.seq.tmr s = s := rfl

/-- What happens at the end of a timed state. -/
def timedNext (st : SeqState) : State → State :=
  match st with
  | .sSettle => endSettle
  | .bLow => endLow
  | .bHigh => endCell
  | .lLow => endLatchLow
  | .lHigh => endLatchHigh
  | .idle | .nExec | .eCalc | .cCalc | .sTrig | .sWait | .sCalc | .dEnc => id

/-- The edge of a timed state counts down or ends it. -/
theorem busyEdge_timed {s : State} (h : s.seq.st.timed = true) :
    busyEdge s = countdown (timedNext s.seq.st) s := by
  unfold busyEdge timedNext
  cases hs : s.seq.st <;> simp [hs, SeqState.timed] at h ⊢

/-- A timed state is not `IDLE`. -/
theorem timed_ne_idle {st : SeqState} (h : st.timed = true) : st ≠ .idle := by
  rintro rfl
  exact absurd h (by decide)

/-- A timed state with `TMR = n + 1` only counts for `n` ticks. -/
theorem ticks_timed {n : Nat} {s : State} (h : s.seq.st.timed = true) (h2 : s.pins.adcStart = false)
    (h3 : s.adc.conv = none) (ht : s.seq.tmr = n + 1) : ticks n s = withTimer 1 s := by
  induction n generalizing s with
  | zero =>
    conv_rhs => rw [show (1 : Nat) = s.seq.tmr from ht.symm, withTimer_self]
    rfl
  | succ n ih =>
    have e : tick quiet s = withTimer (n + 1) s := by
      rw [tick_busy (timed_ne_idle h) h2 h3, busyEdge_timed h, countdown, if_neg (by omega), ht]
      rfl
    rw [ticks, e]
    exact ih h h2 h3 rfl

/-- A timed state with `TMR = n + 1` ends after `n + 1` ticks. -/
theorem ticks_timed_end {n : Nat} {s : State} (h : s.seq.st.timed = true) (h2 : s.pins.adcStart = false)
    (h3 : s.adc.conv = none) (ht : s.seq.tmr = n + 1) :
    ticks (n + 1) s = timedNext s.seq.st (withTimer 1 s) := by
  rw [ticks_add, ticks_timed h h2 h3 ht]
  show tick quiet (withTimer 1 s) = _
  rw [tick_busy (s := withTimer 1 s) (timed_ne_idle h) h2 h3, busyEdge_timed (s := withTimer 1 s) h, countdown,
    withTimer_tmr, if_pos (Nat.le_refl 1), withTimer_st]

/-- A legal pulse lasts at least one tick. -/
theorem pulse_pos (c : LegalConfig) : 1 ≤ c.val.pulseTicks := (c.val.legal_iff.mp c.ok).2.2.2.2.1

/-- A legal settle wait lasts at least one tick. -/
theorem settle_pos (c : LegalConfig) : 1 ≤ c.val.settleTicks := (c.val.legal_iff.mp c.ok).2.2.2.2.2.2.1

/-- One phase of the serial port, timed by `PULSE_TICKS`. -/
theorem ticks_pulse {s : State} (h : s.seq.st.timed = true) (h2 : s.pins.adcStart = false)
    (h3 : s.adc.conv = none) (ht : s.seq.tmr = s.cfg.val.pulseTicks) :
    ticks s.cfg.val.pulseTicks s = timedNext s.seq.st (withTimer 1 s) := by
  obtain ⟨n, hn⟩ := Nat.exists_eq_add_of_le' (pulse_pos s.cfg)
  rw [hn] at ht ⊢
  exact ticks_timed_end h h2 h3 ht

/-- One whole bit cell of the reference sequencer, from its first `B_LOW` tick (44_shift_register_bus.md
R78): `2 * PULSE_TICKS` ticks. -/
theorem ticks_cell {s : State} (h1 : s.seq.st = .bLow) (h2 : s.pins.adcStart = false)
    (h3 : s.adc.conv = none) (ht : s.seq.tmr = s.cfg.val.pulseTicks) :
    ticks (2 * s.cfg.val.pulseTicks) s = endCell (withTimer 1 (endLow s)) := by
  have e1 : ticks s.cfg.val.pulseTicks s = endLow s := by
    rw [ticks_pulse (by rw [h1]; rfl) h2 h3 ht, h1]
    rfl
  rw [Nat.two_mul, ticks_add, e1]
  exact ticks_pulse (s := endLow s) rfl h2 h3 rfl

/-- One whole latch pulse of the reference sequencer, from its first `L_LOW` tick (44_shift_register_bus.md
R82): `2 * PULSE_TICKS` ticks. -/
theorem ticks_latch {s : State} (h1 : s.seq.st = .lLow) (h2 : s.pins.adcStart = false)
    (h3 : s.adc.conv = none) (ht : s.seq.tmr = s.cfg.val.pulseTicks) :
    ticks (2 * s.cfg.val.pulseTicks) s = endLatchHigh (withTimer 1 (endLatchLow s)) := by
  have e1 : ticks s.cfg.val.pulseTicks s = endLatchLow s := by
    rw [ticks_pulse (by rw [h1]; rfl) h2 h3 ht, h1]
    rfl
  rw [Nat.two_mul, ticks_add, e1]
  exact ticks_pulse (s := endLatchLow s) rfl h2 h3 rfl

/-- A machine in `S_WAIT` whose ADC has nothing in progress and shows no completion stays as it is
(42_analog_sampler.md R71). -/
theorem tick_stalled {s : State} (h1 : s.seq.st = .sWait) (h2 : s.pins.adcStart = false)
    (h3 : s.adc.conv = none) (h4 : s.adc.done = false) : tick quiet s = s := by
  rw [tick_busy (by rw [h1]; decide) h2 h3]
  simp [busyEdge, h1, endWait, h4]

/-- It stays so at every tick. -/
theorem ticks_stalled {s : State} (h1 : s.seq.st = .sWait) (h2 : s.pins.adcStart = false)
    (h3 : s.adc.conv = none) (h4 : s.adc.done = false) (n : Nat) : ticks n s = s := by
  induction n with
  | zero => rfl
  | succ n ih => rw [ticks, tick_stalled h1 h2 h3 h4, ih]

/-! ### Acceptance and reset at an edge -/

/-- Acceptance of a word: what every operation has in common (10_state.md R28). -/
theorem acceptEdge_common (w : CmdWord) (s : State) :
    (acceptEdge w s).seq.cmdr = w ∧ (acceptEdge w s).seq.st = firstState w ∧
    (acceptEdge w s).seq.donef = false ∧ (acceptEdge w s).cfg = s.cfg ∧ (acceptEdge w s).chain = s.chain ∧
    (acceptEdge w s).adc = s.adc ∧ (acceptEdge w s).host = s.host ∧ (acceptEdge w s).draws = s.draws := by
  unfold acceptEdge
  split <;> rename_i h <;>
    simp [h, firstState, enterTrigger, enterLow, enterTimed, startByte, enterLatch, frameCheck, accept]

/-- An edge with reset (70_reset_and_hazards.md R115). -/
theorem tick_reset {inp : TickIn} (s : State) (h : inp.rst = true) :
    tick inp s = { resetCore s with adc := adcEdge s.pins.adcStart s.adc } := by
  simp [tick, coreEdge, h]

/-- An edge that accepts a word (10_state.md R28). -/
theorem tick_accept {s : State} (w : CmdWord) (h : s.seq.st = .idle) :
    tick (presenting w) s = { acceptEdge w s with adc := adcEdge s.pins.adcStart s.adc } := by
  simp [tick, coreEdge, presenting, h]

/-- While CORE is busy the command port has no effect (10_state.md R28). -/
theorem tick_ignores {inp : TickIn} {s : State} (h : s.seq.st ≠ .idle) (hr : inp.rst = false) :
    tick inp s = tick quiet s := by
  simp [tick, coreEdge, h, hr, quiet]

/-! ### A whole byte -/

/-- The start of a bit cell, as a state. -/
theorem enterLow_eq (b : Bool) (s : State) :
    enterLow b s = { s with
      seq.st := .bLow
      seq.tmr := s.cfg.val.pulseTicks
      pins.srData := b
      log := s.log ++ [.ev (.data b)] } := rfl

/-- A bit cell that is not the last of its byte: after it the next bit stands on `sr_data`. -/
theorem ticks_cell_more {b : Bool} {s : State} (h2 : s.pins.adcStart = false) (h3 : s.adc.conv = none)
    (h4 : 2 ≤ s.seq.bitix.toNat) :
    ticks (2 * s.cfg.val.pulseTicks) (enterLow b s) =
      enterLow (s.seq.shr.shiftConcat false).msb { s with
        data.frcnt := frcntSucc s.data.frcnt
        seq.st := .bHigh
        seq.tmr := 1
        seq.shr := s.seq.shr.shiftConcat false
        seq.bitix := s.seq.bitix - 1
        pins.srData := b
        pins.srClk := false
        chain.sh := s.chain.sh.shiftConcat b
        log := s.log ++ cellLog s.cfg.val.pulseTicks b } := by
  have hb0 : s.seq.bitix ≠ 0 := by
    intro h
    rw [h] at h4
    exact absurd h4 (by decide)
  have hb1 : s.seq.bitix - 1 ≠ 0 := by
    intro h
    have h1 : s.seq.bitix = 1 := by
      have := congrArg (· + 1) h
      simpa using this
    rw [h1] at h4
    exact absurd h4 (by decide)
  have e := ticks_cell (s := enterLow b s) rfl h2 h3 rfl
  have hc : (enterLow b s).cfg = s.cfg := rfl
  rw [hc] at e
  rw [e]
  unfold endCell
  dsimp only
  rw [if_neg (show (countBit (dropClk (holdPulse (withTimer 1 (endLow (enterLow b s)))))).seq.bitix ≠ 0 from hb0),
    if_neg (show (countBit (dropClk (holdPulse (withTimer 1 (endLow (enterLow b s)))))).seq.bitix - 1 ≠ 0 from hb1)]
  simp [endLow, enterLow, enterTimed, raiseClk, dropClk, countBit, driveData, holdPulse, emit, hold, withTimer,
    cellLog]

end Sys2Proof.Machine
end

