-- ==== Sys2Proof/Tests/Slice0.lean ====
section
/-! SUPPORT. Tests. Expected values come from spec/95_test_vectors.md or from the rule a comment names. -/

namespace Sys2Proof.Tests

open Sys2Proof Sys2Proof.Machine

/-! ### Fixture (95_test_vectors.md section 1) -/

/-- `FIXTURE_ROM`. -/
def fixtureRom : List Host.Cell := romAddrs.zip
  ([0x3F, 0x06, 0x5B, 0x4F, 0x66, 0x6D, 0x7D, 0x07, 0x7F, 0x6F] ++
    [0x3F, 0x06, 0x9B, 0x8F, 0xA6, 0xAD, 0xBD, 0x07, 0xBF, 0xAF] ++
    [0xFC, 0x60, 0xDA, 0xF2, 0x66, 0xB6, 0xBE, 0xE0, 0xFE, 0xF6])

/-- The fixture's parameters. -/
def fixture : Config where
  nSamples := 10
  scale := 2
  offsetMv := 500
  fClk := 1000000
  pulseTicks := 50
  settleTicks := 1000
  segRom := fixtureRom

/-- The fixture with its proof. -/
def unit : LegalConfig := ⟨fixture, by decide +kernel⟩

/-- The fixture on a slow clock: few ticks, for the reference sequencer. -/
def quickUnit : LegalConfig :=
  ⟨{ fixture with nSamples := 1, fClk := 25000, pulseTicks := 1, settleTicks := 1 }, by decide +kernel⟩

/-- An idle machine with a known chain and an ADC that answers each trigger with the next value. -/
def idleWith (c : LegalConfig) (rs : List RawSample) : State :=
  { State.resetWith c with
    chain := ⟨0xABCDEF, 0x123456⟩
    adc := ⟨false, 0, none, rs.map fun r => some ⟨1, r⟩, 0⟩ }

/-- An idle machine that presents nothing to CORE and whose ADC answers `r` ten times. -/
def idle (r : RawSample) : State := idleWith unit (List.replicate 10 r)

/-- The stall vector of 95_test_vectors.md section 4. -/
def stalling : State :=
  { idle 0 with adc.script := [some ⟨1, 100⟩, some ⟨1, 200⟩, some ⟨1, 300⟩, none] }

/-- The state after a command. -/
def after (i : Instr) (s : State) : State :=
  match exec i s with
  | .next t => t
  | .fault _ => s
  | .refused _ => s

/-- The state after a list of commands. -/
def afterAll (is : List Instr) (s : State) : State := is.foldl (fun s i => after i s) s

/-- The conversions the ADC of `idle r` gives. -/
def tenTimes (r : RawSample) : List Conversion := List.replicate 10 ⟨1, r⟩

/-! ### Configurations: each check refuses a term that breaks it, and nothing else -/

theorem test_fixture_legal : fixture.error? = none := by decide +kernel

theorem test_refuses_no_samples : { fixture with nSamples := 0 }.error? = some .nSamples := by decide +kernel
theorem test_refuses_many_samples : { fixture with nSamples := 65536 }.error? = some .nSamples := by decide +kernel
theorem test_refuses_scale : { fixture with scale := 5 }.error? = some .scale := by decide +kernel
theorem test_refuses_offset : { fixture with offsetMv := 4096 }.error? = some .offsetMv := by decide +kernel
theorem test_refuses_no_clock : { fixture with fClk := 0 }.error? = some .fClk := by decide +kernel
theorem test_refuses_no_pulse : { fixture with pulseTicks := 0 }.error? = some .pulseTicks := by decide +kernel
/-- 39 microseconds. -/
theorem test_refuses_short_pulse : { fixture with pulseTicks := 39 }.error? = some .pulseTooShort := by decide +kernel
/-- A clock of 32768.5 Hz, and one of half a hertz. -/
theorem test_accepts_fractional_clocks :
    { fixture with fClk := 65537 / 2 }.error? = none ∧ { fixture with fClk := 1 / 2 }.error? = none := by
  decide +kernel
theorem test_accepts_40_microseconds : { fixture with pulseTicks := 40 }.error? = none := by decide +kernel
theorem test_refuses_no_settle : { fixture with settleTicks := 0 }.error? = some .settleTicks := by decide +kernel
theorem test_refuses_missing_cell : { fixture with segRom := fixtureRom.drop 1 }.error? = some .romShape := by
  decide +kernel
theorem test_refuses_dark_zero :
    { fixture with segRom := fixtureRom.map fun (c : Host.Cell) => if c.1 = 32 then (32, 0) else c }.error? =
      some .romZeroDigit := by decide +kernel
theorem test_refuses_unordered_memory : Memory.wf [(3, 0), (2, 1)] = false := by decide +kernel

/-- The callers' ranges (70_reset_and_hazards.md R123, R124). -/
theorem test_caller_ranges :
    (Instr.encode 3 false 0).callerOk fixture = false ∧ (Instr.encode 0 true 1).callerOk fixture = false ∧
    (Instr.encode 1 true 9).callerOk fixture = true ∧ (Instr.showDigits 0 10 0).callerOk fixture = false ∧
    (Instr.convert 499).callerOk fixture = false ∧ (Instr.convert 1499).callerOk fixture = true := by decide +kernel

/-- The open configuration has the defaults of 00_scope.md R4. -/
theorem test_open_defaults :
    State.reset.cfg.val.nSamples = 10 ∧ State.reset.cfg.val.scale = 2 ∧ State.reset.cfg.val.offsetMv = 500 := by
  exact ⟨rfl, rfl, rfl⟩

/-! ### Decoding: words written out bit by bit from 30_encoding.md R48 to R50 -/

theorem test_decode_nop : decode 0b0000_000000000000 = .ok .nop := by decide
theorem test_decode_sample : decode 0b0001_000000000000 = .ok .sample := by decide
/-- `CONVERT #1250`, E6. -/
theorem test_decode_convert : decode 0b0010_010011100010 = .ok (.convert 1250) := by decide
/-- `ENCODE 1, 5, 1`. -/
theorem test_decode_encode : decode 0b0011_00000_01_1_0101 = .ok (.encode 1 true 5) := by decide
theorem test_decode_pushbit : decode 0b0100_00000000000_1 = .ok (.pushbit true) := by decide
theorem test_decode_pushbyte : decode 0b0101_0000_10100101 = .ok (.pushbyte 0xA5) := by decide
theorem test_decode_latch : decode 0b0110_000000000000 = .ok .latch := by decide
/-- `SHOW 2, 3, 4`: tens, ones, tenths. -/
theorem test_decode_show : decode 0b0111_0010_0011_0100 = .ok (.showDigits 2 3 4) := by decide
theorem test_decode_cycle : decode 0b1000_000000000000 = .ok .cycle := by decide
/-- Vectors A5, B13, B14, B15, X2, X3, X5. -/
theorem test_decode_must_be_zero :
    decode 0x3080 = .error (.mustBeZero "ENCODE") ∧ decode 0x4002 = .error (.mustBeZero "PUSHBIT") ∧
    decode 0x5100 = .error (.mustBeZero "PUSHBYTE") ∧ decode 0x6001 = .error (.mustBeZero "LATCH") ∧
    decode 0x0001 = .error (.mustBeZero "NOP") ∧ decode 0x1001 = .error (.mustBeZero "SAMPLE") ∧
    decode 0x8800 = .error (.mustBeZero "CYCLE") := by decide
/-- Vector X6. -/
theorem test_decode_unused :
    decode 0x9000 = .error (.unusedOpcode 9) ∧ decode 0xA123 = .error (.unusedOpcode 10) ∧
    decode 0xFFFF = .error (.unusedOpcode 15) := by decide
/-- X7, X8: every operand bit of formats V and D is used. -/
theorem test_decode_full_operands :
    decode 0x2FFF = .ok (.convert 4095) ∧ decode 0x7FFF = .ok (.showDigits 15 15 15) := by decide
theorem test_decode_table_word : decodeTableWord 16 0x7750 = some (.showDigits 7 5 0) := by decide
theorem test_decode_table_word_illegal : decodeTableWord 16 0x9000 = none := by decide

/-! ### One command each -/

/-- Reset (10_state.md R31): ready, no flag, `sr_clr_n` high. -/
theorem test_reset :
    State.reset.status = 0 ∧ State.reset.seq.st = .idle ∧ State.reset.pins.srClrN = true ∧
    State.reset.data.frcnt = 0 ∧ State.reset.host = [] := by
  exact ⟨rfl, rfl, rfl, rfl, rfl⟩

/-- X1. -/
theorem test_nop : (after .nop (idle 0)).data = (idle 0).data ∧ (after .nop (idle 0)).seq.donef = true := by
  decide

/-- Section 3: `ENCODE 1, 5, 1`. -/
theorem test_encode_point : (after (.encode 1 true 5) (idle 0)).data.pat = 0xED := by decide
/-- A4: out of range. -/
theorem test_encode_out_of_range : (after (.encode 3 true 12) (idle 0)).status = 0x08 := by decide

/-- Section 5: `CONVERT #608`. -/
theorem test_convert :
    let d := (after (.convert 608) (idle 0)).data
    d.temp = 108 ∧ d.tens = 1 ∧ d.ones = 0 ∧ d.tenths = 8 := by decide
/-- Section 5: `CONVERT #499`. -/
theorem test_convert_below :
    (after (.convert 499) (idle 0)).data.temp = 0xFFFF ∧ (after (.convert 499) (idle 0)).status = 0x10 := by
  decide

/-- Program D: 300..309; divide first, then multiply. -/
theorem test_sample_truncates :
    let d := (after .sample (idleWith unit [300, 301, 302, 303, 304, 305, 306, 307, 308, 309])).data
    d.acc = 3045 ∧ d.cnt = 10 ∧ d.avg = 304 ∧ d.volt = 608 := by decide +kernel
/-- The stall vector. -/
theorem test_sample_stalls :
    (after .sample stalling).data.acc = 600 ∧ (after .sample stalling).data.cnt = 3 ∧
    (after .sample stalling).busy = true ∧
    (after .sample stalling).trace = [.adcStart, .adcDone 100, .settle, .adcStart, .adcDone 200, .settle,
      .adcStart, .adcDone 300, .settle, .adcStart] := by decide +kernel

/-- B2. -/
theorem test_pushbit :
    (after (.pushbit true) (idle 0)).trace = [.data true, .clkRise, .clkFall, .data false] ∧
    (after (.pushbit true) (idle 0)).chain = ⟨0x579BDF, 0x123456⟩ := by decide
/-- Q2: 24 times `PUSHBIT 1`, then LATCH. -/
theorem test_pushbit_frame :
    (after .latch (afterAll (List.replicate 24 (.pushbit true)) (idle 0))).chain.disp = 0xFFFFFF ∧
    (after .latch (afterAll (List.replicate 24 (.pushbit true)) (idle 0))).status = 0 := by decide +kernel

/-- B5. -/
theorem test_pushbyte :
    (after (.pushbyte 0xA5) (idle 0)).chain.sh = 0xCDEFA5 ∧
    levelsAtRise false (after (.pushbyte 0xA5) (idle 0)).trace =
      [true, false, true, false, false, true, false, true] := by decide +kernel
/-- Q5: the count saturates. -/
theorem test_pushbyte_saturates :
    (afterAll (List.replicate 4 (.pushbyte 0xAA)) (idle 0)).data.frcnt = 31 := by decide +kernel

/-- Q1. -/
theorem test_latch_frame :
    (afterAll [.pushbyte 0x11, .pushbyte 0x22, .pushbyte 0x33, .latch] (idle 0)).chain.disp = 0x112233 ∧
    (afterAll [.pushbyte 0x11, .pushbyte 0x22, .pushbyte 0x33, .latch] (idle 0)).status = 0 := by decide +kernel
/-- B9. -/
theorem test_latch_partial :
    (after .latch (idle 0)).status = 0x20 ∧ (after .latch (idle 0)).chain.disp = 0xABCDEF := by decide

/-- E4: 23.4. -/
theorem test_show :
    (after (.showDigits 2 3 4) (idle 0)).chain = ⟨0x66CFDA, 0x66CFDA⟩ ∧
    (after (.showDigits 2 3 4) (idle 0)).trace.length = 75 := by decide +kernel
/-- S4: only `P2` is unspecified and the update goes through. -/
theorem test_show_out_of_range :
    (after (.showDigits 10 0 0) (idle 0)).data.p0 = 0x3F ∧
    (after (.showDigits 10 0 0) (idle 0)).data.p1 = 0x7F ∧
    (after (.showDigits 10 0 0) (idle 0)).err .arg = true := by decide

/-- Program C. -/
theorem test_cycle :
    (after .cycle (idle 367)).chain.disp = 0x66CFDA ∧ (after .cycle (idle 367)).status = 0 ∧
    (after .cycle (idle 367)).trace.length = 105 := by decide +kernel
/-- Section 8: `r = 749`, the upper edge of the domain of CYCLE. -/
theorem test_cycle_edge :
    (after .cycle (idle 749)).data.temp = 998 ∧ (after .cycle (idle 749)).chain.disp = 0x7FEFF6 := by decide +kernel

/-- H6: the flags accumulate. -/
theorem test_flags_accumulate :
    (afterAll [.encode 0 false 10, .convert 0, .latch] (idle 0)).status = 0x38 := by decide

/-! ### The reference sequencer -/

/-- H1. -/
theorem test_nop_ticks :
    (tick (presenting 0) (idle 0)).seq.st = .nExec ∧ (tick (presenting 0) (idle 0)).busy = true ∧
    (ticks 1 (tick (presenting 0) (idle 0))).done = true ∧
    (ticks 2 (tick (presenting 0) (idle 0))).done = false := by decide

/-- R128: `PUSHBIT` on a unit with one tick a pulse ends in the tick after two. -/
theorem test_pushbit_ticks :
    ticks 2 (tick (presenting 0x4001) (idleWith quickUnit [])) =
      after (.pushbit true) (idleWith quickUnit []) := by decide +kernel

/-- H4: reset in `B_HIGH` of a SHOW leaves the display. -/
theorem test_reset_in_frame :
    (cutShort 0x7234 2 (idleWith quickUnit [])).chain.disp = 0x123456 ∧
    (ticks 2 (tick (presenting 0x7234) (idleWith quickUnit []))).seq.st = .bHigh ∧
    (cutShort 0x7234 2 (idleWith quickUnit [])).pins.srClk = false := by decide

/-- `withFetchWord` runs the word at the next step. -/
theorem test_fetch_word : step (State.reset.withFetchWord 16 0x21F4) = exec (.convert 500) State.reset := by rfl

/-! ### Witnesses: for each statement with hypotheses, a state and operands that meet all of them -/

/-- `idle` with a host that presents a word. -/
def presented (w : CmdWord) : State := { idle 367 with host := [.issue w] }

/-- The last `B_LOW` tick of a PUSHBIT. -/
def lowPhase : State :=
  { idle 367 with
    seq := { st := .bLow, cmdr := 0x4001, shr := 0, bitix := 0, byteix := 0, tmr := 1, donef := false }
    status := 1
    pins := ⟨false, true, false, false, true⟩ }

/-- The first `B_HIGH` tick of a PUSHBIT. -/
def highPhase : State := tick quiet lowPhase

/-- The last `L_LOW` tick of a LATCH. -/
def latchLowPhase : State :=
  { idle 367 with
    seq := { st := .lLow, cmdr := 0x6000, shr := 0, bitix := 0, byteix := 0, tmr := 1, donef := false }
    status := 1 }

/-- The first `L_HIGH` tick of a LATCH. -/
def latchHighPhase : State := tick quiet latchLowPhase

theorem witness_EncodeOfDecode : decode 0x3035 = .ok (.encode 1 true 5) := by decide

theorem witness_IllegalWordsExactly : decode 0x9000 = .error (.unusedOpcode 9) ∧
    decode 0x3080 = .error (.mustBeZero "ENCODE") := by decide

theorem witness_StepRunsDecodedCommand : (presented 0x7234).seq.st = .idle ∧
    (presented 0x7234).host = .issue 0x7234 :: [] ∧ decode 0x7234 = .ok (.showDigits 2 3 4) := by decide

/-- The second clause: an illegal word. -/
theorem witness_StepRunsDecodedCommand_illegal : (presented 0xFFFF).seq.st = .idle ∧
    (presented 0xFFFF).host = .issue 0xFFFF :: [] ∧ decode 0xFFFF = .error (.unusedOpcode 15) := by decide

theorem witness_IllegalWordSetsFlagOnly : decode 0xFFFF = .error (.unusedOpcode 15) ∧
    decode 0x6001 = .error (.mustBeZero "LATCH") ∧ (idle 367).seq.st = .idle := by decide

theorem witness_IllegalConfigurationRefused :
    { fixture with nSamples := 0 }.nSamples = 0 ∧ { fixture with nSamples := 0 }.legal = false := by decide

theorem witness_ConfigurationNeverWritten : ∃ t, step (presented 0x8000) = .next t := ⟨_, rfl⟩

theorem witness_ResetEdgeClearsEverything : resetting.rst = true := rfl

/-- One state for each clause: a reset in `B_HIGH` and one in `L_HIGH`. -/
theorem witness_ResetKeepsTheChain : resetting.rst = true ∧ highPhase.seq.st = .bHigh ∧
    highPhase.seq.st ≠ .lHigh ∧ latchHighPhase.seq.st = .lHigh ∧ latchHighPhase.seq.st ≠ .bHigh := by decide

/-- A reset in mid-pulse, and a machine in `IDLE`. -/
theorem witness_NothingStartsByItself : resetting.rst = true ∧ highPhase.seq.st = .bHigh ∧
    (idle 367).seq.st = .idle := by decide

/-- One state for each clause. -/
theorem witness_CommandAcceptance : (idle 367).seq.st = .idle ∧ lowPhase.seq.st ≠ .idle := by decide

/-- One state for each clause. -/
theorem witness_CommandRegisterHolds : (presenting 0x6000).rst = false ∧ lowPhase.seq.st ≠ .idle ∧
    (idle 367).seq.st = .idle ∧ quiet.rst = false ∧ quiet.cmd = none ∧
    decode 0x4001 = .ok (.pushbit true) ∧ decode 0x50A5 = .ok (.pushbyte 0xA5) := by decide

theorem witness_DoneLastsOneTick : (after .nop (idle 367)).seq.st = .idle ∧
    ∃ t, exec .nop (idle 367) = .next t ∧ t.seq.st = .idle := ⟨by decide, _, rfl, rfl⟩

/-- The boundary positions and digits. -/
theorem witness_cells : (2 : Position).toNat ≤ 2 ∧ (9 : Digit).toNat ≤ 9 ∧ (0 : Position).toNat ≤ 2 ∧
    (0 : Digit).toNat ≤ 9 ∧ (romRead unit 2 9).isSome = true ∧ romRead unit 2 10 = none ∧
    romRead unit 3 0 = none := by decide

/-- The byte of position 0, digit 5 has bit 6 already (95_test_vectors.md section 3). -/
theorem witness_EncoderProperties : (0 : Position).toNat ≤ 2 ∧ (5 : Digit).toNat ≤ 9 ∧
    Memory.read (idle 367).cfg.val.segRom 5 = some 0x6D ∧ (0x6D : Byte).getLsbD 6 = true := by decide

theorem witness_EncodeOutOfRange : (3 : Position).toNat = 3 ∧ 10 ≤ (10 : Digit).toNat := by decide

/-- Both edges of the domain. -/
theorem witness_ConvertInDomain :
    (idle 367).cfg.val.offsetMv ≤ (500 : Millivolts).toNat ∧
    (500 : Millivolts).toNat ≤ (idle 367).cfg.val.offsetMv + 999 ∧
    (idle 367).cfg.val.offsetMv ≤ (1499 : Millivolts).toNat ∧
    (1499 : Millivolts).toNat ≤ (idle 367).cfg.val.offsetMv + 999 := by decide

/-- Both edges of the range of temperatures. -/
theorem witness_DigitsReconstruct :
    (500 : Millivolts).toNat = (idle 367).cfg.val.offsetMv + 0 ∧
    (1499 : Millivolts).toNat = (idle 367).cfg.val.offsetMv + 999 ∧ 999 ≤ 999 := by decide

/-- The first voltage outside on either side. -/
theorem witness_ConvertOutOfDomain :
    (499 : Millivolts).toNat < (idle 367).cfg.val.offsetMv ∧
    (idle 367).cfg.val.offsetMv + 999 < (1500 : Millivolts).toNat := by decide

theorem witness_SampleResult : AdcLive (idle 367) (tenTimes 367) := by
  unfold AdcLive
  decide

/-- The stall after three conversions, for both commands. -/
theorem witness_StallHangs :
    AdcStalls stalling 3 [⟨1, 100⟩, ⟨1, 200⟩, ⟨1, 300⟩] ∧ stalling.host = [] := by
  unfold AdcStalls
  decide

/-- The stall at the first conversion. -/
theorem witness_StallHangs_first : AdcStalls { stalling with adc.script := [none] } 0 [] := by
  unfold AdcStalls
  decide

/-- Two states that differ in the registers, with one ADC. -/
theorem witness_SampleDependsOnAdcOnly :
    (after (.convert 500) (idle 367)).cfg = (idle 367).cfg ∧
    (after (.convert 500) (idle 367)).adc = (idle 367).adc ∧ (after .sample (idle 367)).seq.st = .idle ∧
    (∃ t, exec .sample (idle 367) = .next t) ∧
    ∃ t, exec .sample (after (.convert 500) (idle 367)) = .next t :=
  ⟨rfl, rfl, by decide +kernel, ⟨_, rfl⟩, _, rfl⟩

/-- Equal samples, and two orders of the same samples. -/
theorem witness_SampleProperties :
    AdcLive (idle 367) (tenTimes 367) ∧ (∀ c ∈ tenTimes 367, c.result = 367) ∧
    (∃ t, exec .sample (idle 367) = .next t) ∧
    AdcLive (idleWith quickUnit [5]) [⟨1, 5⟩] ∧ List.Perm [(⟨1, 5⟩ : Conversion)] [⟨1, 5⟩] := by
  refine ⟨witness_SampleResult, by decide, ⟨_, rfl⟩, ?_, List.Perm.refl _⟩
  unfold AdcLive
  decide

theorem witness_HandBuiltFrame : (idle 367).data.frcnt = 0 := rfl

theorem witness_FrameBitOrder : (after (.showDigits 2 3 4) (idle 367)).skip = false ∧
    ∃ t, exec (.showDigits 2 3 4) (idle 367) = .next t := ⟨by decide +kernel, _, rfl⟩

theorem witness_ShowInRange : (9 : Digit).toNat ≤ 9 ∧ (0 : Digit).toNat ≤ 9 ∧ (4 : Digit).toNat ≤ 9 := by decide

/-- The clause of a frame that is shown, with a digit at each edge of its range. -/
theorem witness_ShowSentinel_shown :
    (after (.showDigits 9 9 0) (idle 367)).skip = false ∧ 10 ≤ (10 : Digit).toNat := by decide +kernel

/-- A legal table with dark digits at positions 0 and 2. -/
def darkUnit : LegalConfig :=
  ⟨{ fixture with segRom := fixtureRom.map fun (c : Host.Cell) => if c.1 % 16 = 1 then (c.1, 0) else c },
    by decide +kernel⟩

/-- The clause of a suppressed update, for every unit whose free byte of that draw is 0x00. -/
theorem witness_ShowSentinel_suppressed (h : Config.freeByte 2 = 0) :
    (after (.showDigits 1 10 1) (idleWith darkUnit [])).skip = true := by
  have e : (enc 1 10 true (accept 0x71A1 (idleWith darkUnit []))).1 = 0 := h
  have e2 : sentinel (encodeFrame 1 10 1 (accept 0x71A1 (idleWith darkUnit []))) = true := by
    simp only [sentinel]
    exact (Bool.and_eq_true _ _).mpr ⟨(Bool.and_eq_true _ _).mpr ⟨by decide, beq_iff_eq.mpr h⟩, by decide⟩
  show (finish (showBody 1 10 1 (accept 0x71A1 (idleWith darkUnit [])))).skip = true
  rw [showBody, e2]
  rfl

theorem witness_OnlyShowChangesSkip : ∃ t, exec .latch (idle 367) = .next t := ⟨_, rfl⟩

theorem witness_CycleResult : AdcLive (idle 250) (tenTimes 250) ∧
    (after .cycle (idle 250)).data.temp.toInt = 0 ∧ (after .cycle (idle 749)).data.temp.toInt = 998 ∧
    (after .cycle (idle 250)).skip = false := by
  refine ⟨?_, by decide +kernel, by decide +kernel, by decide +kernel⟩
  unfold AdcLive
  decide

/-- The clause outside the domain: the ADC answers, and the voltage is 1500 mV. -/
theorem witness_CycleResult_outside : AdcLive (idle 750) (tenTimes 750) ∧
    (999 : Int) < temperatureOf (voltageOf (averageOf (BitVec.ofNat 32 (sampleSum (tenTimes 750))) 10) 2) 500 := by
  refine ⟨?_, by decide⟩
  unfold AdcLive
  decide

/-- A machine with the dark table whose sampler has just measured 0 mV, outside the domain. -/
def darkSampled : State :=
  match sampleVoltage (accept 0x8000 (idleWith darkUnit (List.replicate 10 0))) with
  | .completed t => t
  | .stalled t => t

/-- The clause of a suppressed update, for every unit that draws these free values: tens and tenths a dark
digit, ones no digit, and 0x00 for its pattern. -/
theorem witness_CycleResult_suppressed (h2 : Config.freeDigit 2 = 1) (h3 : Config.freeDigit 3 = 10)
    (h4 : Config.freeDigit 4 = 1) (h5 : Config.freeByte 5 = 0) :
    AdcLive (idleWith darkUnit (List.replicate 10 0)) (tenTimes 0) ∧
    (after .cycle (idleWith darkUnit (List.replicate 10 0))).skip = true := by
  refine ⟨by unfold AdcLive; decide, ?_⟩
  have e : toDigits darkSampled.data.volt darkSampled =
      drawDigits (raiseError .range { darkSampled with
        data.temp := BitVec.ofInt 16 (temperatureOf darkSampled.data.volt darkSampled.cfg.val.offsetMv) }) := by
    have hv : darkSampled.data.volt = 0 := by decide +kernel
    have hc : darkSampled.cfg.val.offsetMv = 500 := by decide +kernel
    simp [toDigits, temperatureOf, hv, hc]
  have hd : darkSampled.draws = 2 := by decide +kernel
  show (finish (convertAndShow darkSampled)).skip = true
  rw [convertAndShow, e]
  simp only [drawDigits, drawDigit, raiseError, hd, h2, h3, h4]
  rw [showBody]
  have e2 : ∀ s : State, s.cfg = darkUnit → s.draws = 5 → sentinel (encodeFrame 1 10 1 s) = true := by
    intro s hs hn
    simp only [encodeFrame, raiseErrorIf, show (digitTooBig 1 || digitTooBig 10 || digitTooBig 1) = true by decide,
      if_true, enc, raiseError, drawByte, hs, hn, show romRead darkUnit 0 1 = some 0 by decide,
      show romRead darkUnit 1 10 = none by decide, show romRead darkUnit 2 1 = some 0 by decide, sentinel, h5,
      withPoint]
    decide
  have hs : darkSampled.cfg = darkUnit := by decide +kernel
  rw [e2 _ (by exact hs) rfl, if_pos rfl]
  rw [State.skip, finish_status, getLsbD_clearBit_ne (by decide)]
  exact getLsbD_setSkip true 1 _

theorem witness_CycleEqualsProgram : AdcLive (idle 367) (tenTimes 367) := witness_SampleResult

/-- The clause of the ticks. -/
theorem witness_NopChangesNothing : (idle 367).seq.st = .idle := rfl

/-- A flag that is set, and stays set under a command and an edge. -/
theorem witness_ErrorFlagsAreSticky : (after .latch (idle 367)).err .frame = true ∧ quiet.rst = false ∧
    resetting.rst = true ∧ ∃ t, exec .nop (after .latch (idle 367)) = .next t :=
  ⟨by decide, rfl, rfl, _, rfl⟩

/-- A command that changes each flag a command can change. -/
theorem witness_WhoRaisesWhat :
    (after (.encode 3 false 0) (idle 367)).err .arg ≠ (idle 367).err .arg ∧
    (after (.convert 499) (idle 367)).err .range ≠ (idle 367).err .range ∧
    (after .latch (idle 367)).err .frame ≠ (idle 367).err .frame ∧
    ∃ t, exec .latch (idle 367) = .next t := ⟨by decide, by decide, by decide, _, rfl⟩

theorem witness_DutifulCallerRaisesNothing :
    (Instr.encode 1 true 9).callerOk (idle 367).cfg.val = true ∧ Instr.encode 1 true 9 ≠ .cycle ∧
    (Instr.encode 1 true 9 = .latch → (idle 367).data.frcnt = 24) ∧
    Instr.latch.callerOk (idle 367).cfg.val = true ∧
    (afterAll [.pushbyte 1, .pushbyte 2, .pushbyte 3] (idle 367)).data.frcnt = 24 ∧
    ∃ t, exec (.encode 1 true 9) (idle 367) = .next t :=
  ⟨by decide, by decide, by decide, by decide, by decide +kernel, _, rfl⟩

/-- A state that meets the invariant in `IDLE`. -/
theorem inv_idle : Inv (idle 367) := by constructor <;> decide

/-- A state that meets the invariant in a bit cell. -/
theorem inv_lowPhase : Inv lowPhase := by constructor <;> decide

/-- A state that meets the invariant in a latch pulse. -/
theorem inv_latchHighPhase : Inv latchHighPhase := by constructor <;> decide

theorem witness_StepKeepsInvariant : Inv (presented 0x8000) ∧ ∃ t, step (presented 0x8000) = .next t :=
  ⟨by constructor <;> decide, _, rfl⟩

theorem witness_EdgeKeepsInvariant : Inv lowPhase := inv_lowPhase

/-- An edge that changes no display, in `B_LOW`. -/
theorem witness_DisplayChangesAtLatchOnly :
    ¬ (lowPhase.seq.st = .lLow ∧ lowPhase.seq.tmr ≤ 1 ∧ quiet.rst = false) ∧
    ¬ (lowPhase.seq.st = .lHigh ∧ quiet.rst = true) := by decide

/-- One state for each clause; the pulse lasts 50 ticks. -/
theorem witness_PulsesHeldLongEnough :
    (lowPhase.seq.st = .bLow ∧ lowPhase.seq.tmr ≤ 1 ∧ 49 < lowPhase.cfg.val.pulseTicks) ∧
    (latchLowPhase.seq.st = .lLow ∧ latchLowPhase.seq.tmr ≤ 1) := by decide +kernel

theorem witness_MinimumDurations : Watch.rested (idle 367).cfg.val.settleTicks ⟨false, false, 0, some 1000⟩ ∧
    ∃ t, exec .cycle (idle 367) = .next t := by
  refine ⟨⟨rfl, rfl, ?_⟩, _, rfl⟩
  intro n h
  cases h
  decide

theorem witness_LogNeverOverstatesTime : Inv lowPhase := inv_lowPhase

/-- A machine in `S_WAIT` that sees its conversion complete. -/
def waitPhase : State :=
  { idle 367 with
    seq := { st := .sWait, cmdr := 0x1000, shr := 0, bitix := 0, byteix := 0, tmr := 0, donef := false }
    status := 1
    adc := ⟨true, 367, none, [], 0⟩ }

/-- One state for each clause, with the last tick of each hold among the `k`. -/
theorem witness_ResetLogsWhatPassed :
    (Inv lowPhase ∧ lowPhase.seq.st = .bLow ∧ lowPhase.seq.tmr = 1 ∧ 49 < lowPhase.cfg.val.pulseTicks) ∧
    (Inv latchLowPhase ∧ latchLowPhase.seq.st = .lLow ∧ latchLowPhase.seq.tmr = 1) ∧
    (Inv waitPhase ∧ waitPhase.seq.st = .sWait ∧ waitPhase.adc.done = true ∧
      999 < waitPhase.cfg.val.settleTicks) ∧ resetting.rst = true :=
  ⟨⟨inv_lowPhase, by decide⟩, ⟨by constructor <;> decide, by decide⟩, ⟨by constructor <;> decide, by decide⟩, rfl⟩

/-- R116: a reset at the first tick of the high phase leaves a pulse of one tick in the log. -/
theorem test_reset_cuts_pulse :
    (tick resetting highPhase).log =
      [.hold 50, .ev .clkRise, .hold 1, .ev .clkFall, .ev (.data false)] := by decide

/-- R116: a reset at the first tick of the settle wait leaves no `SETTLE`. -/
theorem test_reset_cuts_settle :
    (tick resetting (tick quiet waitPhase)).log = [.ev (.adcDone 367), .hold 1] := by decide

/-- At rest, with a word of each of the four kinds. -/
theorem witness_SequencerRunsShortCommands : Inv (idle 367) ∧ AtRest (idle 367) ∧ decode 0 = .ok .nop ∧
    decode 0x24E2 = .ok (.convert 1250) ∧ decode 0x3035 = .ok (.encode 1 true 5) ∧
    decode 0xFFFF = .error (.unusedOpcode 15) ∧ ∃ t, runWord 0xFFFF (idle 367) = .next t :=
  ⟨inv_idle, ⟨rfl, rfl⟩, by decide, by decide, by decide, by decide, _, rfl⟩

theorem witness_SequencerRunsSerialCommands : Inv (idle 367) ∧ AtRest (idle 367) ∧
    decode 0x4001 = .ok (.pushbit true) ∧ decode 0x50A5 = .ok (.pushbyte 0xA5) ∧ decode 0x6000 = .ok .latch ∧
    ∃ t, runWord 0x50A5 (idle 367) = .next t :=
  ⟨inv_idle, ⟨rfl, rfl⟩, by decide, by decide, by decide, _, rfl⟩

/-- The clause of a frame that is shown; the other clause is that of `witness_ShowSentinel_suppressed`. -/
theorem witness_SequencerRunsShow : Inv (idle 367) ∧ AtRest (idle 367) ∧
    (after (.showDigits 2 3 4) (idle 367)).skip = false ∧
    ∃ t, exec (.showDigits 2 3 4) (idle 367) = .next t :=
  ⟨inv_idle, ⟨rfl, rfl⟩, by decide +kernel, _, rfl⟩

theorem witness_SequencerRunsSample : Inv (idle 367) ∧ AtRest (idle 367) ∧ AdcLive (idle 367) (tenTimes 367) ∧
    ∃ t, exec .sample (idle 367) = .next t := ⟨inv_idle, ⟨rfl, rfl⟩, witness_SampleResult, _, rfl⟩

theorem witness_SequencerRunsCycle : Inv (idle 367) ∧ AtRest (idle 367) ∧ AdcLive (idle 367) (tenTimes 367) ∧
    (after .cycle (idle 367)).skip = false ∧ ∃ t, exec .cycle (idle 367) = .next t :=
  ⟨inv_idle, ⟨rfl, rfl⟩, witness_SampleResult, by decide +kernel, _, rfl⟩

theorem witness_SequencerStalls : Inv stalling ∧ AtRest stalling ∧
    AdcStalls stalling 3 [⟨1, 100⟩, ⟨1, 200⟩, ⟨1, 300⟩] ∧ ∃ t, exec .cycle stalling = .next t :=
  ⟨by constructor <;> decide, ⟨rfl, rfl⟩, witness_StallHangs.1, _, rfl⟩

theorem witness_SequencerRefinesCommandLevel : Inv (idle 367) ∧ AtRest (idle 367) ∧
    (after .latch (idle 367)).seq.st = .idle ∧ ∃ t, runWord 0x6000 (idle 367) = .next t :=
  ⟨inv_idle, ⟨rfl, rfl⟩, by decide, _, rfl⟩

end Sys2Proof.Tests
end

section
/-! SUPPORT. Which configurations are refused, and what the zero-digit check of the ROM says cell by cell
(00_scope.md R5, 20_memory.md R34). -/

namespace Sys2Proof.Machine

/-- The defined cells of the digit 0 stand at 0, 16 and 32, one for each position (20_memory.md R36). -/
theorem romAddrs_zeroDigit : ∀ a ∈ romAddrs, a % 16 = 0 ↔ a = 0 ∨ a = 16 ∨ a = 32 := by decide

/-- The digit 0 is nowhere dark exactly when the cell of each position holds another byte than 0x00. -/
theorem not_zeroDigitDark_iff {m : List Host.Cell} (hm : m.map Prod.fst = romAddrs) :
    ¬ Memory.zeroDigitDark m = true ↔
      (∀ b, (0, b) ∈ m → b ≠ 0) ∧ (∀ b, (16, b) ∈ m → b ≠ 0) ∧ (∀ b, (32, b) ∈ m → b ≠ 0) := by
  have haddr : ∀ a b, (a, b) ∈ m → (a % 16 = 0 ↔ a = 0 ∨ a = 16 ∨ a = 32) := fun a b hab =>
    romAddrs_zeroDigit a (hm ▸ List.mem_map_of_mem hab)
  have hdark : ¬ Memory.zeroDigitDark m = true ↔ ∀ a b, (a, b) ∈ m → a % 16 = 0 → b ≠ 0 := by
    simp only [Memory.zeroDigitDark, List.any_eq_true, Bool.and_eq_true, beq_iff_eq, Prod.exists, not_exists,
      not_and, ne_eq]
  rw [hdark]
  constructor
  · intro h
    exact ⟨fun b hb => h 0 b hb rfl, fun b hb => h 16 b hb rfl, fun b hb => h 32 b hb rfl⟩
  · rintro ⟨h0, h16, h32⟩ a b hab ha
    obtain rfl | rfl | rfl := (haddr a b hab).mp ha
    · exact h0 b hab
    · exact h16 b hab
    · exact h32 b hab

/-- An illegal configuration gets no machine. -/
theorem boot_illegal {c : Config} (h : c.legal = false) :
    ∃ e, State.boot c = .refused (.illegalConfiguration e) := by
  unfold State.boot
  split
  next hnone => simp [Config.legal, hnone] at h
  next e _ => exact ⟨e, rfl⟩

/-- A legal configuration gets the machine after reset. -/
theorem boot_legal (c : LegalConfig) : State.boot c.val = .next (State.resetWith c) := by
  unfold State.boot
  split
  next => rfl
  next e he => simpa [Config.legal, he] using c.ok

/-- Settles O8. Both products follow from the upper ends of the ranges. -/
theorem illegalConfigurationRefused : Obligations.IllegalConfigurationRefused := by
  refine ⟨fun c => ?_, fun c hc => ?_, fun c => boot_illegal, fun c h0 => boot_illegal ?_, boot_legal⟩
  · rw [c.legal_iff, Config.tPulseMinUs]
    have hrom := @not_zeroDigitDark_iff c.segRom
    tauto
  · obtain ⟨⟨-, hn⟩, ⟨-, hs⟩, -⟩ := c.legal_iff.mp hc
    constructor <;> omega
  · rw [← Bool.not_eq_true, c.legal_iff]
    rintro ⟨⟨hn, -⟩, -⟩
    omega

end Sys2Proof.Machine
end

section
/-! SUPPORT. No operation writes the configuration: one lemma for each operation that commands and edges
are made of (00_scope.md R4). -/

namespace Sys2Proof.Machine

/-! ### The bodies of the commands -/

@[simp] theorem enc_cfg (p : Position) (v : Digit) (dp : Bool) (s : State) : (enc p v dp s).2.cfg = s.cfg := by
  obtain ⟨n, h⟩ := enc_state p v dp s
  rw [h]

@[simp] theorem encodeBody_cfg (p : Position) (dp : Bool) (v : Digit) (s : State) :
    (encodeBody p dp v s).cfg = s.cfg := by simp [encodeBody]

@[simp] theorem toDigits_cfg (v : Millivolts) (s : State) : (toDigits v s).cfg = s.cfg := by
  obtain ⟨_, _, _, _, _, h, _⟩ := toDigits_state v s
  rw [h]

@[simp] theorem encodeFrame_cfg (t o h : Digit) (s : State) : (encodeFrame t o h s).cfg = s.cfg := by
  obtain ⟨_, _, _, _, e, _⟩ := encodeFrame_state t o h s
  rw [e]

@[simp] theorem pushBit_cfg (b : Bool) (s : State) : (pushBit b s).cfg = s.cfg := by rw [pushBit_eq]
@[simp] theorem pushByte_cfg (x : Byte) (s : State) : (pushByte x s).cfg = s.cfg := by rw [pushByte_eq]
@[simp] theorem latchPulse_cfg (s : State) : (latchPulse s).cfg = s.cfg := by rw [latchPulse_eq]
@[simp] theorem sendFrame_cfg (s : State) : (sendFrame s).cfg = s.cfg := by rw [sendFrame_eq]
@[simp] theorem frameCheck_cfg (s : State) : (frameCheck s).cfg = s.cfg := by simp [frameCheck]
@[simp] theorem average_cfg (s : State) : (average s).cfg = s.cfg := rfl

@[simp] theorem showBody_cfg (t o h : Digit) (s : State) : (showBody t o h s).cfg = s.cfg := by
  cases hs : sentinel (encodeFrame t o h s) with
  | true => simp [showBody_suppressed hs]
  | false => simp [showBody_shown hs]

@[simp] theorem convertAndShow_cfg (s : State) : (convertAndShow s).cfg = s.cfg := by simp [convertAndShow]

/-! ### The averaging loop, with what follows it -/

@[simp] theorem adcConvert_cfg (s : State) : (adcConvert s).2.cfg = s.cfg := rfl

/-- What follows the sample phase follows its loop, after the average. -/
theorem sampleVoltage_conclude (rest : State → State) (s : State) :
    (sampleVoltage s).conclude rest =
      (sampleLoop s.cfg.val.nSamples (clearSum s)).conclude fun u => rest (average u) := by
  unfold sampleVoltage
  split
  next u hu => rw [hu]; rfl
  next u hu => rw [hu]; rfl

/-- Whether or not the ADC stalls, the loop leaves the configuration alone. -/
theorem sampleLoop_conclude_cfg {rest : State → State} (hrest : ∀ u, (rest u).cfg = u.cfg) (n : Nat) (s : State) :
    ((sampleLoop n s).conclude rest).cfg = s.cfg := by
  induction n generalizing s with
  | zero => simp [sampleLoop, Phase.conclude, hrest]
  | succ n ih =>
    have hc := adcConvert_cfg s
    unfold sampleLoop
    split
    next r u hu => rw [ih, settle_cfg, accumulate_cfg, ← hc, hu]
    next u hu => rw [← hc, hu]; rfl

/-- Whether or not the ADC stalls, the sample phase and what follows it leave the configuration alone. -/
theorem sampleVoltage_conclude_cfg {rest : State → State} (hrest : ∀ u, (rest u).cfg = u.cfg) (s : State) :
    ((sampleVoltage s).conclude rest).cfg = s.cfg := by
  rw [sampleVoltage_conclude, sampleLoop_conclude_cfg (fun u => (hrest _).trans (average_cfg u)), clearSum_cfg]

/-! ### Whole commands -/

/-- An operation leaves the configuration alone when its body does. -/
theorem operation_cfg {w : CmdWord} {body : State → State} {s t : State} (hbody : ∀ u, (body u).cfg = u.cfg)
    (h : operation w body s = .next t) : t.cfg = s.cfg := by
  obtain rfl : finish (body (accept w s)) = t := by simpa [operation] using h
  rw [finish_cfg, hbody, accept_cfg]

/-- No command writes the configuration. -/
theorem exec_cfg {i : Instr} {s t : State} (h : exec i s = .next t) : t.cfg = s.cfg := by
  cases i with
  | nop => exact operation_cfg (fun _ => rfl) h
  | sample => cases h; exact sampleVoltage_conclude_cfg (fun _ => rfl) _
  | convert mv => exact operation_cfg (toDigits_cfg mv) h
  | encode p dp val => exact operation_cfg (encodeBody_cfg p dp val) h
  | pushbit b => exact operation_cfg (body := fun u => driveData false (pushBit b u)) (by simp) h
  | pushbyte x => exact operation_cfg (body := fun u => driveData false (pushByte x u)) (by simp) h
  | latch => exact operation_cfg (body := fun u => latchPulse (frameCheck u)) (by simp) h
  | showDigits t o h' => exact operation_cfg (showBody_cfg t o h') h
  | cycle => cases h; exact sampleVoltage_conclude_cfg convertAndShow_cfg _

/-- No word that is accepted, legal or not, writes the configuration. -/
theorem runWord_cfg {w : CmdWord} {s t : State} (h : runWord w s = .next t) : t.cfg = s.cfg := by
  unfold runWord at h
  split at h
  · exact exec_cfg h
  · exact operation_cfg (raiseError_cfg .cmd) h

/-! ### The edges of the reference sequencer -/

@[simp] theorem enterLow_cfg (b : Bool) (s : State) : (enterLow b s).cfg = s.cfg := rfl
@[simp] theorem startByte_cfg (x : Byte) (s : State) : (startByte x s).cfg = s.cfg := rfl
@[simp] theorem enterLatch_cfg (s : State) : (enterLatch s).cfg = s.cfg := rfl
@[simp] theorem enterTrigger_cfg (s : State) : (enterTrigger s).cfg = s.cfg := rfl
@[simp] theorem endSerial_cfg (s : State) : (endSerial s).cfg = s.cfg := rfl
@[simp] theorem endLow_cfg (s : State) : (endLow s).cfg = s.cfg := rfl
@[simp] theorem endLatchLow_cfg (s : State) : (endLatchLow s).cfg = s.cfg := rfl
@[simp] theorem endLatchHigh_cfg (s : State) : (endLatchHigh s).cfg = s.cfg := rfl
@[simp] theorem endExec_cfg (s : State) : (endExec s).cfg = s.cfg := by simp [endExec]

@[simp] theorem endByte_cfg (s : State) : (endByte s).cfg = s.cfg := by
  unfold endByte
  dsimp only
  split_ifs <;> simp

@[simp] theorem endCell_cfg (s : State) : (endCell s).cfg = s.cfg := by
  unfold endCell
  dsimp only
  split_ifs <;> simp

@[simp] theorem endWait_cfg (s : State) : (endWait s).cfg = s.cfg := by
  unfold endWait
  split <;> simp

@[simp] theorem endSettle_cfg (s : State) : (endSettle s).cfg = s.cfg := by
  unfold endSettle
  dsimp only
  split <;> simp

@[simp] theorem endAverage_cfg (s : State) : (endAverage s).cfg = s.cfg := by
  unfold endAverage
  dsimp only
  split <;> simp

@[simp] theorem endConvert_cfg (s : State) : (endConvert s).cfg = s.cfg := by
  unfold endConvert
  split <;> simp

@[simp] theorem startFrame_cfg (s : State) : (startFrame s).cfg = s.cfg := by
  unfold startFrame
  split <;> simp

@[simp] theorem endEncode_cfg (s : State) : (endEncode s).cfg = s.cfg := by
  unfold endEncode
  split <;> simp

@[simp] theorem timedNext_cfg (st : SeqState) (s : State) : (timedNext st s).cfg = s.cfg := by
  cases st <;> simp [timedNext]

theorem countdown_cfg {next : State → State} (hnext : ∀ u, (next u).cfg = u.cfg) (s : State) :
    (countdown next s).cfg = s.cfg := by
  unfold countdown
  split
  · exact hnext s
  · rfl

/-- No edge of a busy machine writes the configuration. -/
@[simp] theorem busyEdge_cfg (s : State) : (busyEdge s).cfg = s.cfg := by
  cases ht : s.seq.st.timed with
  | true => rw [busyEdge_timed ht, countdown_cfg (timedNext_cfg _)]
  | false =>
    cases hst : s.seq.st with
    | idle | nExec | eCalc | cCalc | sTrig | sWait | sCalc | dEnc => simp [busyEdge, hst]
    | sSettle | bLow | bHigh | lLow | lHigh => simp [hst, SeqState.timed] at ht

/-- No edge writes the configuration, whatever the host drives. -/
@[simp] theorem tick_cfg (inp : TickIn) (s : State) : (tick inp s).cfg = s.cfg := by
  show (coreEdge inp s).cfg = s.cfg
  unfold coreEdge
  split_ifs
  · rfl
  · split
    next w _ =>
      obtain ⟨-, -, -, hcfg, -⟩ := acceptEdge_common w s
      exact hcfg
    next => rfl
  · exact busyEdge_cfg s

@[simp] theorem ticks_cfg (n : Nat) (s : State) : (ticks n s).cfg = s.cfg := by
  induction n generalizing s with
  | zero => rfl
  | succ n ih => rw [ticks, ih, tick_cfg]

@[simp] theorem cutShort_cfg (w : CmdWord) (k : Nat) (s : State) : (cutShort w k s).cfg = s.cfg := by
  simp [cutShort]

/-- No action of the host writes the configuration. -/
theorem hostAction_cfg {a : HostAction} {rest : List HostAction} {s t : State}
    (h : hostAction a rest s = .next t) : t.cfg = s.cfg := by
  cases a with
  | pause => cases h; simp
  | reset => cases h; simp
  | issue w =>
    simp only [hostAction] at h
    split at h
    · rw [runWord_cfg h, withHost_cfg]
    · cases h; simp
  | issueThenReset w k =>
    simp only [hostAction] at h
    split at h <;> cases h <;> simp

/-- Settles O9, by what one action of the host can do. -/
theorem configurationNeverWritten : Obligations.ConfigurationNeverWritten := by
  refine ⟨fun s t h => ?_, fun s inp => tick_cfg inp s⟩
  unfold step at h
  split at h
  · cases h; exact tick_cfg quiet s
  · exact hostAction_cfg h

end Sys2Proof.Machine
end

section
/-! SUPPORT. What the log says of time, with the hold in progress, over each edge (00_scope.md R7). -/

namespace Sys2Proof.Machine

/-- The ticks that the log tells of at this tick: those of its holds, and those that passed of the hold in
progress. -/
def toldTicks (s : State) : Nat := loggedTicks s.log + runningTicks s

/-! ### The log and the hold in progress -/

@[simp] theorem loggedTicks_nil : loggedTicks [] = 0 := rfl
@[simp] theorem loggedTicks_ev (e : Event) (l : List LogEntry) : loggedTicks (.ev e :: l) = loggedTicks l := rfl
@[simp] theorem loggedTicks_hold (n : Nat) (l : List LogEntry) :
    loggedTicks (.hold n :: l) = n + loggedTicks l := rfl

@[simp] theorem loggedTicks_append (l m : List LogEntry) :
    loggedTicks (l ++ m) = loggedTicks l + loggedTicks m := by
  induction l with
  | nil => simp
  | cons x l ih => cases x <;> simp [ih, Nat.add_assoc]

/-- No hold is in progress in a state that is not timed. -/
theorem toldTicks_untimed {s : State} (h : s.seq.st.timed = false) : toldTicks s = loggedTicks s.log := by
  simp [toldTicks, runningTicks, h]

/-- Nothing of a hold has passed when `TMR` was just loaded. -/
theorem toldTicks_enterTimed {st : SeqState} {n : Nat} {s : State} (h : holdTicks s.cfg st = n) :
    toldTicks (enterTimed st n s) = loggedTicks s.log := by
  simp [toldTicks, runningTicks, h]

/-! ### The states that an edge enters -/

theorem toldTicks_finish (s : State) : toldTicks (finish s) = loggedTicks s.log := toldTicks_untimed rfl

theorem toldTicks_enterLow (b : Bool) (s : State) : toldTicks (enterLow b s) = loggedTicks s.log := by
  rw [enterLow, toldTicks_enterTimed]
  · simp
  · rfl

theorem toldTicks_startByte (x : Byte) (s : State) : toldTicks (startByte x s) = loggedTicks s.log :=
  toldTicks_enterLow _ _

theorem toldTicks_enterLatch (s : State) : toldTicks (enterLatch s) = loggedTicks s.log :=
  toldTicks_enterTimed rfl

theorem toldTicks_enterTrigger (s : State) : toldTicks (enterTrigger s) = loggedTicks s.log := by
  rw [toldTicks_untimed rfl]
  simp [enterTrigger]

theorem toldTicks_endSerial (s : State) : toldTicks (endSerial s) = loggedTicks s.log := by
  rw [toldTicks_untimed rfl]
  simp [endSerial]

/-! ### The ends of the timed states: the whole hold enters the log -/

theorem toldTicks_endByte (s : State) : toldTicks (endByte s) = loggedTicks s.log := by
  unfold endByte
  dsimp only
  split_ifs
  · rw [toldTicks_startByte, selectByte_log]
  · rw [toldTicks_enterLatch]
    simp
  · exact toldTicks_endSerial s

theorem toldTicks_endCell (s : State) : toldTicks (endCell s) = loggedTicks s.log + s.cfg.val.pulseTicks := by
  unfold endCell
  dsimp only
  split_ifs <;> simp [toldTicks_endSerial, toldTicks_endByte, toldTicks_enterLow]

theorem toldTicks_endLow (s : State) : toldTicks (endLow s) = loggedTicks s.log + s.cfg.val.pulseTicks := by
  rw [endLow, toldTicks_enterTimed]
  · simp
  · rfl

theorem toldTicks_endLatchLow (s : State) :
    toldTicks (endLatchLow s) = loggedTicks s.log + s.cfg.val.pulseTicks := by
  rw [endLatchLow, toldTicks_enterTimed]
  · simp
  · rfl

theorem toldTicks_endLatchHigh (s : State) :
    toldTicks (endLatchHigh s) = loggedTicks s.log + s.cfg.val.pulseTicks := by
  rw [toldTicks_untimed rfl]
  simp [endLatchHigh]

theorem toldTicks_endSettle (s : State) : toldTicks (endSettle s) = loggedTicks s.log + s.cfg.val.settleTicks := by
  unfold endSettle
  dsimp only
  split
  · rw [toldTicks_untimed rfl]
    simp
  · rw [toldTicks_enterTrigger]
    simp

/-- The end of a timed state logs its whole hold, and no further hold has begun to pass. -/
theorem toldTicks_timedNext {st : SeqState} (h : st.timed = true) (s : State) :
    toldTicks (timedNext st s) = loggedTicks s.log + holdTicks s.cfg st := by
  cases st with
  | sSettle => exact toldTicks_endSettle s
  | bLow => exact toldTicks_endLow s
  | bHigh => exact toldTicks_endCell s
  | lLow => exact toldTicks_endLatchLow s
  | lHigh => exact toldTicks_endLatchHigh s
  | idle | nExec | eCalc | cCalc | sTrig | sWait | sCalc | dEnc => cases h

/-! ### The ends of the other states: no tick enters the log, but the one of the trigger pulse -/

theorem toDigits_log (v : Millivolts) (s : State) : (toDigits v s).log = s.log := by
  obtain ⟨_, _, _, _, _, h, _⟩ := toDigits_state v s
  rw [h]

theorem encodeFrame_log (t o h : Digit) (s : State) : (encodeFrame t o h s).log = s.log := by
  obtain ⟨_, _, _, _, e, _⟩ := encodeFrame_state t o h s
  rw [e]

theorem encodeBody_log (p : Position) (dp : Bool) (v : Digit) (s : State) :
    (encodeBody p dp v s).log = s.log := by
  obtain ⟨n, h⟩ := enc_state p v dp s
  simp [encodeBody, h]

theorem toldTicks_endExec (s : State) : toldTicks (endExec s) = loggedTicks s.log := by
  rw [endExec, toldTicks_finish, raiseErrorIf_log]

theorem toldTicks_endConvert (s : State) : toldTicks (endConvert s) = loggedTicks s.log := by
  unfold endConvert
  split
  · rw [toldTicks_untimed rfl]
    exact congrArg loggedTicks (toDigits_log _ s)
  · rw [toldTicks_finish, toDigits_log]

theorem toldTicks_endAverage (s : State) : toldTicks (endAverage s) = loggedTicks s.log := by
  unfold endAverage
  dsimp only
  split <;> exact toldTicks_untimed rfl

theorem toldTicks_startFrame (s : State) : toldTicks (startFrame s) = loggedTicks s.log := by
  unfold startFrame
  dsimp only
  split
  · exact toldTicks_finish _
  · exact toldTicks_startByte _ _

theorem toldTicks_endEncode (s : State) : toldTicks (endEncode s) = loggedTicks s.log := by
  unfold endEncode
  split <;> rw [toldTicks_startFrame, encodeFrame_log]

theorem toldTicks_endWait {s : State} (h : s.seq.st = .sWait) : toldTicks (endWait s) = loggedTicks s.log := by
  unfold endWait
  split
  · rw [toldTicks_enterTimed]
    · simp
    · rfl
  · exact toldTicks_untimed (by rw [h]; rfl)

/-! ### One edge -/

/-- An edge of a timed state counts one tick more of its hold, or ends it with its last tick. -/
theorem toldTicks_busyEdge_timed {s : State} (h : s.seq.st.timed = true) :
    toldTicks (busyEdge s) ≤ toldTicks s + 1 := by
  have hs : toldTicks s = loggedTicks s.log + (holdTicks s.cfg s.seq.st - s.seq.tmr) := by
    simp [toldTicks, runningTicks, h]
  rw [busyEdge_timed h, countdown, hs]
  split
  · rw [toldTicks_timedNext h]
    omega
  · have hcount : toldTicks { s with seq.tmr := s.seq.tmr - 1 } =
        loggedTicks s.log + (holdTicks s.cfg s.seq.st - (s.seq.tmr - 1)) := by
      simp [toldTicks, runningTicks, h]
    rw [hcount]
    omega

/-- An edge of a state that is not timed logs at most one tick. -/
theorem toldTicks_busyEdge_untimed {s : State} (h : s.seq.st.timed = false) :
    toldTicks (busyEdge s) ≤ loggedTicks s.log + 1 := by
  cases hst : s.seq.st with
  | idle => simp [busyEdge, hst, toldTicks_untimed h]
  | nExec => simp [busyEdge, hst, toldTicks_endExec]
  | eCalc => simp [busyEdge, hst, toldTicks_finish, encodeBody_log]
  | cCalc => simp [busyEdge, hst, toldTicks_endConvert]
  | sTrig =>
    have htrig : toldTicks { dropTrigger s with seq.st := .sWait } = loggedTicks s.log + 1 := by
      rw [toldTicks_untimed rfl]
      simp
    simp only [busyEdge, hst, htrig, Nat.le_refl]
  | sWait => simp [busyEdge, hst, toldTicks_endWait hst]
  | sCalc => simp [busyEdge, hst, toldTicks_endAverage]
  | dEnc => simp [busyEdge, hst, toldTicks_endEncode]
  | sSettle | bLow | bHigh | lLow | lHigh => simp [hst, SeqState.timed] at h

/-- An edge that accepts a word logs no tick. -/
theorem toldTicks_acceptEdge (w : CmdWord) (s : State) : toldTicks (acceptEdge w s) = loggedTicks s.log := by
  cases hd : decode w with
  | error e => simp only [acceptEdge, hd]; exact toldTicks_untimed (by simp [firstState, hd, SeqState.timed])
  | ok i =>
    cases i with
    | nop | convert _ | encode _ _ _ | showDigits _ _ _ =>
      simp only [acceptEdge, hd]
      exact toldTicks_untimed (by simp [firstState, hd, SeqState.timed])
    | sample | cycle => simp [acceptEdge, hd, toldTicks_enterTrigger]
    | pushbit b => simp [acceptEdge, hd, toldTicks_enterLow]
    | pushbyte x => simp [acceptEdge, hd, toldTicks_startByte]
    | latch => simp [acceptEdge, hd, toldTicks_enterLatch, frameCheck]

/-- Of the hold that a reset ends, at most the tick that ends with the reset edge was not told yet. -/
theorem elapsedTicks_le_running (s : State) : elapsedTicks s ≤ runningTicks s + 1 := by
  unfold elapsedTicks runningTicks
  cases ht : s.seq.st.timed with
  | true => simp only [if_true]; omega
  | false =>
    have hone : holdTicks s.cfg s.seq.st ≤ 1 := by
      cases hst : s.seq.st <;> simp [hst, SeqState.timed, holdTicks] at ht ⊢
    omega

theorem loggedTicks_cutHold (s : State) : loggedTicks (cutHold s) = elapsedTicks s := by
  unfold cutHold
  split
  next h => rw [h]; rfl
  next => rfl

theorem loggedTicks_resetEvents (p : Pins) : loggedTicks (resetEvents p) = 0 := by
  unfold resetEvents
  split_ifs <;> rfl

/-- A reset logs the ticks that passed of the hold it ends, and no more. -/
theorem toldTicks_resetCore (s : State) : toldTicks (resetCore s) ≤ toldTicks s + 1 := by
  have hle := elapsedTicks_le_running s
  rw [toldTicks_untimed rfl, resetCore_log, loggedTicks_append, loggedTicks_append, loggedTicks_cutHold,
    loggedTicks_resetEvents, toldTicks]
  omega

/-- Whatever the state and whatever the host drives, an edge tells of at most one tick more. -/
theorem toldTicks_tick (inp : TickIn) (s : State) : toldTicks (tick inp s) ≤ toldTicks s + 1 := by
  show toldTicks (coreEdge inp s) ≤ _
  have hlog : loggedTicks s.log ≤ toldTicks s := Nat.le_add_right _ _
  unfold coreEdge
  split_ifs with hrst hidle
  · exact toldTicks_resetCore s
  · split
    next w _ => rw [toldTicks_acceptEdge w s]; omega
    next =>
      have hquiet : toldTicks { s with seq.donef := false } = loggedTicks s.log :=
        toldTicks_untimed (by simp [hidle, SeqState.timed])
      omega
  · cases ht : s.seq.st.timed with
    | true => exact toldTicks_busyEdge_timed ht
    | false => exact (toldTicks_busyEdge_untimed ht).trans (by omega)

/-- Settles O57. The bound needs no invariant: a hold is loaded in full, and a subtraction that stops at 0
can only tell of less. -/
theorem logNeverOverstatesTime : Obligations.LogNeverOverstatesTime :=
  fun s inp _ => toldTicks_tick inp s

end Sys2Proof.Machine
end

section
/-! SUPPORT. The invariant in parts: what holds in every state of the sequencer (`Sound`), what the pins and the
working registers are in one of them (`Fits`), and what an operation that is not timed keeps (`Rested`). -/

namespace Sys2Proof.Machine

/-! ### The parts -/

/-- What the invariant says of a status word alone (10_state.md R23, 45_display_controller.md R92 item 1). -/
structure StatusSound (st : BitVec 8) : Prop where
  reserved : st.getLsbD 6 = false ∧ st.getLsbD 7 = false
  skipNeedsArg : st.getLsbD 1 = true → st.getLsbD 3 = true

/-- What the invariant says of the data registers in every state of the sequencer, given whether a range error
is recorded (10_state.md R10 to R15). -/
structure DataSound (c : LegalConfig) (range : Bool) (d : DataRegs) : Prop where
  digits : range = false → d.tens.toNat ≤ 9 ∧ d.ones.toNat ≤ 9 ∧ d.tenths.toNat ≤ 9
  count : d.cnt.toNat ≤ c.val.nSamples
  sum : d.acc.toNat ≤ 1023 * d.cnt.toNat
  voltage : d.volt.toNat = d.avg.toNat * c.val.scale
  temperature : -4095 ≤ d.temp.toInt ∧ d.temp.toInt ≤ 4095

/-- The clauses of the invariant that do not ask which state `ST` is. -/
structure Sound (s : State) : Prop where
  clearHigh : s.pins.srClrN = true
  status : StatusSound s.status
  data : DataSound s.cfg (s.err .range) s.data

/-- The pins and the working registers of the serializer are as they have to be in this state of the
sequencer (10_state.md R20, R30, R142). -/
structure Fits (st : SeqState) (s : State) : Prop where
  trigger : s.pins.adcStart = true ↔ st = .sTrig
  clk : s.pins.srClk = true ↔ st = .bHigh
  latch : s.pins.srLatch = true ↔ st = .lHigh
  data : s.pins.srData = true → st.pushing = true
  bitix : s.seq.bitix.toNat ≤ 8 ∧ (s.seq.bitix ≠ 0 → st.pushing = true)
  byteix : s.seq.byteix.toNat ≤ 2 ∧ (s.seq.byteix ≠ 0 → st.pushing = true)

/-- An operation is in progress: `BUSY` is 1 and `done` is 0 (10_state.md R24, R29). -/
structure Running (s : State) : Prop where
  busy : s.busy = true
  notDone : s.seq.donef = false

/-- The output pins as reset leaves them and as they are between two operations (10_state.md R30, R31). -/
def Pins.low : Pins := ⟨false, false, false, false, true⟩

/-- Sound, with every pin at rest, the working registers at 0 and no hold in progress: what the body of an
operation finds and what it leaves. -/
structure Rested (s : State) : Prop where
  sound : Sound s
  pins : s.pins = Pins.low
  bitix : s.seq.bitix = 0
  byteix : s.seq.byteix = 0
  tmr : s.seq.tmr = 0

/-- Is `ST` a state in which every pin is at rest and the working registers of the serializer are 0? -/
def SeqState.still (st : SeqState) : Bool := !st.pushing && st != .sTrig && st != .lHigh

/-- The data registers without those that the invariant leaves free: the patterns and `FRCNT`. -/
def DataRegs.results (d : DataRegs) : DataRegs := { d with pat := 0, p0 := 0, p1 := 0, p2 := 0, frcnt := 0 }

/-! ### From the invariant to its parts and back -/

theorem Inv.sound {s : State} (h : Inv s) : Sound s where
  clearHigh := h.clearHigh
  status := ⟨h.reserved, h.skipNeedsArg⟩
  data := ⟨h.digits, h.count.1, h.sum, h.voltage, h.temperature⟩

theorem Inv.fits {s : State} (h : Inv s) : Fits s.seq.st s :=
  ⟨h.triggerPin, h.clkPin, h.latchPin, h.dataPin, h.bitix, h.byteix⟩

theorem Inv.fits_at {s : State} {st : SeqState} (h : Inv s) (hst : s.seq.st = st) : Fits st s := hst ▸ h.fits

theorem Inv.running {s : State} (h : Inv s) (hst : s.seq.st ≠ .idle) : Running s where
  busy := h.busyIff.mpr hst
  notDone := Bool.eq_false_iff.mpr fun hd => hst (h.doneIdle hd)

theorem Inv.timer_zero {s : State} (h : Inv s) (hst : s.seq.st.timed = false) : s.seq.tmr = 0 := by
  obtain ⟨-, -, hiff⟩ := h.timer
  simpa [hst] using hiff

/-- What being still says of a state of the sequencer. -/
theorem still_iff (st : SeqState) :
    st.still = true ↔ st.pushing = false ∧ st ≠ .sTrig ∧ st ≠ .bHigh ∧ st ≠ .lHigh := by
  cases st <;> decide

/-- In a still state the pins and the working registers have one value each. -/
theorem fits_still_iff {st : SeqState} {s : State} (hst : st.still = true) (hclr : s.pins.srClrN = true) :
    Fits st s ↔ s.pins = Pins.low ∧ s.seq.bitix = 0 ∧ s.seq.byteix = 0 := by
  obtain ⟨hpush, htrig, hhigh, hlatch⟩ := (still_iff st).mp hst
  constructor
  · rintro ⟨trigger, clk, latch, data, ⟨-, bit⟩, ⟨-, byte⟩⟩
    simp only [hpush, htrig, hhigh, hlatch, iff_false, Bool.not_eq_true, Bool.false_eq_true, imp_false,
      not_not] at trigger clk latch data bit byte
    refine ⟨?_, bit, byte⟩
    calc s.pins = ⟨s.pins.adcStart, s.pins.srData, s.pins.srClk, s.pins.srLatch, s.pins.srClrN⟩ := rfl
      _ = Pins.low := by rw [trigger, data, clk, latch, hclr, Pins.low]
  · rintro ⟨hpins, hbit, hbyte⟩
    constructor <;> simp [hpins, hbit, hbyte, Pins.low, htrig, hhigh, hlatch]

/-- A state that is rested fits every still state of the sequencer. -/
theorem Rested.fits {s : State} (h : Rested s) {st : SeqState} (hst : st.still = true) : Fits st s :=
  (fits_still_iff hst h.sound.clearHigh).mpr ⟨h.pins, h.bitix, h.byteix⟩

/-- In a state that is still and not timed the invariant leaves nothing to come to rest. -/
theorem Inv.rested {s : State} (h : Inv s) (hst : s.seq.st.still = true) (ht : s.seq.st.timed = false) :
    Rested s := by
  obtain ⟨hpins, hbit, hbyte⟩ := (fits_still_iff hst h.clearHigh).mp h.fits
  exact ⟨h.sound, hpins, hbit, hbyte, h.timer_zero ht⟩

/-- A hold fits the register that times it. -/
theorem holdTicks_le_max (c : LegalConfig) {st : SeqState} (h : st.timed = true) :
    holdTicks c st ≤ max c.val.pulseTicks c.val.settleTicks := by
  cases st with
  | sSettle => exact Nat.le_max_right _ _
  | bLow | bHigh | lLow | lHigh => exact Nat.le_max_left _ _
  | idle | nExec | eCalc | cCalc | sTrig | sWait | sCalc | dEnc => cases h

/-- The hold of a timed state lasts at least one tick. -/
theorem holdTicks_pos (c : LegalConfig) {st : SeqState} (h : st.timed = true) : 1 ≤ holdTicks c st := by
  cases st with
  | sSettle => exact settle_pos c
  | bLow | bHigh | lLow | lHigh => exact pulse_pos c
  | idle | nExec | eCalc | cCalc | sTrig | sWait | sCalc | dEnc => cases h

/-- A timed state with a part of its hold still to come meets the invariant. -/
theorem inv_timed {s : State} (hst : s.seq.st.timed = true) (hs : Sound s) (hr : Running s)
    (hf : Fits s.seq.st s) (hpos : 1 ≤ s.seq.tmr) (hle : s.seq.tmr ≤ holdTicks s.cfg s.seq.st) : Inv s where
  clearHigh := hs.clearHigh
  reserved := hs.status.reserved
  busyIff := iff_of_true hr.busy (timed_ne_idle hst)
  triggerPin := hf.trigger
  clkPin := hf.clk
  latchPin := hf.latch
  dataPin := hf.data
  doneIdle hd := absurd (hr.notDone.symm.trans hd) Bool.false_ne_true
  bitix := hf.bitix
  byteix := hf.byteix
  timer := ⟨hle.trans (holdTicks_le_max s.cfg hst), hle, iff_of_true (by omega) hst⟩
  skipNeedsArg := hs.status.skipNeedsArg
  digits := hs.data.digits
  count := ⟨hs.data.count, by rintro (h | h) <;> rw [h] at hst <;> cases hst⟩
  sum := hs.data.sum
  voltage := hs.data.voltage
  temperature := hs.data.temperature

/-- A state that is not timed meets the invariant when `TMR` is 0. -/
theorem inv_untimed {s : State} (hst : s.seq.st.timed = false) (hs : Sound s) (hf : Fits s.seq.st s)
    (hbusy : s.busy = true ↔ s.seq.st ≠ .idle) (hdone : s.seq.donef = true → s.seq.st = .idle)
    (ht : s.seq.tmr = 0)
    (hcount : s.seq.st = .sTrig ∨ s.seq.st = .sWait → s.data.cnt.toNat < s.cfg.val.nSamples) : Inv s where
  clearHigh := hs.clearHigh
  reserved := hs.status.reserved
  busyIff := hbusy
  triggerPin := hf.trigger
  clkPin := hf.clk
  latchPin := hf.latch
  dataPin := hf.data
  doneIdle := hdone
  bitix := hf.bitix
  byteix := hf.byteix
  timer := by simp [ht, hst]
  skipNeedsArg := hs.status.skipNeedsArg
  digits := hs.data.digits
  count := ⟨hs.data.count, hcount⟩
  sum := hs.data.sum
  voltage := hs.data.voltage
  temperature := hs.data.temperature

/-- The same of a running operation: `done` is 0 and `ST` has left `IDLE`. -/
theorem inv_running_untimed {s : State} (hst : s.seq.st.timed = false) (hidle : s.seq.st ≠ .idle) (hs : Sound s)
    (hr : Running s) (hf : Fits s.seq.st s) (ht : s.seq.tmr = 0)
    (hcount : s.seq.st = .sTrig ∨ s.seq.st = .sWait → s.data.cnt.toNat < s.cfg.val.nSamples) : Inv s :=
  inv_untimed hst hs hf (iff_of_true hr.busy hidle)
    (fun hd => absurd (hr.notDone.symm.trans hd) Bool.false_ne_true) ht hcount

/-- The invariant does not speak of the agents outside CORE, nor of the model's own fields. -/
theorem Inv.congr {s t : State} (h : Inv s) (hcfg : t.cfg = s.cfg) (hdata : t.data = s.data)
    (hseq : t.seq = s.seq) (hstatus : t.status = s.status) (hpins : t.pins = s.pins) : Inv t := by
  obtain ⟨_, _, _, _, _, chain, adc, host, draws, log⟩ := t
  cases hcfg; cases hdata; cases hseq; cases hstatus; cases hpins
  cases h
  constructor <;> assumption

/-! ### What leaves the parts alone -/

/-- The invariant does not speak of the patterns and `FRCNT`. -/
theorem dataSound_results (c : LegalConfig) (r : Bool) (d : DataRegs) :
    DataSound c r d.results ↔ DataSound c r d :=
  ⟨fun h => ⟨h.digits, h.count, h.sum, h.voltage, h.temperature⟩,
    fun h => ⟨h.digits, h.count, h.sum, h.voltage, h.temperature⟩⟩

/-- Soundness looks at `BUSY`, the patterns, `FRCNT` and the serial pins not at all. -/
theorem Sound.congr {s t : State} (h : Sound s) (hcfg : t.cfg = s.cfg) (hclr : t.pins.srClrN = s.pins.srClrN)
    (hstatus : ∀ j, j ≠ 0 → t.status.getLsbD j = s.status.getLsbD j)
    (hdata : t.data.results = s.data.results) : Sound t := by
  obtain ⟨clear, ⟨reserved, skip⟩, data⟩ := h
  refine ⟨hclr.trans clear, ⟨?_, ?_⟩, ?_⟩
  · rwa [hstatus 6 (by decide), hstatus 7 (by decide)]
  · rwa [hstatus 1 (by decide), hstatus 3 (by decide)]
  · have herr : t.err .range = s.err .range := hstatus 4 (by decide)
    rwa [← dataSound_results, hdata, dataSound_results, hcfg, herr]

/-- An operation that writes only what soundness does not look at keeps it. -/
theorem Sound.kept {s t : State} (h : Sound s) (hcfg : t.cfg = s.cfg := by rfl)
    (hclr : t.pins.srClrN = s.pins.srClrN := by rfl) (hstatus : t.status = s.status := by rfl)
    (hdata : t.data.results = s.data.results := by rfl) : Sound t :=
  h.congr hcfg hclr (fun _ _ => by rw [hstatus]) hdata

theorem Fits.congr {st : SeqState} {s t : State} (h : Fits st s) (hpins : t.pins = s.pins)
    (hbit : t.seq.bitix = s.seq.bitix) (hbyte : t.seq.byteix = s.seq.byteix) : Fits st t := by
  obtain ⟨h1, h2, h3, h4, h5, h6⟩ := h
  constructor <;> simpa only [hpins, hbit, hbyte]

theorem sound_accept (w : CmdWord) {s : State} (h : Sound s) : Sound (accept w s) :=
  h.congr rfl rfl (fun _ hj => getLsbD_setBit_ne (Ne.symm hj) _) rfl

theorem sound_finish {s : State} (h : Sound s) : Sound (finish s) :=
  h.congr rfl rfl (fun _ hj => getLsbD_clearBit_ne (Ne.symm hj) _) rfl

/-! ### Soundness over the operations that write what it speaks of -/

/-- A recorded range error asks less of the data registers. -/
theorem DataSound.mono {c : LegalConfig} {r r' : Bool} {d : DataRegs} (h : DataSound c r d)
    (hr : r' = false → r = false) : DataSound c r' d :=
  ⟨fun hr' => h.digits (hr hr'), h.count, h.sum, h.voltage, h.temperature⟩

theorem sound_raiseErrorIf (c : Bool) (e : ErrorFlag) {s : State} (h : Sound s) : Sound (raiseErrorIf c e s) := by
  obtain ⟨clear, ⟨⟨h6, h7⟩, skip⟩, data⟩ := h
  have hbit := e.bit_range
  have keeps : ∀ j, j < 2 ∨ 5 < j → (raiseErrorIf c e s).status.getLsbD j = s.status.getLsbD j := by
    intro j hj
    rw [getLsbD_raiseErrorIf, decide_eq_false (by omega), Bool.and_false, Bool.or_false]
  refine ⟨by simpa using clear, ⟨⟨?_, ?_⟩, fun hs => ?_⟩, ?_⟩
  · rw [keeps 6 (by decide), h6]
  · rw [keeps 7 (by decide), h7]
  · rw [keeps 1 (by decide)] at hs
    rw [getLsbD_raiseErrorIf, skip hs, Bool.true_or]
  · rw [raiseErrorIf_cfg, raiseErrorIf_data]
    refine data.mono fun hr => ?_
    rw [State.err, getLsbD_raiseErrorIf, Bool.or_eq_false_iff] at hr
    exact hr.1

/-- `SKIP` may be set where an argument error is recorded. -/
theorem sound_setSkip {b : Bool} {s : State} (h : Sound s) (hb : b = true → s.err .arg = true) :
    Sound (setSkip b s) := by
  obtain ⟨clear, ⟨⟨h6, h7⟩, -⟩, data⟩ := h
  refine ⟨clear, ⟨⟨?_, ?_⟩, fun hs => ?_⟩, ?_⟩
  · rw [getLsbD_setSkip]; exact h6
  · rw [getLsbD_setSkip]; exact h7
  · rw [getLsbD_setSkip] at hs ⊢
    exact hb hs
  · rw [State.err, getLsbD_setSkip]
    exact data

theorem sound_clearSum {s : State} (h : Sound s) : Sound (clearSum s) :=
  ⟨h.clearHigh, h.status, { h.data with count := Nat.zero_le _, sum := Nat.zero_le _ }⟩

/-- The count after one more conversion, as a number. -/
theorem accumulate_cnt (r : RawSample) {s : State} (hlt : s.data.cnt.toNat < s.cfg.val.nSamples) :
    (accumulate r s).data.cnt.toNat = s.data.cnt.toNat + 1 := by
  obtain ⟨⟨-, hn⟩, -⟩ := s.cfg.val.legal_iff.mp s.cfg.ok
  have hone : (1 : BitVec 16).toNat = 1 := rfl
  simp only [accumulate_data, BitVec.toNat_add, hone]
  omega

/-- One more RawSample: neither the count nor the sum overflows (10_state.md R10, R11). -/
theorem sound_accumulate (r : RawSample) {s : State} (h : Sound s)
    (hlt : s.data.cnt.toNat < s.cfg.val.nSamples) : Sound (accumulate r s) := by
  have hcnt := accumulate_cnt r hlt
  have hsum : (accumulate r s).data.acc.toNat ≤ s.data.acc.toNat + r.toNat := by
    simp only [accumulate_data, BitVec.toNat_add, zext32, BitVec.toNat_setWidth_of_le (show 10 ≤ 32 by decide)]
    exact Nat.mod_le _ _
  have hold := h.data.sum
  have hr := r.isLt
  refine ⟨h.clearHigh, h.status, { h.data with count := ?_, sum := ?_ }⟩
  · rw [hcnt]; exact hlt
  · rw [hcnt]; omega

/-- The voltage is the exact product: it always fits (10_state.md R13). -/
theorem sound_average {s : State} (h : Sound s) : Sound (average s) := by
  obtain ⟨-, ⟨-, hscale⟩, -⟩ := s.cfg.val.legal_iff.mp s.cfg.ok
  refine ⟨h.clearHigh, h.status, { h.data with voltage := ?_ }⟩
  have havg : (averageOf s.data.acc s.cfg.val.nSamples).toNat ≤ 1023 := Nat.le_of_lt_succ (BitVec.isLt _)
  have hfits := Nat.mul_le_mul havg hscale
  show (voltageOf (averageOf s.data.acc s.cfg.val.nSamples) s.cfg.val.scale).toNat = _
  rw [voltageOf, BitVec.toNat_ofNat, Nat.mod_eq_of_lt (by omega)]
  rfl

/-- An exact difference of a voltage and an offset is within 4095 of 0 (10_state.md R14). -/
theorem temperature_bounds (c : LegalConfig) (v : Millivolts) :
    -4095 ≤ (BitVec.ofInt 16 (temperatureOf v c.val.offsetMv)).toInt ∧
      (BitVec.ofInt 16 (temperatureOf v c.val.offsetMv)).toInt ≤ 4095 := by
  obtain ⟨-, -, hoff, -⟩ := c.val.legal_iff.mp c.ok
  have hv := v.isLt
  rw [temp_exact]
  omega

/-- Inside the domain the digits are digits; outside it the range error is recorded (10_state.md R15). -/
theorem sound_toDigits (v : Millivolts) {s : State} (h : Sound s) : Sound (toDigits v s) := by
  by_cases hdom : s.cfg.val.offsetMv ≤ v.toNat ∧ v.toNat ≤ s.cfg.val.offsetMv + 999
  · obtain ⟨hlo, hhi⟩ := hdom
    rw [toDigits_inDomain v s hlo hhi]
    refine ⟨h.clearHigh, h.status, { h.data with digits := fun _ => ?_, temperature := temperature_bounds s.cfg v }⟩
    simp only [writeDigits_data, BitVec.toNat_ofNat]
    omega
  · rw [toDigits_outOfDomain v s (by omega)]
    have hraised := sound_raiseErrorIf true .range h
    refine ⟨h.clearHigh, hraised.status,
      { h.data with digits := fun hr => ?_, temperature := temperature_bounds s.cfg v }⟩
    have hset : (setBit 4 s.status).getLsbD 4 = true := getLsbD_setBit_self 4 (by decide) s.status
    exact absurd (hset.symm.trans hr) (by decide)

theorem sound_encodeFrame (t o d : Digit) {s : State} (h : Sound s) : Sound (encodeFrame t o d s) := by
  obtain ⟨b0, b1, b2, n, e, -⟩ := encodeFrame_state t o d s
  have hraised := sound_raiseErrorIf (digitTooBig t || digitTooBig o || digitTooBig d) .arg h
  rw [e]
  exact hraised.congr (by simp) (by simp) (by simp [ErrorFlag.bit]) (by simp [DataRegs.results])

end Sys2Proof.Machine
end

section
/-! SUPPORT. The bodies of the operations leave a rested state rested. -/

namespace Sys2Proof.Machine

/-! ### What the bodies leave of the pins and the sequencer registers -/

@[simp] theorem enc_data (p : Position) (v : Digit) (dp : Bool) (s : State) : (enc p v dp s).2.data = s.data := by
  obtain ⟨n, h⟩ := enc_state p v dp s
  rw [h]

@[simp] theorem enc_seq (p : Position) (v : Digit) (dp : Bool) (s : State) : (enc p v dp s).2.seq = s.seq := by
  obtain ⟨n, h⟩ := enc_state p v dp s
  rw [h]

@[simp] theorem enc_status (p : Position) (v : Digit) (dp : Bool) (s : State) :
    (enc p v dp s).2.status = s.status := by
  obtain ⟨n, h⟩ := enc_state p v dp s
  rw [h]

@[simp] theorem enc_pins (p : Position) (v : Digit) (dp : Bool) (s : State) : (enc p v dp s).2.pins = s.pins := by
  obtain ⟨n, h⟩ := enc_state p v dp s
  rw [h]

@[simp] theorem toDigits_seq (v : Millivolts) (s : State) : (toDigits v s).seq = s.seq := by
  obtain ⟨_, _, _, _, _, h, _⟩ := toDigits_state v s
  rw [h]

@[simp] theorem toDigits_pins (v : Millivolts) (s : State) : (toDigits v s).pins = s.pins := by
  obtain ⟨_, _, _, _, _, h, _⟩ := toDigits_state v s
  rw [h]

@[simp] theorem encodeFrame_seq (t o h : Digit) (s : State) : (encodeFrame t o h s).seq = s.seq := by
  obtain ⟨_, _, _, _, e, _⟩ := encodeFrame_state t o h s
  rw [e]

@[simp] theorem encodeFrame_pins (t o h : Digit) (s : State) : (encodeFrame t o h s).pins = s.pins := by
  obtain ⟨_, _, _, _, e, _⟩ := encodeFrame_state t o h s
  rw [e]

@[simp] theorem encodeFrame_status (t o h : Digit) (s : State) :
    (encodeFrame t o h s).status =
      if digitTooBig t || digitTooBig o || digitTooBig h then setBit 3 s.status else s.status := by
  obtain ⟨_, _, _, _, e, _⟩ := encodeFrame_state t o h s
  rw [e]

@[simp] theorem encodeBody_seq (p : Position) (dp : Bool) (v : Digit) (s : State) :
    (encodeBody p dp v s).seq = s.seq := by simp [encodeBody]

@[simp] theorem encodeBody_pins (p : Position) (dp : Bool) (v : Digit) (s : State) :
    (encodeBody p dp v s).pins = s.pins := by simp [encodeBody]

@[simp] theorem average_seq (s : State) : (average s).seq = s.seq := rfl
@[simp] theorem average_pins (s : State) : (average s).pins = s.pins := rfl
@[simp] theorem average_status (s : State) : (average s).status = s.status := rfl

/-! ### Rested states -/

/-- What keeps the pins and the sequencer registers keeps a state at rest. -/
theorem Rested.of_sound {s t : State} (h : Rested s) (hs : Sound t) (hpins : t.pins = s.pins)
    (hseq : t.seq = s.seq) : Rested t :=
  ⟨hs, hpins.trans h.pins, by rw [hseq, h.bitix], by rw [hseq, h.byteix], by rw [hseq, h.tmr]⟩

theorem rested_raiseErrorIf (c : Bool) (e : ErrorFlag) {s : State} (h : Rested s) :
    Rested (raiseErrorIf c e s) :=
  h.of_sound (sound_raiseErrorIf c e h.sound) (by simp) (by simp)

theorem rested_encodeBody (p : Position) (dp : Bool) (v : Digit) {s : State} (h : Rested s) :
    Rested (encodeBody p dp v s) := by
  have hpat : Sound { (enc p v dp s).2 with data.pat := (enc p v dp s).1 } :=
    h.sound.congr (by simp) (by simp) (by simp) (by simp [DataRegs.results])
  exact h.of_sound (sound_raiseErrorIf _ .arg hpat) (by simp) (by simp)

theorem rested_toDigits (v : Millivolts) {s : State} (h : Rested s) : Rested (toDigits v s) :=
  h.of_sound (sound_toDigits v h.sound) (by simp) (by simp)

theorem rested_encodeFrame (t o d : Digit) {s : State} (h : Rested s) : Rested (encodeFrame t o d s) :=
  h.of_sound (sound_encodeFrame t o d h.sound) (by simp) (by simp)

theorem rested_setSkip {b : Bool} {s : State} (h : Rested s) (hb : b = true → s.err .arg = true) :
    Rested (setSkip b s) :=
  h.of_sound (sound_setSkip h.sound hb) rfl rfl

theorem rested_average {s : State} (h : Rested s) : Rested (average s) :=
  h.of_sound (sound_average h.sound) rfl rfl

/-- A suppressed update has its argument error: the sentinel needs a ones digit that is too big
(45_display_controller.md R92 item 1). -/
theorem err_arg_of_sentinel {t o d : Digit} {s : State} (hs : sentinel (encodeFrame t o d s) = true) :
    (encodeFrame t o d s).err .arg = true := by
  have ho : digitTooBig o = true := by
    refine decide_eq_true (Nat.not_le.mp fun hle => ?_)
    exact absurd (hs.symm.trans (sentinel_encodeFrame hle)) (by decide)
  rw [State.err, encodeFrame_status, ho, Bool.or_true, Bool.true_or, if_pos rfl]
  exact getLsbD_setBit_self 3 (by decide) s.status

theorem rested_suppressed {t o d : Digit} {s : State} (h : Rested s)
    (hs : sentinel (encodeFrame t o d s) = true) : Rested (setSkip true (encodeFrame t o d s)) :=
  rested_setSkip (rested_encodeFrame t o d h) fun _ => err_arg_of_sentinel hs

theorem rested_shown {s : State} (h : Rested s) : Rested (clearCount (setSkip false s)) := by
  have hskip : Rested (setSkip false s) := rested_setSkip h (by simp)
  exact hskip.of_sound hskip.sound.kept rfl rfl

theorem rested_sendFrame {s : State} (h : Rested s) : Rested (sendFrame s) := by
  rw [sendFrame_eq]
  exact ⟨h.sound.kept, by simp [h.pins, Pins.low], rfl, rfl, h.tmr⟩

theorem rested_showBody (t o d : Digit) {s : State} (h : Rested s) : Rested (showBody t o d s) := by
  cases hs : sentinel (encodeFrame t o d s) with
  | true => rw [showBody_suppressed hs]; exact rested_suppressed h hs
  | false => rw [showBody_shown hs]; exact rested_sendFrame (rested_shown (rested_encodeFrame t o d h))

theorem rested_convertAndShow {s : State} (h : Rested s) : Rested (convertAndShow s) :=
  rested_showBody _ _ _ (rested_toDigits _ h)

theorem rested_pushBit (b : Bool) {s : State} (h : Rested s) : Rested (driveData false (pushBit b s)) := by
  rw [pushBit_eq]
  exact ⟨h.sound.kept, by simp [h.pins, Pins.low], h.bitix, h.byteix, h.tmr⟩

theorem rested_pushByte (x : Byte) {s : State} (h : Rested s) : Rested (driveData false (pushByte x s)) := by
  rw [pushByte_eq]
  exact ⟨h.sound.kept, by simp [h.pins, Pins.low], rfl, h.byteix, h.tmr⟩

theorem rested_latchPulse {s : State} (h : Rested s) : Rested (latchPulse s) := by
  rw [latchPulse_eq]
  exact ⟨h.sound.kept, by simp [h.pins, Pins.low], h.bitix, h.byteix, h.tmr⟩

/-! ### The start and the end of an operation -/

theorem rested_accept (w : CmdWord) {s : State} (h : Rested s) : Rested (accept w s) :=
  ⟨sound_accept w h.sound, h.pins, h.bitix, h.byteix, h.tmr⟩

theorem running_accept (w : CmdWord) (s : State) : Running (accept w s) :=
  ⟨getLsbD_setBit_self 0 (by decide) s.status, rfl⟩

theorem inv_finish {s : State} (h : Rested s) : Inv (finish s) := by
  have hbusy : (finish s).busy = false := getLsbD_clearBit_self 0 s.status
  refine inv_untimed rfl (sound_finish h.sound) ((h.fits rfl).congr rfl rfl rfl) ?_ (fun _ => rfl) h.tmr ?_
  · simp [hbusy]
  · simp

/-- A rested state of a running operation meets the invariant, unless `ST` is timed or triggers; in `S_WAIT`
a conversion has to be missing. -/
theorem Rested.inv {s : State} (h : Rested s) (hr : Running s) (hidle : s.seq.st ≠ .idle)
    (hst : s.seq.st.still = true) (ht : s.seq.st.timed = false)
    (hcount : s.seq.st = .sWait → s.data.cnt.toNat < s.cfg.val.nSamples) : Inv s := by
  obtain ⟨-, hne, -⟩ := (still_iff _).mp hst
  refine inv_running_untimed ht hidle h.sound hr (h.fits hst) h.tmr ?_
  rintro (htrig | hwait)
  · exact absurd htrig hne
  · exact hcount hwait

end Sys2Proof.Machine
end

section
/-! SUPPORT. Every edge of the reference sequencer keeps the invariant: first the states that an edge enters,
then the edge that ends a tick in each state. -/

namespace Sys2Proof.Machine

/-! ### The states that an edge enters -/

/-- A timed state that was just entered, with its whole hold to come. -/
theorem inv_enterTimed {st : SeqState} {n : Nat} {s : State} (hst : st.timed = true)
    (hn : n = holdTicks s.cfg st) (hs : Sound s) (hr : Running s) (hf : Fits st s) :
    Inv (enterTimed st n s) := by
  subst hn
  exact inv_timed hst hs.kept ⟨hr.busy, hr.notDone⟩ (hf.congr rfl rfl rfl)
    (holdTicks_pos s.cfg hst) (Nat.le_refl _)

/-- A state that fits a low phase fits it with any bit on `sr_data`. -/
theorem fits_bLow_driveData (b : Bool) {s : State} (hf : Fits .bLow s) : Fits .bLow (driveData b s) :=
  ⟨hf.trigger, hf.clk, hf.latch, fun _ => rfl, hf.bitix, hf.byteix⟩

theorem inv_enterLow (b : Bool) {s : State} (hs : Sound s) (hr : Running s) (hf : Fits .bLow s) :
    Inv (enterLow b s) :=
  inv_enterTimed rfl rfl hs.kept ⟨hr.busy, hr.notDone⟩ (fits_bLow_driveData b hf)

theorem inv_startByte (x : Byte) {s : State} (hs : Sound s) (hr : Running s) (hf : Fits .bLow s) :
    Inv (startByte x s) :=
  inv_enterLow x.msb hs.kept ⟨hr.busy, hr.notDone⟩
    { hf with bitix := ⟨Nat.le_refl 8, fun _ => rfl⟩ }

/-- A conversion is triggered only while one is missing. -/
theorem inv_enterTrigger {s : State} (hs : Sound s) (hr : Running s) (hpins : s.pins = Pins.low)
    (hbit : s.seq.bitix = 0) (hbyte : s.seq.byteix = 0) (hlt : s.data.cnt.toNat < s.cfg.val.nSamples) :
    Inv (enterTrigger s) := by
  refine inv_running_untimed rfl (by simp [enterTrigger]) hs.kept
    ⟨hr.busy, hr.notDone⟩ ?_ rfl fun _ => hlt
  constructor <;> simp [enterTrigger, hpins, hbit, hbyte, Pins.low]

/-- The end of an operation of the serial port, with every pin at rest. -/
theorem inv_finishTimed {s : State} (hs : Sound s) (hpins : s.pins = Pins.low) : Inv (finishTimed s) :=
  inv_finish ⟨hs.kept, hpins, rfl, rfl, rfl⟩

/-! ### Bit cells and bytes -/

/-- With the clock low, the end of a bit cell that drives `sr_data` low leaves every pin at rest. -/
theorem pins_driveData_false {s : State} (hs : Sound s) (hf : Fits .bLow s) :
    (driveData false s).pins = Pins.low := by
  obtain ⟨trigger, clk, latch, -⟩ := hf
  simp only [reduceCtorEq, iff_false, Bool.not_eq_true] at trigger clk latch
  simp [Pins.low, trigger, clk, latch, hs.clearHigh]

theorem inv_endSerial {s : State} (hs : Sound s) (hf : Fits .bLow s) : Inv (endSerial s) :=
  inv_finishTimed hs.kept (pins_driveData_false hs hf)

/-- The end of a byte: `BYTEIX` goes up to 2 and then back to 0 (10_state.md R22, log 13). -/
theorem inv_endByte {s : State} (hs : Sound s) (hr : Running s) (hf : Fits .bLow s) (hbit : s.seq.bitix = 0) :
    Inv (endByte s) := by
  unfold endByte
  dsimp only
  split_ifs with hframe hlt
  · have hnext : (s.seq.byteix + 1).toNat ≤ 2 := by bv_omega
    exact inv_startByte _ hs.kept ⟨hr.busy, hr.notDone⟩
      ⟨hf.trigger, hf.clk, hf.latch, hf.data, hf.bitix, hnext, fun _ => rfl⟩
  · have hlow : Sound (driveData false (selectByte 0 s)) := hs.kept
    have hpins : (driveData false (selectByte 0 s)).pins = Pins.low := pins_driveData_false (s := s) hs hf
    exact inv_enterTimed rfl rfl hlow ⟨hr.busy, hr.notDone⟩
      ((fits_still_iff rfl hlow.clearHigh).mpr ⟨hpins, hbit, rfl⟩)
  · exact inv_endSerial hs hf

/-- The end of a bit cell: the clock is low again, and at most 8 bits were to come. -/
theorem inv_endCell {s : State} (h : Inv s) (hst : s.seq.st = .bHigh) : Inv (endCell s) := by
  have hr := h.running (by rw [hst]; decide)
  have hf := h.fits_at hst
  have hs' : Sound (countBit (dropClk (holdPulse s))) := h.sound.kept
  have hf' : Fits .bLow (countBit (dropClk (holdPulse s))) :=
    ⟨by simpa using hf.trigger, by simp, by simpa using hf.latch, fun _ => rfl, hf.bitix, hf.byteix⟩
  have hpred : s.seq.bitix ≠ 0 →
      (s.seq.bitix - 1).toNat ≤ 8 ∧ (s.seq.bitix - 1 ≠ 0 → SeqState.bLow.pushing = true) := by
    obtain ⟨hle, -⟩ := hf.bitix
    exact fun hne => ⟨by bv_omega, fun _ => rfl⟩
  unfold endCell
  dsimp only
  split_ifs with hzero hlast
  · exact inv_endSerial hs' hf'
  · exact inv_endByte hs'.kept ⟨hr.busy, hr.notDone⟩ { hf' with bitix := hpred hzero } hlast
  · exact inv_enterLow _ hs'.kept ⟨hr.busy, hr.notDone⟩ { hf' with bitix := hpred hzero }

theorem inv_endLow {s : State} (h : Inv s) (hst : s.seq.st = .bLow) : Inv (endLow s) := by
  have hr := h.running (by rw [hst]; decide)
  have hf := h.fits_at hst
  exact inv_enterTimed rfl rfl h.sound.kept ⟨hr.busy, hr.notDone⟩
    ⟨by simpa using hf.trigger, by simp, by simpa using hf.latch, fun _ => rfl, hf.bitix, hf.byteix⟩

/-! ### The latch pulse -/

theorem inv_endLatchLow {s : State} (h : Inv s) (hst : s.seq.st = .lLow) : Inv (endLatchLow s) := by
  have hr := h.running (by rw [hst]; decide)
  have hf := h.fits_at hst
  exact inv_enterTimed rfl rfl h.sound.kept ⟨hr.busy, hr.notDone⟩
    ⟨by simpa using hf.trigger, by simpa using hf.clk, by simp, hf.data, hf.bitix, hf.byteix⟩

theorem inv_endLatchHigh {s : State} (h : Inv s) (hst : s.seq.st = .lHigh) : Inv (endLatchHigh s) := by
  obtain ⟨trigger, clk, -, data, -, -⟩ := h.fits_at hst
  simp only [reduceCtorEq, iff_false, Bool.not_eq_true, SeqState.pushing, beq_iff_eq, Bool.or_eq_true, or_self,
    imp_false] at trigger clk data
  refine inv_finishTimed h.sound.kept ?_
  simp [Pins.low, trigger, clk, data, h.clearHigh]

/-! ### The averaging cycle -/

theorem inv_endTrigger {s : State} (h : Inv s) (hst : s.seq.st = .sTrig) :
    Inv { dropTrigger s with seq.st := .sWait } := by
  have hr := h.running (by rw [hst]; decide)
  obtain ⟨-, clk, latch, data, bit, byte⟩ := h.fits_at hst
  refine inv_running_untimed rfl (by simp) h.sound.kept ⟨hr.busy, hr.notDone⟩
    ⟨by simp, ?_, ?_, data, bit, byte⟩ (h.timer_zero (by rw [hst]; rfl)) fun _ => h.count.2 (.inl hst)
  · simpa using clk
  · simpa using latch

theorem inv_endWait {s : State} (h : Inv s) (hst : s.seq.st = .sWait) : Inv (endWait s) := by
  have hr := h.running (by rw [hst]; decide)
  have hrest := h.rested (by rw [hst]; rfl) (by rw [hst]; rfl)
  unfold endWait
  split
  · exact inv_enterTimed rfl rfl (sound_accumulate _ h.sound (h.count.2 (.inr hst))) ⟨hr.busy, hr.notDone⟩
      ((hrest.fits rfl).congr rfl rfl rfl)
  · exact h

theorem inv_endSettle {s : State} (h : Inv s) (hst : s.seq.st = .sSettle) : Inv (endSettle s) := by
  have hr := h.running (by rw [hst]; decide)
  obtain ⟨hpins, hbit, hbyte⟩ := (fits_still_iff rfl h.clearHigh).mp (h.fits_at hst)
  have hs : Sound (settle s) := h.sound.kept
  unfold endSettle
  dsimp only
  split_ifs with hall
  · have hrest : Rested { settle s with seq.st := .sCalc, seq.tmr := 0 } :=
      ⟨hs.kept, hpins, hbit, hbyte, rfl⟩
    exact hrest.inv ⟨hr.busy, hr.notDone⟩ (by simp) rfl rfl (by simp)
  · exact inv_enterTrigger hs ⟨hr.busy, hr.notDone⟩ hpins hbit hbyte (Nat.not_le.mp hall)

end Sys2Proof.Machine
end

section
/-! SUPPORT. One edge as a whole keeps the invariant: the states that calculate, acceptance, reset. -/

namespace Sys2Proof.Machine

/-! ### The states that calculate -/

@[simp] theorem toDigits_busy (v : Millivolts) (s : State) : (toDigits v s).busy = s.busy := by
  obtain ⟨_, _, _, _, st, h, rfl | rfl⟩ := toDigits_state v s
  · rw [h]; rfl
  · rw [h]; exact getLsbD_setBit_ne (by decide) s.status

@[simp] theorem encodeFrame_busy (t o h : Digit) (s : State) : (encodeFrame t o h s).busy = s.busy := by
  rw [State.busy, encodeFrame_status]
  split
  · exact getLsbD_setBit_ne (by decide) s.status
  · rfl

@[simp] theorem setSkip_busy (b : Bool) (s : State) : (setSkip b s).busy = s.busy := by
  rw [State.busy, getLsbD_setSkip]
  rfl

/-- A rested state fits a low phase too. -/
theorem Rested.fits_bLow {s : State} (h : Rested s) : Fits .bLow s := by
  constructor <;> simp [h.pins, h.bitix, h.byteix, Pins.low]

theorem inv_endExec {s : State} (h : Rested s) : Inv (endExec s) := inv_finish (rested_raiseErrorIf _ .cmd h)

theorem inv_endAverage {s : State} (h : Rested s) (hr : Running s) : Inv (endAverage s) := by
  have havg := rested_average h
  unfold endAverage
  dsimp only
  split
  · have hcalc : Rested { average s with seq.st := .cCalc } :=
      ⟨havg.sound.kept, havg.pins, havg.bitix, havg.byteix, havg.tmr⟩
    exact hcalc.inv ⟨hr.busy, hr.notDone⟩ (by simp) rfl rfl (by simp)
  · exact inv_finish havg

theorem inv_endConvert {s : State} (h : Rested s) (hr : Running s) : Inv (endConvert s) := by
  unfold endConvert
  split
  · have hdig := rested_toDigits s.data.volt h
    have henc : Rested { toDigits s.data.volt s with seq.st := .dEnc } :=
      ⟨hdig.sound.kept, hdig.pins, hdig.bitix, hdig.byteix, hdig.tmr⟩
    have hrun : Running { toDigits s.data.volt s with seq.st := .dEnc } :=
      ⟨(toDigits_busy _ s).trans hr.busy, by simpa using hr.notDone⟩
    exact henc.inv hrun (by simp) rfl rfl (by simp)
  · exact inv_finish (rested_toDigits _ h)

/-- After the encoding step: a suppressed update needs its argument error, a frame begins with `BYTEIX` at 0. -/
theorem inv_startFrame {s : State} (h : Rested s) (hr : Running s) (harg : sentinel s = true → s.err .arg = true) :
    Inv (startFrame s) := by
  unfold startFrame
  dsimp only
  split_ifs with hs
  · exact inv_finish (rested_setSkip h fun _ => harg hs)
  · have hshown := rested_shown h
    have hrun : Running (selectByte 0 (clearCount (setSkip false s))) :=
      ⟨(setSkip_busy false s).trans hr.busy, hr.notDone⟩
    exact inv_startByte _ hshown.sound.kept hrun
      { hshown.fits_bLow with byteix := ⟨by simp, by simp⟩ }

theorem inv_startFrame_encodeFrame (t o d : Digit) {s : State} (h : Rested s) (hr : Running s) :
    Inv (startFrame (encodeFrame t o d s)) :=
  inv_startFrame (rested_encodeFrame t o d h)
    ⟨(encodeFrame_busy t o d s).trans hr.busy, by simpa using hr.notDone⟩ err_arg_of_sentinel

theorem inv_endEncode {s : State} (h : Rested s) (hr : Running s) : Inv (endEncode s) := by
  unfold endEncode
  split <;> exact inv_startFrame_encodeFrame _ _ _ h hr

/-! ### One edge -/

/-- A tick of a timed state that is not its last one keeps the invariant; the last one is up to what follows. -/
theorem inv_countdown {next : State → State} {s : State} (h : Inv s) (hst : s.seq.st.timed = true)
    (hnext : Inv (next s)) : Inv (countdown next s) := by
  obtain ⟨-, hle, -⟩ := h.timer
  have hr := h.running (timed_ne_idle hst)
  unfold countdown
  split_ifs with hlast
  · exact hnext
  · refine inv_timed hst h.sound.kept ⟨hr.busy, hr.notDone⟩
      (h.fits.congr rfl rfl rfl) ?_ ?_
    · show 1 ≤ s.seq.tmr - 1
      omega
    · exact (Nat.sub_le _ _).trans hle

/-- The end of a timed state keeps the invariant. -/
theorem inv_timedNext {s : State} (h : Inv s) : Inv (timedNext s.seq.st s) := by
  cases hst : s.seq.st with
  | sSettle => exact inv_endSettle h hst
  | bLow => exact inv_endLow h hst
  | bHigh => exact inv_endCell h hst
  | lLow => exact inv_endLatchLow h hst
  | lHigh => exact inv_endLatchHigh h hst
  | idle | nExec | eCalc | cCalc | sTrig | sWait | sCalc | dEnc => exact h

theorem inv_busyEdge {s : State} (h : Inv s) : Inv (busyEdge s) := by
  cases ht : s.seq.st.timed with
  | true => rw [busyEdge_timed ht]; exact inv_countdown h ht (inv_timedNext h)
  | false =>
    have hr : s.seq.st ≠ .idle → Running s := h.running
    have hrest : s.seq.st.still = true → Rested s := fun hst => h.rested hst ht
    unfold busyEdge
    cases hst : s.seq.st with
    | idle => exact h
    | nExec => exact inv_endExec (hrest (by rw [hst]; rfl))
    | eCalc => exact inv_finish (rested_encodeBody _ _ _ (hrest (by rw [hst]; rfl)))
    | cCalc => exact inv_endConvert (hrest (by rw [hst]; rfl)) (hr (by rw [hst]; decide))
    | sTrig => exact inv_endTrigger h hst
    | sWait => exact inv_endWait h hst
    | sCalc => exact inv_endAverage (hrest (by rw [hst]; rfl)) (hr (by rw [hst]; decide))
    | dEnc => exact inv_endEncode (hrest (by rw [hst]; rfl)) (hr (by rw [hst]; decide))
    | sSettle | bLow | bHigh | lLow | lHigh => simp [hst, SeqState.timed] at ht

/-- A unit averages over at least one conversion. -/
theorem nSamples_pos (c : LegalConfig) : 0 < c.val.nSamples := by
  obtain ⟨⟨hpos, -⟩, -⟩ := c.val.legal_iff.mp c.ok
  exact hpos

theorem inv_enterTrigger_clearSum {s : State} (h : Rested s) (hr : Running s) :
    Inv (enterTrigger (clearSum s)) :=
  inv_enterTrigger (sound_clearSum h.sound) ⟨hr.busy, hr.notDone⟩ h.pins h.bitix h.byteix (nSamples_pos s.cfg)

/-- Acceptance of a word whose path begins with a calculation. -/
theorem inv_accept_calculating {w : CmdWord} {s : State} (h : Rested s)
    (hw : firstState w ∈ [.nExec, .eCalc, .cCalc, .dEnc]) : Inv (accept w s) := by
  have hcalc : ∀ st ∈ [SeqState.nExec, .eCalc, .cCalc, .dEnc],
      st ≠ .idle ∧ st.still = true ∧ st.timed = false ∧ st ≠ .sWait := by decide
  obtain ⟨hidle, hst, ht, hwait⟩ := hcalc _ hw
  exact (rested_accept w h).inv (running_accept w s) hidle hst ht fun hs => absurd hs hwait

/-- Every edge that accepts a word keeps the invariant: each path starts from rest. -/
theorem inv_acceptEdge (w : CmdWord) {s : State} (h : Rested s) : Inv (acceptEdge w s) := by
  have hacc := rested_accept w h
  have hr := running_accept w s
  unfold acceptEdge
  dsimp only
  cases hd : decode w with
  | error e => exact inv_accept_calculating h (by simp [firstState, hd])
  | ok i =>
    cases i with
    | nop | convert _ | encode _ _ _ | showDigits _ _ _ => exact inv_accept_calculating h (by simp [firstState, hd])
    | sample | cycle => exact inv_enterTrigger_clearSum hacc hr
    | pushbit b => exact inv_enterLow b hacc.sound hr hacc.fits_bLow
    | pushbyte x => exact inv_startByte x hacc.sound hr hacc.fits_bLow
    | latch =>
      have hcheck : Rested (frameCheck (accept w s)) := rested_raiseErrorIf _ .frame hacc
      have hbusy : (frameCheck (accept w s)).busy = true := by
        rw [State.busy, frameCheck, getLsbD_raiseErrorIf, show (accept w s).status.getLsbD 0 = true from hr.busy,
          Bool.true_or]
      exact inv_enterTimed rfl rfl hcheck.sound ⟨hbusy, by simp [frameCheck]⟩ (hcheck.fits rfl)

theorem inv_resetWith (c : LegalConfig) : Inv (State.resetWith c) := by
  have hstatus : StatusSound 0 := ⟨by decide, by decide⟩
  have hdata : ∀ r, DataSound c r ⟨0, 0, 0, 0, 0, 0, 0, 0, 0, 0, 0, 0, 0⟩ := fun r => by constructor <;> simp
  have hs : Sound (State.resetWith c) := ⟨rfl, hstatus, hdata _⟩
  have hrest : Rested (State.resetWith c) := ⟨hs, rfl, rfl, rfl, rfl⟩
  refine inv_untimed rfl hs (hrest.fits rfl) ?_ (fun _ => rfl) rfl ?_ <;> simp [State.resetWith, State.busy]

theorem inv_coreEdge (inp : TickIn) {s : State} (h : Inv s) : Inv (coreEdge inp s) := by
  unfold coreEdge
  split_ifs with hrst hidle
  · exact (inv_resetWith s.cfg).congr rfl rfl rfl rfl rfl
  · have hrest := h.rested (by rw [hidle]; rfl) (by rw [hidle]; rfl)
    split
    next w _ => exact inv_acceptEdge w hrest
    next =>
      exact { h with doneIdle := fun _ => hidle }
  · exact inv_busyEdge h

theorem inv_tick (inp : TickIn) {s : State} (h : Inv s) : Inv (tick inp s) :=
  (inv_coreEdge inp h).congr rfl rfl rfl rfl rfl

/-- Settles O46. Each edge enters a state whose pins, working registers and `TMR` it sets itself. -/
theorem edgeKeepsInvariant : Obligations.EdgeKeepsInvariant := fun _ inp h => inv_tick inp h

/-- Settles O44. -/
theorem resetIsSound : Obligations.ResetIsSound := inv_resetWith

end Sys2Proof.Machine
end

section
/-! SUPPORT. Every step keeps the invariant: whole commands from rest to rest, and the other actions of the
host by way of the edges they are made of. -/

namespace Sys2Proof.Machine

/-- An operation keeps the invariant when its body leaves a rested state rested. -/
theorem inv_operation {w : CmdWord} {body : State → State} {s t : State} (h : Rested s)
    (hbody : ∀ {u : State}, Rested u → Rested (body u)) (hop : operation w body s = .next t) : Inv t := by
  obtain rfl : finish (body (accept w s)) = t := by simpa [operation] using hop
  exact inv_finish (hbody (rested_accept w h))

/-- One conversion that the ADC may or may not answer: the trigger pulse is over after it. -/
theorem rested_adcConvert {s : State} (h : Rested s) : Rested (adcConvert s).2 := by
  refine h.of_sound h.sound.kept ?_ rfl
  simp [adcConvert, h.pins, Pins.low]

/-- The loop of conversions, with what follows it: it ends in `IDLE`, or in `S_WAIT` with a conversion
missing. -/
theorem inv_sampleLoop_conclude {rest : State → State}
    (hrest : ∀ {u : State}, Rested u → Rested (rest u)) (n : Nat) {s : State} (h : Rested s) (hr : Running s) (hn : s.data.cnt.toNat + n ≤ s.cfg.val.nSamples) :
    Inv ((sampleLoop n s).conclude rest) := by
  induction n generalizing s with
  | zero => exact inv_finish (hrest h)
  | succ n ih =>
    have hconv := rested_adcConvert h
    have hlt : (adcConvert s).2.data.cnt.toNat < (adcConvert s).2.cfg.val.nSamples := by
      show s.data.cnt.toNat < s.cfg.val.nSamples
      omega
    unfold sampleLoop
    split
    next r u hu =>
      obtain rfl : (adcConvert s).2 = u := congrArg Prod.snd hu
      have hacc : Rested (accumulate r (adcConvert s).2) :=
        hconv.of_sound (sound_accumulate r hconv.sound hlt) rfl rfl
      have hset : Rested (settle (accumulate r (adcConvert s).2)) :=
        hacc.of_sound hacc.sound.kept rfl rfl
      refine ih hset ⟨hr.busy, hr.notDone⟩ ?_
      rw [settle_data, accumulate_cnt r hlt, settle_cfg, accumulate_cfg, adcConvert_cfg]
      show s.data.cnt.toNat + 1 + n ≤ s.cfg.val.nSamples
      omega
    next u hu =>
      obtain rfl : (adcConvert s).2 = u := congrArg Prod.snd hu
      have hwait : Rested { (adcConvert s).2 with seq.st := .sWait } :=
        ⟨hconv.sound.kept, hconv.pins, hconv.bitix, hconv.byteix, hconv.tmr⟩
      exact hwait.inv ⟨hr.busy, hr.notDone⟩ (by simp) rfl rfl fun _ => hlt

/-- SAMPLE and CYCLE keep the invariant, whether or not the ADC answers. -/
theorem inv_sampleVoltage_conclude (w : CmdWord) {rest : State → State}
    (hrest : ∀ {u : State}, Rested u → Rested (rest u)) {s : State} (h : Rested s) :
    Inv ((sampleVoltage (accept w s)).conclude rest) := by
  have hacc := rested_accept w h
  have hr := running_accept w s
  have hclear : Rested (clearSum (accept w s)) := hacc.of_sound (sound_clearSum hacc.sound) rfl rfl
  rw [sampleVoltage_conclude]
  refine inv_sampleLoop_conclude (fun hu => hrest (rested_average hu)) _ hclear ⟨hr.busy, hr.notDone⟩ ?_
  show 0 + s.cfg.val.nSamples ≤ s.cfg.val.nSamples
  omega

theorem inv_exec {i : Instr} {s t : State} (h : Rested s) (hstep : exec i s = .next t) : Inv t := by
  cases i with
  | nop => exact inv_operation h (fun hu => hu) hstep
  | sample => cases hstep; exact inv_sampleVoltage_conclude _ (fun hu => hu) h
  | convert mv => exact inv_operation h (rested_toDigits mv) hstep
  | encode p dp val => exact inv_operation h (rested_encodeBody p dp val) hstep
  | pushbit b => exact inv_operation h (rested_pushBit b) hstep
  | pushbyte x => exact inv_operation h (rested_pushByte x) hstep
  | latch => exact inv_operation h (fun hu => rested_latchPulse (rested_raiseErrorIf _ .frame hu)) hstep
  | showDigits t o d => exact inv_operation h (rested_showBody t o d) hstep
  | cycle => cases hstep; exact inv_sampleVoltage_conclude _ rested_convertAndShow h

/-- A word that is accepted keeps the invariant, legal or not. -/
theorem inv_runWord {w : CmdWord} {s t : State} (h : Rested s) (hrun : runWord w s = .next t) : Inv t := by
  unfold runWord at hrun
  split at hrun
  · exact inv_exec h hrun
  · exact inv_operation h (rested_raiseErrorIf true .cmd) hrun

theorem inv_ticks (n : Nat) {s : State} (h : Inv s) : Inv (ticks n s) := by
  induction n generalizing s with
  | zero => exact h
  | succ n ih => exact ih (inv_tick quiet h)

theorem inv_cutShort (w : CmdWord) (k : Nat) {s : State} (h : Inv s) : Inv (cutShort w k s) :=
  inv_tick resetting (inv_ticks k (inv_tick (presenting w) h))

/-- Every action of the host keeps the invariant. -/
theorem inv_hostAction {a : HostAction} {rest : List HostAction} {s t : State} (h : Inv s)
    (hact : hostAction a rest s = .next t) : Inv t := by
  have hhost : Inv (withHost rest s) := h.congr rfl rfl rfl rfl rfl
  cases a with
  | pause => cases hact; exact inv_tick quiet hhost
  | reset => cases hact; exact inv_tick resetting hhost
  | issue w =>
    simp only [hostAction] at hact
    split at hact
    next hidle =>
      exact inv_runWord (hhost.rested (by rw [withHost_seq, hidle]; rfl) (by rw [withHost_seq, hidle]; rfl)) hact
    next => cases hact; exact inv_tick (presenting w) h
  | issueThenReset w k =>
    simp only [hostAction] at hact
    split at hact
    next => cases hact; exact inv_cutShort w k hhost
    next => cases hact; exact inv_tick (presenting w) h

/-- Settles O45. A command runs from rest to rest; every other action is made of edges. -/
theorem stepKeepsInvariant : Obligations.StepKeepsInvariant := by
  intro s t h hstep
  unfold step at hstep
  split at hstep
  · cases hstep; exact inv_tick quiet h
  · exact inv_hostAction h hstep

end Sys2Proof.Machine
end

section
/-! SUPPORT. The command port: acceptance, the command register and `done` (10_state.md R19, R28, R29). -/

namespace Sys2Proof.Machine

/-! ### Acceptance -/

/-- No path begins in `IDLE` (10_state.md R21). -/
theorem firstState_ne_idle (w : CmdWord) : firstState w ≠ .idle := by
  unfold firstState
  split <;> decide

/-- An edge that accepts a word sets `BUSY`, and can raise the frame error of LATCH. -/
theorem acceptEdge_status (w : CmdWord) (s : State) :
    ∃ c, (acceptEdge w s).status = (raiseErrorIf c .frame (accept w s)).status := by
  cases hd : decode w with
  | error e => exact ⟨false, by simp [acceptEdge, hd]⟩
  | ok i =>
    cases i with
    | latch => exact ⟨s.data.frcnt != 24, by simp [acceptEdge, hd, enterLatch, frameCheck]⟩
    | nop | convert _ | encode _ _ _ | showDigits _ _ _ | sample | cycle | pushbit _ | pushbyte _ =>
      exact ⟨false, by simp [acceptEdge, hd, enterTrigger, startByte, enterLow]⟩

theorem acceptEdge_busy (w : CmdWord) (s : State) : (acceptEdge w s).busy = true := by
  obtain ⟨c, hc⟩ := acceptEdge_status w s
  have hacc : (accept w s).status.getLsbD 0 = true := (running_accept w s).busy
  rw [State.busy, hc, getLsbD_raiseErrorIf, hacc, Bool.true_or]

/-- Settles O13. -/
theorem commandAcceptance : Obligations.CommandAcceptance := by
  refine fun s w => ⟨fun hidle => ?_, fun hbusy => tick_ignores hbusy rfl, ?_⟩
  · obtain ⟨hcmdr, hst, -⟩ := acceptEdge_common w s
    rw [tick_accept w hidle]
    exact ⟨hcmdr, acceptEdge_busy w s, hst.trans_ne (firstState_ne_idle w)⟩
  · rw [tick_reset s rfl, tick_reset s rfl]

/-! ### The command register -/

@[simp] theorem startFrame_cmdr (s : State) : (startFrame s).seq.cmdr = s.seq.cmdr := by
  unfold startFrame
  split <;> rfl

@[simp] theorem endByte_cmdr (s : State) : (endByte s).seq.cmdr = s.seq.cmdr := by
  unfold endByte
  dsimp only
  split_ifs <;> rfl

@[simp] theorem endCell_cmdr (s : State) : (endCell s).seq.cmdr = s.seq.cmdr := by
  unfold endCell
  dsimp only
  split_ifs
  · rfl
  · rw [endByte_cmdr]; rfl
  · rfl

@[simp] theorem endSettle_cmdr (s : State) : (endSettle s).seq.cmdr = s.seq.cmdr := by
  unfold endSettle
  dsimp only
  split <;> rfl

/-- The end of a timed state leaves the command register alone. -/
theorem timedNext_cmdr (st : SeqState) (s : State) : (timedNext st s).seq.cmdr = s.seq.cmdr := by
  cases st with
  | sSettle => exact endSettle_cmdr s
  | bHigh => exact endCell_cmdr s
  | bLow | lLow | lHigh => rfl
  | idle | nExec | eCalc | cCalc | sTrig | sWait | sCalc | dEnc => rfl

/-- No edge of a busy machine writes the command register. -/
theorem busyEdge_cmdr (s : State) : (busyEdge s).seq.cmdr = s.seq.cmdr := by
  cases ht : s.seq.st.timed with
  | true =>
    rw [busyEdge_timed ht, countdown]
    split
    · exact timedNext_cmdr _ s
    · rfl
  | false =>
    unfold busyEdge
    cases hst : s.seq.st with
    | idle | sTrig => rfl
    | nExec => simp [endExec]
    | eCalc => simp
    | cCalc => simp only [endConvert]; split <;> simp
    | sWait => simp only [endWait]; split <;> rfl
    | sCalc => simp only [endAverage]; split <;> rfl
    | dEnc => simp only [endEncode]; split <;> simp
    | sSettle | bLow | bHigh | lLow | lHigh => simp [hst, SeqState.timed] at ht

/-- An edge that neither resets nor accepts leaves the command register alone. -/
theorem tick_cmdr {inp : TickIn} {s : State} (hrst : inp.rst = false)
    (h : s.seq.st ≠ .idle ∨ inp.cmd = none) : (tick inp s).seq.cmdr = s.seq.cmdr := by
  show (coreEdge inp s).seq.cmdr = _
  unfold coreEdge
  split_ifs with hreset hidle
  · simp [hrst] at hreset
  · rw [h.resolve_left (fun hne => hne hidle)]
  · exact busyEdge_cmdr s

/-- The first level of `sr_data` of PUSHBIT is its operand (44_shift_register_bus.md R79). -/
theorem acceptEdge_pushbit_data {w : CmdWord} {b : Bool} (hd : decode w = .ok (.pushbit b)) (s : State) :
    (acceptEdge w s).pins.srData = b := by
  simp [acceptEdge, hd, enterLow]

/-- The first level of `sr_data` of PUSHBYTE is the top bit of its operand (20_memory.md R41). -/
theorem acceptEdge_pushbyte_data {w : CmdWord} {x : Byte} (hd : decode w = .ok (.pushbyte x)) (s : State) :
    (acceptEdge w s).pins.srData = x.getLsbD 7 := by
  simp [acceptEdge, hd, startByte, enterLow, BitVec.msb_eq_getLsbD_last]

/-- Settles O14. -/
theorem commandRegisterHolds : Obligations.CommandRegisterHolds := by
  refine ⟨fun s w hidle => ?_, fun s inp hrst h => tick_cmdr hrst h, fun s inp hrst h => tick_ignores h hrst⟩
  obtain ⟨hcmdr, hst, -⟩ := acceptEdge_common w s
  rw [tick_accept w hidle]
  exact ⟨hcmdr, hst, fun b hd => acceptEdge_pushbit_data hd s, fun x hd => acceptEdge_pushbyte_data hd s⟩

/-! ### The end of an operation -/

/-- The sample phase ends or stalls; either way it leaves `STATUS` alone, and a stall is in `S_WAIT`. -/
theorem sampleVoltage_cases (s : State) :
    (∃ u, sampleVoltage s = .completed u ∧ u.status = s.status) ∨
      ∃ u, sampleVoltage s = .stalled u ∧ u.status = s.status ∧ u.seq.st = .sWait := by
  obtain ⟨cs, hlive⟩ | ⟨k, cs, hk, h1, h2⟩ := live_or_stalls s.cfg.val.nSamples s.adc
  · obtain ⟨u, hu, heq, -⟩ := sampleVoltage_live hlive
    exact .inl ⟨u, hu, by rw [heq]⟩
  · obtain ⟨u, hu, heq, -⟩ := sampleVoltage_stalls ⟨hk, h1, h2⟩
    exact .inr ⟨u, hu, by rw [heq], by rw [heq]⟩

/-- What a command answers: the end of its operation, or a stall of its sample phase. -/
theorem exec_ends {i : Instr} {s t : State} (h : exec i s = .next t) :
    (∃ u, t = finish u) ∨ t.seq.st = .sWait := by
  have hphase : ∀ {rest : State → State} (u : State), (sampleVoltage u).conclude rest = t →
      (∃ u, t = finish u) ∨ t.seq.st = .sWait := by
    rintro rest u rfl
    obtain ⟨v, hv, -⟩ | ⟨v, hv, -, hwait⟩ := sampleVoltage_cases u
    · exact .inl ⟨rest v, by rw [hv]; rfl⟩
    · exact .inr (by rw [hv]; exact hwait)
  cases i with
  | nop | convert _ | encode _ _ _ | pushbit _ | pushbyte _ | latch | showDigits _ _ _ =>
    exact .inl ⟨_, (Host.Outcome.next.inj h).symm⟩
  | sample | cycle => exact hphase _ (Host.Outcome.next.inj h)

/-- In `IDLE` every edge takes `done` low: a reset, an acceptance, or an edge with nothing presented. -/
theorem tick_done_of_idle {s : State} (inp : TickIn) (hidle : s.seq.st = .idle) : (tick inp s).done = false := by
  show (coreEdge inp s).seq.donef = false
  unfold coreEdge
  split_ifs
  · rfl
  · split
    next w _ =>
      obtain ⟨-, -, hdone, -⟩ := acceptEdge_common w s
      exact hdone
    next => rfl

/-- Settles O15. -/
theorem doneLastsOneTick : Obligations.DoneLastsOneTick := by
  refine ⟨fun s inp hidle => tick_done_of_idle inp hidle, fun i s t h hidle => ?_⟩
  obtain ⟨u, rfl⟩ | hwait := exec_ends h
  · exact ⟨rfl, rfl⟩
  · rw [hwait] at hidle
    cases hidle

end Sys2Proof.Machine
end

section
/-! SUPPORT. What operations and edges do to the flags: no error flag is cleared, and `SKIP` is written by the
update of the display only (10_state.md R25, R26). -/

namespace Sys2Proof.Machine

/-! ### Two relations between status words -/

/-- Every error flag that was recorded is still recorded. -/
def ErrorsKept (s t : State) : Prop := ∀ e : ErrorFlag, s.err e = true → t.err e = true

/-- Errors may have been raised, none was cleared, and `SKIP` is as it was. -/
structure OnlyRaises (s t : State) : Prop where
  errors : ErrorsKept s t
  skip : t.skip = s.skip

theorem ErrorsKept.trans {s t u : State} (h : ErrorsKept s t) (h' : ErrorsKept t u) : ErrorsKept s u :=
  fun e he => h' e (h e he)

theorem OnlyRaises.trans {s t u : State} (h : OnlyRaises s t) (h' : OnlyRaises t u) : OnlyRaises s u :=
  ⟨h.errors.trans h'.errors, h'.skip.trans h.skip⟩

theorem errorsKept_of_status {s t : State} (h : t.status = s.status) : ErrorsKept s t :=
  fun e he => by rwa [State.err, h]

theorem onlyRaises_of_status {s t : State} (h : t.status = s.status) : OnlyRaises s t :=
  ⟨errorsKept_of_status h, by rw [State.skip, h]; rfl⟩

/-- The errors and `SKIP` do not see `BUSY`. -/
theorem onlyRaises_of_status_but_busy {s t : State}
    (h : ∀ j, j ≠ 0 → t.status.getLsbD j = s.status.getLsbD j) : OnlyRaises s t := by
  refine ⟨fun e he => ?_, h 1 (by decide)⟩
  have hbit := e.bit_range
  rwa [State.err, h e.bit (by omega)]

/-! ### The operations -/

theorem onlyRaises_accept (w : CmdWord) (s : State) : OnlyRaises s (accept w s) :=
  onlyRaises_of_status_but_busy fun _ hj => getLsbD_setBit_ne (Ne.symm hj) _

theorem onlyRaises_finish (s : State) : OnlyRaises s (finish s) :=
  onlyRaises_of_status_but_busy fun _ hj => getLsbD_clearBit_ne (Ne.symm hj) _

theorem onlyRaises_raiseErrorIf (c : Bool) (e : ErrorFlag) (s : State) : OnlyRaises s (raiseErrorIf c e s) := by
  have hbit := e.bit_range
  refine ⟨fun e' he => ?_, ?_⟩
  · rw [State.err] at he ⊢
    rw [getLsbD_raiseErrorIf, he, Bool.true_or]
  · rw [State.skip, getLsbD_raiseErrorIf, decide_eq_false (by omega), Bool.and_false, Bool.or_false, State.skip]

theorem errorsKept_setSkip (b : Bool) (s : State) : ErrorsKept s (setSkip b s) := by
  intro e he
  have hbit := e.bit_range
  rwa [State.err, getLsbD_setSkip, if_neg (by omega)]

theorem onlyRaises_encodeBody (p : Position) (dp : Bool) (v : Digit) (s : State) :
    OnlyRaises s (encodeBody p dp v s) := by
  have hpat : OnlyRaises s { (enc p v dp s).2 with data.pat := (enc p v dp s).1 } :=
    onlyRaises_of_status (enc_status p v dp s)
  exact hpat.trans (onlyRaises_raiseErrorIf _ .arg _)

theorem onlyRaises_toDigits (v : Millivolts) (s : State) : OnlyRaises s (toDigits v s) := by
  obtain ⟨_, _, _, _, st, heq, rfl | rfl⟩ := toDigits_state v s
  · exact onlyRaises_of_status (by rw [heq])
  · exact (onlyRaises_raiseErrorIf true .range s).trans (onlyRaises_of_status (by rw [heq]; rfl))

theorem onlyRaises_encodeFrame (t o d : Digit) (s : State) : OnlyRaises s (encodeFrame t o d s) :=
  (onlyRaises_raiseErrorIf (digitTooBig t || digitTooBig o || digitTooBig d) .arg s).trans
    (onlyRaises_of_status (by rw [encodeFrame_status, raiseErrorIf_status]; rfl))

/-- The display update writes `SKIP` and clears no error. -/
theorem errorsKept_showBody (t o d : Digit) (s : State) : ErrorsKept s (showBody t o d s) := by
  have henc := (onlyRaises_encodeFrame t o d s).errors
  cases hs : sentinel (encodeFrame t o d s) with
  | true =>
    rw [showBody_suppressed hs]
    exact henc.trans (errorsKept_setSkip true _)
  | false =>
    rw [showBody_shown hs, sendFrame_eq]
    exact henc.trans ((errorsKept_setSkip false _).trans (errorsKept_of_status rfl))

theorem errorsKept_convertAndShow (s : State) : ErrorsKept s (convertAndShow s) :=
  (onlyRaises_toDigits _ s).errors.trans (errorsKept_showBody _ _ _ _)

theorem onlyRaises_pushBit (b : Bool) (s : State) : OnlyRaises s (driveData false (pushBit b s)) :=
  onlyRaises_of_status (by rw [driveData_status, pushBit_eq])

theorem onlyRaises_pushByte (x : Byte) (s : State) : OnlyRaises s (driveData false (pushByte x s)) :=
  onlyRaises_of_status (by rw [driveData_status, pushByte_eq])

theorem onlyRaises_latch (s : State) : OnlyRaises s (latchPulse (frameCheck s)) :=
  (onlyRaises_raiseErrorIf _ .frame s).trans (onlyRaises_of_status (by rw [latchPulse_eq]; rfl))

/-! ### Whole commands -/

theorem onlyRaises_operation (w : CmdWord) {s u : State} (hbody : OnlyRaises (accept w s) u) :
    OnlyRaises s (finish u) :=
  (onlyRaises_accept w s).trans (hbody.trans (onlyRaises_finish u))

/-- The sample phase and what follows it: a stall leaves the flags alone. -/
theorem sampleVoltage_conclude_flags {s : State} {rest : State → State} {R : State → State → Prop}
    (hstall : ∀ u : State, u.status = s.status → R s u)
    (hdone : ∀ u : State, u.status = s.status → R s (finish (rest u))) :
    R s ((sampleVoltage s).conclude rest) := by
  obtain ⟨u, hu, hst⟩ | ⟨u, hu, hst, -⟩ := sampleVoltage_cases s
  · rw [hu]; exact hdone u hst
  · rw [hu]; exact hstall u hst

/-- No command but SHOW and CYCLE does more to the errors and `SKIP` than raise errors. -/
theorem exec_onlyRaises {i : Instr} {s t : State} (h : exec i s = .next t)
    (hshow : ∀ a b c, i ≠ .showDigits a b c) (hcycle : i ≠ .cycle) : OnlyRaises s t := by
  cases i with
  | nop => cases h; exact onlyRaises_operation _ (onlyRaises_of_status rfl)
  | sample =>
    cases h
    exact (onlyRaises_accept _ s).trans (sampleVoltage_conclude_flags (fun _ hu => onlyRaises_of_status hu)
      fun u hu => (onlyRaises_of_status hu).trans (onlyRaises_finish u))
  | convert mv => cases h; exact onlyRaises_operation _ (onlyRaises_toDigits mv _)
  | encode p dp val => cases h; exact onlyRaises_operation _ (onlyRaises_encodeBody p dp val _)
  | pushbit b => cases h; exact onlyRaises_operation _ (onlyRaises_pushBit b _)
  | pushbyte x => cases h; exact onlyRaises_operation _ (onlyRaises_pushByte x _)
  | latch => cases h; exact onlyRaises_operation _ (onlyRaises_latch _)
  | showDigits a b c => exact absurd rfl (hshow a b c)
  | cycle => exact absurd rfl hcycle

/-- Settles O36. -/
theorem onlyShowChangesSkip : Obligations.OnlyShowChangesSkip :=
  fun _ _ _ h hshow hcycle => (exec_onlyRaises h hshow hcycle).skip

theorem exec_errorsKept {i : Instr} {s t : State} (h : exec i s = .next t) : ErrorsKept s t := by
  cases i with
  | nop | sample | convert _ | encode _ _ _ | pushbit _ | pushbyte _ | latch =>
    exact (exec_onlyRaises h (by simp) (by simp)).errors
  | showDigits a b c =>
    cases h
    exact (onlyRaises_accept _ s).errors.trans
      ((errorsKept_showBody a b c _).trans (onlyRaises_finish _).errors)
  | cycle =>
    cases h
    exact (onlyRaises_accept _ s).errors.trans (sampleVoltage_conclude_flags (fun _ hu => errorsKept_of_status hu)
      fun u hu => (errorsKept_of_status hu).trans ((errorsKept_convertAndShow u).trans (onlyRaises_finish _).errors))

/-! ### Edges -/

theorem errorsKept_acceptEdge (w : CmdWord) (s : State) : ErrorsKept s (acceptEdge w s) := by
  obtain ⟨c, hc⟩ := acceptEdge_status w s
  exact (onlyRaises_accept w s).errors.trans
    ((onlyRaises_raiseErrorIf c .frame _).errors.trans (errorsKept_of_status hc))

theorem errorsKept_finishTimed (s : State) : ErrorsKept s (finishTimed s) :=
  (onlyRaises_of_status_but_busy fun _ hj => getLsbD_clearBit_ne (Ne.symm hj) _).errors

theorem errorsKept_endByte (s : State) : ErrorsKept s (endByte s) := by
  unfold endByte
  dsimp only
  split_ifs
  · exact errorsKept_of_status rfl
  · exact errorsKept_of_status rfl
  · exact errorsKept_finishTimed _

theorem errorsKept_endCell (s : State) : ErrorsKept s (endCell s) := by
  unfold endCell
  dsimp only
  split_ifs
  · exact errorsKept_finishTimed _
  · exact (errorsKept_of_status (by rfl)).trans (errorsKept_endByte _)
  · exact errorsKept_of_status rfl

theorem errorsKept_endSettle (s : State) : ErrorsKept s (endSettle s) := by
  unfold endSettle
  dsimp only
  split <;> exact errorsKept_of_status rfl

theorem errorsKept_startFrame (s : State) : ErrorsKept s (startFrame s) := by
  unfold startFrame
  split
  · exact (errorsKept_setSkip true s).trans (onlyRaises_finish _).errors
  · exact (errorsKept_setSkip false s).trans (errorsKept_of_status rfl)

/-- The end of a timed state clears no error. -/
theorem errorsKept_timedNext (st : SeqState) (s : State) : ErrorsKept s (timedNext st s) := by
  cases st with
  | sSettle => exact errorsKept_endSettle s
  | bHigh => exact errorsKept_endCell s
  | lHigh => exact errorsKept_finishTimed _
  | bLow | lLow => exact errorsKept_of_status rfl
  | idle | nExec | eCalc | cCalc | sTrig | sWait | sCalc | dEnc => exact errorsKept_of_status rfl

theorem errorsKept_busyEdge (s : State) : ErrorsKept s (busyEdge s) := by
  cases ht : s.seq.st.timed with
  | true =>
    rw [busyEdge_timed ht, countdown]
    split
    · exact errorsKept_timedNext _ s
    · exact errorsKept_of_status rfl
  | false =>
    have hfin : ∀ {u : State}, OnlyRaises s u → ErrorsKept s (finish u) := fun {u} hu =>
      (hu.trans (onlyRaises_finish u)).errors
    unfold busyEdge
    cases hst : s.seq.st with
    | idle | sTrig => exact errorsKept_of_status rfl
    | nExec => exact hfin (onlyRaises_raiseErrorIf _ .cmd s)
    | eCalc => exact hfin (onlyRaises_encodeBody _ _ _ s)
    | cCalc =>
      simp only [endConvert]
      split
      · exact (onlyRaises_toDigits _ s).errors.trans (errorsKept_of_status rfl)
      · exact hfin (onlyRaises_toDigits _ s)
    | sWait => simp only [endWait]; split <;> exact errorsKept_of_status rfl
    | sCalc =>
      simp only [endAverage]
      split
      · exact errorsKept_of_status rfl
      · exact hfin (onlyRaises_of_status rfl)
    | dEnc =>
      simp only [endEncode]
      split <;> exact (onlyRaises_encodeFrame _ _ _ s).errors.trans (errorsKept_startFrame _)
    | sSettle | bLow | bHigh | lLow | lHigh => simp [hst, SeqState.timed] at ht

theorem errorsKept_tick {inp : TickIn} (s : State) (hrst : inp.rst = false) : ErrorsKept s (tick inp s) := by
  show ErrorsKept s (coreEdge inp s)
  unfold coreEdge
  split_ifs with hreset
  · simp [hrst] at hreset
  · split
    · exact errorsKept_acceptEdge _ s
    · exact errorsKept_of_status rfl
  · exact errorsKept_busyEdge s

/-- A reset clears every flag (10_state.md R31). -/
theorem noErrorRecorded_tick_reset {inp : TickIn} (s : State) (hrst : inp.rst = true) :
    NoErrorRecorded (tick inp s) := by
  obtain ⟨-, -, hstatus, -⟩ := resetCore_core s
  intro e
  rw [tick_reset s hrst]
  show (resetCore s).status.getLsbD e.bit = false
  rw [hstatus]
  exact BitVec.getLsbD_zero

/-- Settles O40. -/
theorem errorFlagsAreSticky : Obligations.ErrorFlagsAreSticky :=
  ⟨fun _ _ _ e h he => exec_errorsKept h e he, fun s _ e hrst he => errorsKept_tick s hrst e he,
    fun s _ hrst => noErrorRecorded_tick_reset s hrst⟩

end Sys2Proof.Machine
end

section
/-! SUPPORT. A run of PUSHBIT commands, as one shift of the chain (20_memory.md R38). -/

namespace Sys2Proof.Machine

/-- Every bit of a stage after a list of bits was shifted in: the last one stands in bit 0. -/
theorem getLsbD_foldl_shiftConcat {n : Nat} (bs : List Bool) (x : BitVec n) {k : Nat} (hk : k < n) :
    (bs.foldl BitVec.shiftConcat x).getLsbD k =
      if k < bs.length then bs.reverse.getD k false else x.getLsbD (k - bs.length) := by
  induction bs generalizing x with
  | nil => simp
  | cons b bs ih =>
    rw [List.foldl_cons, ih, List.length_cons, List.reverse_cons]
    obtain hlt | rfl | hgt := Nat.lt_trichotomy k bs.length
    · rw [if_pos hlt, if_pos (by omega), List.getD_append _ _ _ _ (by simpa using hlt)]
    · rw [if_neg (Nat.lt_irrefl _), if_pos (by omega), List.getD_append_right _ _ _ _ (by simp)]
      simp [show 0 < n by omega]
    · rw [if_neg (by omega), if_neg (by omega), BitVec.getLsbD_shiftConcat, if_neg (by omega),
        decide_eq_true (show k - bs.length < n by omega), Bool.true_and, Nat.sub_sub]

/-- PUSHBIT ends in `IDLE` with one bit more counted and shifted in (44_shift_register_bus.md R78, R79). -/
theorem exec_pushbit (b : Bool) (s : State) :
    ∃ t, exec (.pushbit b) s = .next t ∧ t.seq.st = .idle ∧ t.data.frcnt = frcntSucc s.data.frcnt ∧
      t.chain = { s.chain with sh := s.chain.sh.shiftConcat b } := by
  refine ⟨_, rfl, rfl, ?_, ?_⟩ <;> simp [pushBit_eq]

/-- A run of PUSHBIT commands shifts its bits in one after another. -/
theorem runCommands_pushbits (bs : List Bool) (s : State) :
    ∃ t, runCommands (bs.map .pushbit) s = some t ∧
      t.data.frcnt.toNat = min (s.data.frcnt.toNat + bs.length) 31 ∧
      t.chain = { s.chain with sh := bs.foldl BitVec.shiftConcat s.chain.sh } := by
  induction bs generalizing s with
  | nil =>
    have hf := s.data.frcnt.isLt
    exact ⟨s, rfl, by simp only [List.length_nil]; omega, rfl⟩
  | cons b bs ih =>
    obtain ⟨u, hu, hidle, hcount, hchain⟩ := exec_pushbit b s
    obtain ⟨t, ht, htcount, htchain⟩ := ih u
    refine ⟨t, ?_, ?_, ?_⟩
    · simp only [List.map_cons, runCommands, hu, hidle, if_true, ht]
    · rw [htcount, hcount, frcntSucc_toNat, List.length_cons]
      omega
    · rw [htchain, hchain, List.foldl_cons]

/-- Settles O31. -/
theorem pushedBitsAccumulate : Obligations.PushedBitsAccumulate := by
  intro bs s
  obtain ⟨t, ht, hcount, hchain⟩ := runCommands_pushbits bs s
  refine ⟨t, ht, hcount, by rw [hchain], fun k hk => ?_⟩
  rw [hchain]
  exact getLsbD_foldl_shiftConcat bs s.chain.sh hk

end Sys2Proof.Machine
end

section
/-! SUPPORT. The segment ROM of a legal unit: which cells exist, and that the digit 0 is lit
(20_memory.md R34 to R36). -/

namespace Sys2Proof.Machine

/-- Settles O16. -/
theorem romCellsAndHoles : Obligations.RomCellsAndHoles := by
  intro c p v
  constructor
  · intro hsome
    by_contra hout
    have hhole : romRead c p v = none := romRead_hole c p v (by omega)
    simp [hhole] at hsome
  · rintro ⟨hp, hv⟩
    obtain ⟨b, -, hb⟩ := romRead_inRange c p v hp hv
    simp [hb]

/-- A legal unit has no dark cell for the digit 0 (20_memory.md R34 item 2). -/
theorem zeroDigit_cell_ne_zero (c : LegalConfig) {p : Position} {b : Byte} (hp : p.toNat ≤ 2)
    (hb : (16 * p.toNat, b) ∈ c.val.segRom) : b ≠ 0 := by
  obtain ⟨-, -, -, -, -, -, -, -, hdark⟩ := c.val.legal_iff.mp c.ok
  obtain ⟨h0, h16, h32⟩ := (not_zeroDigitDark_iff (segRom_addrs c)).mp hdark
  obtain hp0 | hp1 | hp2 : p.toNat = 0 ∨ p.toNat = 1 ∨ p.toNat = 2 := by omega
  · exact h0 b (by simpa [hp0] using hb)
  · exact h16 b (by simpa [hp1] using hb)
  · exact h32 b (by simpa [hp2] using hb)

/-- Settles O17. -/
theorem zeroDigitIsLit : Obligations.ZeroDigitIsLit := by
  intro c p hp
  obtain ⟨b, hcell, hread⟩ := romRead_inRange c p 0 hp (Nat.zero_le 9)
  exact ⟨b, hread, zeroDigit_cell_ne_zero c hp (mem_of_read hcell)⟩

end Sys2Proof.Machine
end

section
/-! SUPPORT. What one edge does to the chain: it shifts where a clock pulse rises, it copies to the display where
a latch pulse rises, and nothing else but a reset touches it (20_memory.md R38, R39). -/

namespace Sys2Proof.Machine

/-! ### Operations that leave the chain alone -/

@[simp] theorem encodeBody_chain (p : Position) (dp : Bool) (v : Digit) (s : State) :
    (encodeBody p dp v s).chain = s.chain := by
  obtain ⟨n, h⟩ := enc_state p v dp s
  simp [encodeBody, h]

@[simp] theorem toDigits_chain (v : Millivolts) (s : State) : (toDigits v s).chain = s.chain := by
  obtain ⟨_, _, _, _, _, h, _⟩ := toDigits_state v s
  rw [h]

@[simp] theorem encodeFrame_chain (t o h : Digit) (s : State) : (encodeFrame t o h s).chain = s.chain := by
  obtain ⟨_, _, _, _, e, _⟩ := encodeFrame_state t o h s
  rw [e]

@[simp] theorem startFrame_chain (s : State) : (startFrame s).chain = s.chain := by
  unfold startFrame
  split <;> rfl

@[simp] theorem endByte_chain (s : State) : (endByte s).chain = s.chain := by
  unfold endByte
  dsimp only
  split_ifs <;> rfl

/-- The falling edge of the clock pulse has no effect on the chain (20_memory.md R38). -/
@[simp] theorem endCell_chain (s : State) : (endCell s).chain = s.chain := by
  unfold endCell
  dsimp only
  split_ifs
  · rfl
  · rw [endByte_chain]; rfl
  · rfl

@[simp] theorem endSettle_chain (s : State) : (endSettle s).chain = s.chain := by
  unfold endSettle
  dsimp only
  split <;> rfl

/-! ### Edges -/

/-- The end of a timed state leaves the chain alone, unless a pulse rises there. -/
theorem timedNext_chain {st : SeqState} (hlow : st ≠ .bLow) (hlatch : st ≠ .lLow) (s : State) :
    (timedNext st s).chain = s.chain := by
  cases st with
  | sSettle => exact endSettle_chain s
  | bHigh => exact endCell_chain s
  | lHigh => rfl
  | bLow => exact absurd rfl hlow
  | lLow => exact absurd rfl hlatch
  | idle | nExec | eCalc | cCalc | sTrig | sWait | sCalc | dEnc => rfl

/-- An edge in an untimed state leaves the chain alone. -/
theorem busyEdge_untimed_chain {s : State} (ht : s.seq.st.timed = false) : (busyEdge s).chain = s.chain := by
  unfold busyEdge
  cases hst : s.seq.st with
  | idle | sTrig => rfl
  | nExec => simp [endExec]
  | eCalc => simp
  | cCalc => simp only [endConvert]; split <;> simp
  | sWait => simp only [endWait]; split <;> rfl
  | sCalc => simp only [endAverage]; split <;> rfl
  | dEnc => simp only [endEncode]; split <;> simp
  | sSettle | bLow | bHigh | lLow | lHigh => simp [hst, SeqState.timed] at ht

/-- What an edge of a busy machine does to the chain: the shift of a rising clock, the copy of a rising latch, or
nothing. -/
theorem busyEdge_chain_cases (s : State) :
    (s.seq.st = .bLow ∧ s.seq.tmr ≤ 1 ∧
      (busyEdge s).chain = { s.chain with sh := s.chain.sh.shiftConcat s.pins.srData }) ∨
    (s.seq.st = .lLow ∧ s.seq.tmr ≤ 1 ∧ (busyEdge s).chain = { s.chain with disp := s.chain.sh }) ∨
    (busyEdge s).chain = s.chain := by
  cases ht : s.seq.st.timed with
  | false => exact .inr (.inr (busyEdge_untimed_chain ht))
  | true =>
    rw [busyEdge_timed ht, countdown]
    split
    next hend =>
      by_cases hlow : s.seq.st = .bLow
      · exact .inl ⟨hlow, hend, by rw [hlow]; rfl⟩
      by_cases hlatch : s.seq.st = .lLow
      · exact .inr (.inl ⟨hlatch, hend, by rw [hlatch]; rfl⟩)
      exact .inr (.inr (timedNext_chain hlow hlatch s))
    next => exact .inr (.inr rfl)

/-- A busy edge at which no latch pulse rises leaves the display alone. -/
theorem busyEdge_disp {s : State} (h : ¬ (s.seq.st = .lLow ∧ s.seq.tmr ≤ 1)) :
    (busyEdge s).chain.disp = s.chain.disp := by
  obtain ⟨-, -, hshift⟩ | ⟨hst, hend, -⟩ | hkept := busyEdge_chain_cases s
  · rw [hshift]
  · exact absurd ⟨hst, hend⟩ h
  · rw [hkept]

/-- A reset that cuts no latch pulse short leaves the display alone (70_reset_and_hazards.md R116). -/
theorem resetCore_disp {s : State} (h : s.seq.st ≠ .lHigh) : (resetCore s).chain.disp = s.chain.disp := by
  obtain ⟨-, hclock⟩ | ⟨hst, -⟩ | ⟨-, -, hkept⟩ := resetCore_chain s
  · rw [hclock]
  · exact absurd hst h
  · rw [hkept]

/-- Settles O47, by what an edge can be: a reset, an acceptance, an idle tick or the edge of a busy machine. -/
theorem displayChangesAtLatchOnly : Obligations.DisplayChangesAtLatchOnly := by
  intro s inp hrise hcut
  show (coreEdge inp s).chain.disp = s.chain.disp
  unfold coreEdge
  split_ifs with hrst
  · exact resetCore_disp fun hst => hcut ⟨hst, hrst⟩
  · split
    next w _ =>
      obtain ⟨-, -, -, -, hchain, -⟩ := acceptEdge_common w s
      rw [hchain]
    next => rfl
  · exact busyEdge_disp fun ⟨hst, hend⟩ => hrise ⟨hst, hend, by simpa using hrst⟩

end Sys2Proof.Machine
end

section
/-! SUPPORT. The command word as its fields, the decoder arm by arm, and the three statements about both
(30_encoding.md R48 to R52). -/

namespace Sys2Proof

/-! ### Fields of a word -/

/-- Two fields that stand side by side are one field. -/
theorem extractLsb'_append_adjacent {n : Nat} (x : BitVec n) (start lo hi : Nat) :
    x.extractLsb' (start + lo) hi ++ x.extractLsb' start lo = x.extractLsb' start (hi + lo) := by
  rw [BitVec.extractLsb'_append_extractLsb'_eq_extractLsb' rfl]

/-- A one-bit field as a bit vector. -/
theorem ofBool_getLsbD {n : Nat} (x : BitVec n) (i : Nat) : BitVec.ofBool (x.getLsbD i) = x.extractLsb' i 1 := by
  apply BitVec.eq_of_getLsbD_eq
  intro j hj
  obtain rfl : j = 0 := by omega
  simp

/-- Format Z and format V: an opcode and twelve bits. -/
theorem opcode_append_low (w : CmdWord) : opcodeOf w ++ w.extractLsb' 0 12 = w := by
  rw [opcodeOf, extractLsb'_append_adjacent w 0 12 4, BitVec.extractLsb'_eq_self]

/-- Format E, from the high bits down. -/
theorem formatE_fields (w : CmdWord) :
    opcodeOf w ++ w.extractLsb' 7 5 ++ opP w ++ BitVec.ofBool (opDp w) ++ opVal w = w := by
  rw [opcodeOf, opP, opDp, opVal, ofBool_getLsbD, extractLsb'_append_adjacent w 7 5 4,
    extractLsb'_append_adjacent w 5 2 9, extractLsb'_append_adjacent w 4 1 11,
    extractLsb'_append_adjacent w 0 4 12, BitVec.extractLsb'_eq_self]

/-- Format B, from the high bits down. -/
theorem formatB_fields (w : CmdWord) : opcodeOf w ++ w.extractLsb' 1 11 ++ BitVec.ofBool (opB w) = w := by
  rw [opcodeOf, opB, ofBool_getLsbD, extractLsb'_append_adjacent w 1 11 4,
    extractLsb'_append_adjacent w 0 1 15, BitVec.extractLsb'_eq_self]

/-- Format Y, from the high bits down. -/
theorem formatY_fields (w : CmdWord) : opcodeOf w ++ w.extractLsb' 8 4 ++ opX w = w := by
  rw [opcodeOf, opX, extractLsb'_append_adjacent w 8 4 4, extractLsb'_append_adjacent w 0 8 8,
    BitVec.extractLsb'_eq_self]

/-- Format D, from the high bits down. -/
theorem formatD_fields (w : CmdWord) : opcodeOf w ++ opT w ++ opO w ++ opH w = w := by
  rw [opcodeOf, opT, opO, opH, extractLsb'_append_adjacent w 8 4 4, extractLsb'_append_adjacent w 4 4 8,
    extractLsb'_append_adjacent w 0 4 12, BitVec.extractLsb'_eq_self]

/-- An appended vector determines both of its parts. -/
theorem append_inj {m n : Nat} {a a' : BitVec m} {b b' : BitVec n} (h : a ++ b = a' ++ b') : a = a' ∧ b = b' := by
  constructor
  · rw [← BitVec.extractLsb'_append_eq_left (a := a) (b := b), h, BitVec.extractLsb'_append_eq_left]
  · rw [← BitVec.extractLsb'_append_eq_right (a := a) (b := b), h, BitVec.extractLsb'_append_eq_right]

/-! ### The decoder, arm by arm -/

/-- The must-be-zero check lets exactly the words through whose field is zero. -/
theorem checkZero_eq_ok {n : Nat} {m : String} {field : BitVec n} {i j : Instr} :
    checkZero m field i = .ok j ↔ field = 0 ∧ i = j := by
  unfold checkZero
  split <;> simp_all

/-- The must-be-zero check refuses exactly the words whose field has a 1. -/
theorem checkZero_error_iff {n : Nat} {m : String} {field : BitVec n} {i : Instr} :
    (∃ e, checkZero m field i = .error e) ↔ field ≠ 0 := by
  unfold checkZero
  split <;> simp_all

/-- The opcodes: one for each of the nine commands, and the unused ones. -/
theorem opcode_cases (op : Digit) :
    op = 0 ∨ op = 1 ∨ op = 2 ∨ op = 3 ∨ op = 4 ∨ op = 5 ∨ op = 6 ∨ op = 7 ∨ op = 8 ∨ 9 ≤ op.toNat := by
  decide +revert

section
variable {w : CmdWord}

theorem decode_opcode_nop (h : opcodeOf w = 0) : decode w = checkZero "NOP" (w.extractLsb' 0 12) .nop := by
  simp [decode, h]

theorem decode_opcode_sample (h : opcodeOf w = 1) :
    decode w = checkZero "SAMPLE" (w.extractLsb' 0 12) .sample := by
  simp [decode, h]

theorem decode_opcode_convert (h : opcodeOf w = 2) : decode w = .ok (.convert (opMv w)) := by
  simp [decode, h]

theorem decode_opcode_encode (h : opcodeOf w = 3) :
    decode w = checkZero "ENCODE" (w.extractLsb' 7 5) (.encode (opP w) (opDp w) (opVal w)) := by
  simp [decode, h]

theorem decode_opcode_pushbit (h : opcodeOf w = 4) :
    decode w = checkZero "PUSHBIT" (w.extractLsb' 1 11) (.pushbit (opB w)) := by
  simp [decode, h]

theorem decode_opcode_pushbyte (h : opcodeOf w = 5) :
    decode w = checkZero "PUSHBYTE" (w.extractLsb' 8 4) (.pushbyte (opX w)) := by
  simp [decode, h]

theorem decode_opcode_latch (h : opcodeOf w = 6) :
    decode w = checkZero "LATCH" (w.extractLsb' 0 12) .latch := by
  simp [decode, h]

theorem decode_opcode_show (h : opcodeOf w = 7) : decode w = .ok (.showDigits (opT w) (opO w) (opH w)) := by
  simp [decode, h]

theorem decode_opcode_cycle (h : opcodeOf w = 8) :
    decode w = checkZero "CYCLE" (w.extractLsb' 0 12) .cycle := by
  simp [decode, h]

theorem decode_opcode_unused (h : 9 ≤ (opcodeOf w).toNat) : decode w = .error (.unusedOpcode (opcodeOf w)) := by
  unfold decode
  split
  case h_10 => rfl
  all_goals omega

end

/-! ### Encode, then decode -/

/-- The fields of the word of an ENCODE. -/
theorem fields_encode (p : Position) (dp : Bool) (val : Digit) :
    (encodeInstr (.encode p dp val)).extractLsb' 7 5 = 0 ∧ opP (encodeInstr (.encode p dp val)) = p ∧
      opDp (encodeInstr (.encode p dp val)) = dp ∧ opVal (encodeInstr (.encode p dp val)) = val := by
  obtain ⟨h, hval⟩ := append_inj (formatE_fields (encodeInstr (.encode p dp val)))
  obtain ⟨h, hdp⟩ := append_inj h
  obtain ⟨h, hp⟩ := append_inj h
  exact ⟨(append_inj h).2, hp, BitVec.ofBool_eq_iff_eq.mp hdp, hval⟩

/-- The fields of the word of a PUSHBIT. -/
theorem fields_pushbit (b : Bool) :
    (encodeInstr (.pushbit b)).extractLsb' 1 11 = 0 ∧ opB (encodeInstr (.pushbit b)) = b := by
  obtain ⟨h, hb⟩ := append_inj (formatB_fields (encodeInstr (.pushbit b)))
  exact ⟨(append_inj h).2, BitVec.ofBool_eq_iff_eq.mp hb⟩

/-- The fields of the word of a PUSHBYTE. -/
theorem fields_pushbyte (x : Byte) :
    (encodeInstr (.pushbyte x)).extractLsb' 8 4 = 0 ∧ opX (encodeInstr (.pushbyte x)) = x := by
  obtain ⟨h, hx⟩ := append_inj (formatY_fields (encodeInstr (.pushbyte x)))
  exact ⟨(append_inj h).2, hx⟩

/-- The fields of the word of a SHOW. -/
theorem fields_showDigits (t o h : Digit) :
    opT (encodeInstr (.showDigits t o h)) = t ∧ opO (encodeInstr (.showDigits t o h)) = o ∧
      opH (encodeInstr (.showDigits t o h)) = h := by
  obtain ⟨hw, hh⟩ := append_inj (formatD_fields (encodeInstr (.showDigits t o h)))
  obtain ⟨hw, ho⟩ := append_inj hw
  exact ⟨(append_inj hw).2, ho, hh⟩

/-- Settles O1. The opcode of the word selects the arm, and the fields of the word are the operands. -/
theorem decodeOfEncode : Obligations.DecodeOfEncode := by
  intro i
  cases i with
  | nop | sample | latch | cycle => rfl
  | convert mv =>
    have hmv : opMv (encodeInstr (.convert mv)) = mv := (append_inj (opcode_append_low _)).2
    rw [decode_opcode_convert (Laws.Opcode.convert mv), hmv]
  | encode p dp val =>
    obtain ⟨hz, hp, hdp, hval⟩ := fields_encode p dp val
    rw [decode_opcode_encode (Laws.Opcode.encode p dp val), checkZero_eq_ok, hp, hdp, hval]
    exact ⟨hz, rfl⟩
  | pushbit b =>
    obtain ⟨hz, hb⟩ := fields_pushbit b
    rw [decode_opcode_pushbit (Laws.Opcode.pushbit b), checkZero_eq_ok, hb]
    exact ⟨hz, rfl⟩
  | pushbyte x =>
    obtain ⟨hz, hx⟩ := fields_pushbyte x
    rw [decode_opcode_pushbyte (Laws.Opcode.pushbyte x), checkZero_eq_ok, hx]
    exact ⟨hz, rfl⟩
  | showDigits t o h =>
    obtain ⟨ht, ho, hh⟩ := fields_showDigits t o h
    rw [decode_opcode_show (Laws.Opcode.showDigits t o h), ht, ho, hh]

/-! ### Decode, then encode -/

/-- A word of format Z that passes its check is the word of its command. -/
theorem encodeInstr_of_formatZ {w : CmdWord} {op : Digit} {m : String} {i j : Instr} (hop : opcodeOf w = op)
    (henc : encodeInstr i = op ++ (0 : BitVec 12)) (hdec : checkZero m (w.extractLsb' 0 12) i = .ok j) :
    encodeInstr j = w := by
  obtain ⟨hz, rfl⟩ := checkZero_eq_ok.mp hdec
  rw [henc, ← hop, ← hz, opcode_append_low]

/-- Settles O2. The opcode selects the command, the must-be-zero field is 0, and the word is its fields. -/
theorem encodeOfDecode : Obligations.EncodeOfDecode := by
  intro w i hdec
  obtain h | h | h | h | h | h | h | h | h | h := opcode_cases (opcodeOf w)
  · exact encodeInstr_of_formatZ h rfl (decode_opcode_nop h ▸ hdec)
  · exact encodeInstr_of_formatZ h rfl (decode_opcode_sample h ▸ hdec)
  · obtain rfl := Except.ok.inj (decode_opcode_convert h ▸ hdec)
    have hw := opcode_append_low w
    rwa [h] at hw
  · obtain ⟨hz, rfl⟩ := checkZero_eq_ok.mp (decode_opcode_encode h ▸ hdec)
    have hw := formatE_fields w
    rwa [h, hz] at hw
  · obtain ⟨hz, rfl⟩ := checkZero_eq_ok.mp (decode_opcode_pushbit h ▸ hdec)
    have hw := formatB_fields w
    rwa [h, hz] at hw
  · obtain ⟨hz, rfl⟩ := checkZero_eq_ok.mp (decode_opcode_pushbyte h ▸ hdec)
    have hw := formatY_fields w
    rwa [h, hz] at hw
  · exact encodeInstr_of_formatZ h rfl (decode_opcode_latch h ▸ hdec)
  · obtain rfl := Except.ok.inj (decode_opcode_show h ▸ hdec)
    have hw := formatD_fields w
    rwa [h] at hw
  · exact encodeInstr_of_formatZ h rfl (decode_opcode_cycle h ▸ hdec)
  · rw [decode_opcode_unused h] at hdec
    cases hdec

/-! ### Illegal words -/

/-- A mask of `len` ones from bit `lo` up selects the field of those bits. -/
theorem and_mask_eq_zero_iff {n : Nat} (w : BitVec n) (lo len : Nat) :
    w &&& ((BitVec.allOnes len).setWidth n <<< lo) = 0 ↔ w.extractLsb' lo len = 0 := by
  constructor
  · intro h
    apply BitVec.eq_of_getLsbD_eq
    intro i hi
    have hbit := congrArg (BitVec.getLsbD · (lo + i)) h
    by_cases hn : lo + i < n
    · simpa [hi, hn, show i < n by omega] using hbit
    · simp [BitVec.getLsbD_of_ge w (lo + i) (by omega)]
  · intro h
    apply BitVec.eq_of_getLsbD_eq
    intro i hi
    by_cases hfield : lo ≤ i ∧ i - lo < len
    · have hbit := congrArg (BitVec.getLsbD · (i - lo)) h
      have hw : w.getLsbD i = false := by simpa [hfield.2, Nat.add_sub_cancel' hfield.1] using hbit
      simp [hw]
    · have hmask : ((BitVec.allOnes len).setWidth n <<< lo).getLsbD i = false := by
        have hout : lo ≤ i → len ≤ i - lo := by omega
        simpa using fun _ hlo _ => hout hlo
      simp [-BitVec.getLsbD_shiftLeft, hmask]

/-- The high four bits of a word are its opcode. -/
theorem ushiftRight_12 (w : CmdWord) : w >>> 12 = (opcodeOf w).setWidth 16 := by
  apply BitVec.eq_of_toNat_eq
  have := w.isLt
  simp [opcodeOf, Nat.shiftRight_eq_div_pow]
  omega

/-- Settles O3. The opcode selects the format, whose mask selects its must-be-zero field. -/
theorem illegalWordsExactly : Obligations.IllegalWordsExactly := by
  intro w
  have hZ : w &&& 0x0FFF#16 = 0 ↔ w.extractLsb' 0 12 = 0 := and_mask_eq_zero_iff w 0 12
  have hE : w &&& 0x0F80#16 = 0 ↔ w.extractLsb' 7 5 = 0 := and_mask_eq_zero_iff w 7 5
  have hB : w &&& 0x0FFE#16 = 0 ↔ w.extractLsb' 1 11 = 0 := and_mask_eq_zero_iff w 1 11
  have hY : w &&& 0x0F00#16 = 0 ↔ w.extractLsb' 8 4 = 0 := and_mask_eq_zero_iff w 8 4
  rw [ushiftRight_12, Ne, hZ, Ne, hE, Ne, hB, Ne, hY]
  obtain h | h | h | h | h | h | h | h | h | h := opcode_cases (opcodeOf w)
  · simp [decode_opcode_nop h, checkZero_error_iff, h]
  · simp [decode_opcode_sample h, checkZero_error_iff, h]
  · simp [decode_opcode_convert h, h]
  · simp [decode_opcode_encode h, checkZero_error_iff, h]
  · simp [decode_opcode_pushbit h, checkZero_error_iff, h]
  · simp [decode_opcode_pushbyte h, checkZero_error_iff, h]
  · simp [decode_opcode_latch h, checkZero_error_iff, h]
  · simp [decode_opcode_show h, h]
  · simp [decode_opcode_cycle h, checkZero_error_iff, h]
  · rw [BitVec.toNat_setWidth_of_le (by decide)]
    exact iff_of_true ⟨_, decode_opcode_unused h⟩ (.inl h)

/-- Settles O4. Each legal word is the word of its command; the others fail at the opcode and at the
must-be-zero bits. -/
theorem sampleWordsDecode : Obligations.SampleWordsDecode :=
  ⟨decodeOfEncode .nop, decodeOfEncode .sample, decodeOfEncode (.convert 1250), decodeOfEncode (.encode 1 true 5),
    decodeOfEncode (.pushbit true), decodeOfEncode (.pushbyte 0xA5), decodeOfEncode .latch,
    decodeOfEncode (.showDigits 2 3 4), decodeOfEncode .cycle, rfl, rfl⟩

end Sys2Proof
end

section
/-! SUPPORT. A presented word as a step of an idle machine, and frames on the serial port: the hand-built one
and that of SHOW (30_encoding.md R52, R55, R56). -/

namespace Sys2Proof.Machine

/-! ### The command port -/

/-- In `IDLE` a presented word is accepted and run (10_state.md R28). -/
theorem step_issue {s : State} {w : CmdWord} {rest : List HostAction} (hidle : s.seq.st = .idle)
    (hhost : s.host = .issue w :: rest) : step s = runWord w (withHost rest s) := by
  simp only [step, hhost, hostAction, if_pos hidle]

theorem runWord_ok {w : CmdWord} {i : Instr} (h : decode w = .ok i) (s : State) : runWord w s = exec i s := by
  simp only [runWord, h]

theorem runWord_error {w : CmdWord} {e : Illegal} (h : decode w = .error e) (s : State) :
    runWord w s = execIllegal w s := by
  simp only [runWord, h]

/-- Settles O5. -/
theorem stepRunsDecodedCommand : Obligations.StepRunsDecodedCommand := by
  intro s w rest hidle hhost
  rw [step_issue hidle hhost]
  exact ⟨fun i h => runWord_ok h _, fun e h => runWord_error h _⟩

/-! ### PUSHBYTE and LATCH -/

/-- A flag after an operation is the flag at the end of its body. -/
theorem err_finish (e : ErrorFlag) (s : State) : (finish s).err e = s.err e :=
  getLsbD_clearBit_ne (by have := e.bit_range; omega) s.status

/-- Acceptance touches no error flag. -/
theorem err_accept (e : ErrorFlag) (w : CmdWord) (s : State) : (accept w s).err e = s.err e :=
  getLsbD_setBit_ne (by have := e.bit_range; omega) s.status

/-- PUSHBYTE ends in `IDLE`, counts eight bits, shifts the byte in and leaves the flags
(44_shift_register_bus.md R80, R81). -/
theorem exec_pushbyte (x : Byte) (s : State) :
    ∃ t, exec (.pushbyte x) s = .next t ∧ t.seq.st = .idle ∧
      t.data.frcnt.toNat = min (s.data.frcnt.toNat + 8) 31 ∧
      t.chain.sh = s.chain.sh.extractLsb' 0 16 ++ x ∧
      t.trace = s.trace ++ byteTrace x ++ [.data false] ∧ ∀ e, t.err e = s.err e := by
  refine ⟨_, rfl, rfl, ?_, ?_, ?_, fun e => ?_⟩
  · simp only [finish_data, driveData_data, pushByte_eq, accept_data, BitVec.toNat_ofNat]
    omega
  · simp only [finish_chain, driveData_chain, pushByte_eq, accept_chain]
  · rw [trace_of_log (s := s) (added := byteLog s.cfg.val.pulseTicks x ++ [.ev (.data false)]),
      List.filterMap_append, byteLog_events, List.append_assoc]
    · rfl
    · simp [pushByte_eq]
  · rw [err_finish, ← err_accept e (encodeInstr (.pushbyte x)) s]
    simp only [State.err, driveData_status, pushByte_eq]

/-- LATCH ends in `IDLE`, shows the shift stage, clears the count and raises `FrameError` unless 24 bits were pushed
(44_shift_register_bus.md R82, R83). -/
theorem exec_latch (s : State) :
    ∃ t, exec .latch s = .next t ∧ t.seq.st = .idle ∧ t.data.frcnt = 0 ∧ t.chain.disp = s.chain.sh ∧
      t.trace = s.trace ++ [.latchRise, .latchFall] ∧
      t.err .frame = (s.err .frame || decide (s.data.frcnt.toNat ≠ 24)) := by
  refine ⟨_, rfl, rfl, ?_, ?_, ?_, ?_⟩
  · simp only [finish_data, latchPulse_eq]
  · simp only [finish_chain, latchPulse_eq, frameCheck, raiseErrorIf_chain, accept_chain]
  · refine trace_of_log (added := [.hold s.cfg.val.pulseTicks, .ev .latchRise, .hold s.cfg.val.pulseTicks,
      .ev .latchFall]) ?_
    simp only [finish_log, latchPulse_eq, frameCheck, raiseErrorIf_log, raiseErrorIf_cfg, accept_log, accept_cfg]
  · rw [err_finish, ← err_accept .frame (encodeInstr .latch) s]
    have hcheck : (s.data.frcnt != 24) = decide (s.data.frcnt.toNat ≠ 24) := by
      rw [Bool.eq_iff_iff, bne_iff_ne, decide_eq_true_iff]
      exact BitVec.toNat_ne_iff_ne.symm
    simp only [State.err, latchPulse_eq, frameCheck, getLsbD_raiseErrorIf, accept_data, hcheck, decide_true,
      Bool.and_true]

/-- A program that begins with a command that ends in `IDLE`. -/
theorem runCommands_cons {i : Instr} {s t : State} (hexec : exec i s = .next t) (hidle : t.seq.st = .idle)
    (rest : List Instr) : runCommands (i :: rest) s = runCommands rest t := by
  simp only [runCommands, hexec, hidle, if_true]

/-- Settles O32. Three bytes fill the shift stage and count to 24, so the latch shows them and its check
passes. -/
theorem handBuiltFrame : Obligations.HandBuiltFrame := by
  intro s a b c hzero
  obtain ⟨s1, h1, idle1, count1, chain1, trace1, err1⟩ := exec_pushbyte a s
  obtain ⟨s2, h2, idle2, count2, chain2, trace2, err2⟩ := exec_pushbyte b s1
  obtain ⟨s3, h3, idle3, count3, chain3, trace3, err3⟩ := exec_pushbyte c s2
  obtain ⟨t, h4, idle4, count4, disp4, trace4, err4⟩ := exec_latch s3
  have h24 : s3.data.frcnt.toNat = 24 := by rw [count3, count2, count1, hzero]; rfl
  refine ⟨t, ?_, ?_, ?_, count4, ?_⟩
  · rw [runCommands_cons h1 idle1, runCommands_cons h2 idle2, runCommands_cons h3 idle3,
      runCommands_cons h4 idle4, runCommands]
  · rw [disp4, chain3, chain2, chain1, three_bytes]
  · rw [err4, h24, err3, err2, err1]
    simp
  · rw [trace4, trace3, trace2, trace1]

/-! ### The cells of a frame -/

/-- The levels at the clock edges of a run of bit cells are its bits. -/
theorem levelsAtRise_bitTraces (bs : List Bool) (level : Bool) (es : List Event) :
    levelsAtRise level (bs.flatMap bitTrace ++ es) = bs ++ levelsAtRise (bs.getLastD level) es := by
  induction bs generalizing level with
  | nil => rfl
  | cons b bs ih =>
    rw [List.getLastD_cons, List.cons_append, ← ih b]
    rfl

theorem length_bitTraces (bs : List Bool) : (bs.flatMap bitTrace).length = 3 * bs.length := by
  induction bs with
  | nil => rfl
  | cons b bs ih =>
    rw [List.flatMap_cons, List.length_append, ih, List.length_cons, Nat.mul_succ, Nat.add_comm]
    rfl

/-- Every cell of a run of bit cells has one clock pulse (44_shift_register_bus.md R78). -/
theorem getElem?_bitTraces {bs : List Bool} {k : Nat} (hk : k < bs.length) (es : List Event) :
    (bs.flatMap bitTrace ++ es)[3 * k + 1]? = some .clkRise ∧
      (bs.flatMap bitTrace ++ es)[3 * k + 2]? = some .clkFall := by
  induction bs generalizing k with
  | nil => cases hk
  | cons b bs ih =>
    cases k with
    | zero => exact ⟨rfl, rfl⟩
    | succ k => exact ih (Nat.lt_of_succ_lt_succ hk)

/-- A run of bit cells does not latch. -/
theorem latchRise_not_mem_bitTraces (bs : List Bool) : Event.latchRise ∉ bs.flatMap bitTrace := by
  simp [bitTrace]

/-- The bits of a frame in the order of its cells (30_encoding.md R55). -/
def frameBits (p0 p1 p2 : Byte) : List Bool := msbFirst p0 ++ msbFirst p1 ++ msbFirst p2

/-- A frame is 24 bit cells, the return of `sr_data` to 0 and a latch pulse. -/
theorem frameTrace_eq (p0 p1 p2 : Byte) :
    frameTrace p0 p1 p2 =
      (frameBits p0 p1 p2).flatMap bitTrace ++ [.data false, .latchRise, .latchFall] := by
  simp only [frameTrace, frameBits, byteTrace, List.flatMap_append]

theorem length_frameBits (p0 p1 p2 : Byte) : (frameBits p0 p1 p2).length = 24 := rfl

/-- Cell `k` carries bit `7 - k mod 8` of byte `k div 8` (30_encoding.md R55). -/
theorem getElem?_frameBits (p0 p1 p2 : Byte) {k : Nat} (hk : k < 24) :
    (frameBits p0 p1 p2)[k]? =
      some ((if k / 8 = 0 then p0 else if k / 8 = 1 then p1 else p2).getLsbD (7 - k % 8)) := by
  interval_cases k <;> rfl

/-- The levels at the clock edges of a frame are its bits, whatever the level before it. -/
theorem levelsAtRise_frameTrace (p0 p1 p2 : Byte) (level : Bool) :
    levelsAtRise level (frameTrace p0 p1 p2) = frameBits p0 p1 p2 := by
  rw [frameTrace_eq, levelsAtRise_bitTraces]
  exact List.append_nil _

/-- A SHOW that leaves `SKIP` at 0 sent the frame of the patterns it leaves (45_display_controller.md R88). -/
theorem exec_show_trace {s s' : State} {t o h : Digit} (hexec : exec (.showDigits t o h) s = .next s')
    (hskip : s'.skip = false) : s'.trace = s.trace ++ frameTrace s'.data.p0 s'.data.p1 s'.data.p2 := by
  obtain rfl := Host.Outcome.next.inj hexec
  cases hs : sentinel (encodeFrame t o h (accept (encodeInstr (.showDigits t o h)) s)) with
  | true =>
    rw [showBody_suppressed hs, State.skip, finish_status, getLsbD_clearBit_ne (by decide), getLsbD_setSkip] at hskip
    cases hskip
  | false =>
    rw [showBody_shown hs, sendFrame_eq, ← frameLog_events s.cfg.val.pulseTicks]
    apply trace_of_log
    simp [encodeFrame_log]

/-- Settles O35. The events are those of the frame, which is 24 bit cells and a latch pulse. -/
theorem frameBitOrder : Obligations.FrameBitOrder := by
  intro s s' t o h hexec hskip
  have hcells : ((frameBits s'.data.p0 s'.data.p1 s'.data.p2).flatMap bitTrace).length = 72 :=
    length_bitTraces _
  refine ⟨_, exec_show_trace hexec hskip, ?_, fun level k hk => ?_, fun level => ?_, fun k hk => ?_, ?_, ?_⟩
  · rw [frameTrace_eq, List.length_append, hcells]
    rfl
  · rw [levelsAtRise_frameTrace, getElem?_frameBits _ _ _ hk]
  · rw [levelsAtRise_frameTrace, length_frameBits]
  · rw [frameTrace_eq]
    exact getElem?_bitTraces hk _
  · rw [frameTrace_eq, List.count_append, List.count_eq_zero.mpr (latchRise_not_mem_bitTraces _)]
    rfl
  · rw [frameTrace_eq, ← hcells, List.drop_left]

end Sys2Proof.Machine
end

section
/-! SUPPORT. ENCODE as one update of the state, at a cell of the table and at a hole, and what it leaves as it was
(41_segment_encoder.md R60 to R63). -/

namespace Sys2Proof.Machine

/-! ### The pattern with the point -/

theorem withPoint_eq (dp : Bool) (b : Byte) : withPoint dp b = if dp then b ||| 0x40 else b := rfl

/-- A byte that has bit 6 already has the point (41_segment_encoder.md R61). -/
theorem withPoint_of_getLsbD {b : Byte} (h : b.getLsbD 6 = true) (dp : Bool) : withPoint dp b = b := by
  cases dp with
  | false => rfl
  | true =>
    apply BitVec.eq_of_getLsbD_eq
    intro i hi
    by_cases hbit : 6 = i
    · subst hbit
      rw [h, (withPoint_true b).2.1]
    · simp [withPoint, Config.dpBit, hbit]

/-- Settles O18. Both lookups answer the cell's byte, one with the point. -/
theorem encoderProperties : Obligations.EncoderProperties := by
  intro s p v hp hv
  obtain ⟨b, hcell, hplain⟩ := enc_inRange p v false s hp hv
  obtain ⟨b', hcell', hpoint⟩ := enc_inRange p v true s hp hv
  obtain rfl : b = b' := Option.some.inj (hcell.symm.trans hcell')
  obtain ⟨hor, hbit, hlit⟩ := withPoint_true b
  refine ⟨b, hcell, hplain, by rw [hpoint, hor], by rwa [hpoint], by rwa [hpoint], fun hset => ?_⟩
  rw [hpoint, hplain, withPoint_of_getLsbD hset, withPoint_of_getLsbD hset]

/-! ### The body of ENCODE -/

/-- In range the body writes `PAT` and nothing else (41_segment_encoder.md R62). -/
theorem encodeBody_inRange {p : Position} {v : Digit} (hp : p.toNat ≤ 2) (hv : v.toNat ≤ 9) (dp : Bool)
    (s : State) : ∃ b, Memory.read s.cfg.val.segRom (16 * p.toNat + v.toNat) = some b ∧
      encodeBody p dp v s = { s with data.pat := withPoint dp b } := by
  obtain ⟨b, hcell, henc⟩ := enc_inRange p v dp s hp hv
  refine ⟨b, hcell, ?_⟩
  simp only [encodeBody, henc, (segInRange_iff p v).mpr ⟨hp, hv⟩, Bool.not_true, raiseErrorIf_false]

/-- Out of range the body writes a free value to `PAT` and raises `ArgError` (41_segment_encoder.md R63). -/
theorem encodeBody_outOfRange {p : Position} {v : Digit} (h : 2 < p.toNat ∨ 9 < v.toNat) (dp : Bool) (s : State) :
    encodeBody p dp v s = { s with
      data.pat := Config.freeByte s.draws
      status := setBit 3 s.status
      draws := s.draws + 1 } := by
  have hrange : segInRange p v = false := by
    rw [← Bool.not_eq_true, segInRange_iff]
    omega
  simp only [encodeBody, enc_hole p v dp s h, hrange, Bool.not_false, raiseErrorIf_true]
  rfl

/-! ### The command -/

/-- An operation whose body writes data registers, the status and the count of draws only. -/
theorem operation_frame (w : CmdWord) (s : State) {u : State} {d : DataRegs} {st : BitVec 8} {n : Nat}
    (hbody : u = { accept w s with data := d, status := st, draws := n }) :
    Completed w (finish u) ∧ PinsKept s (finish u) ∧ WorkKept s (finish u) ∧ UnitKept s (finish u) ∧
      (finish u).adc = s.adc := by
  subst hbody
  exact ⟨completed_finish w _ rfl, ⟨rfl, rfl, rfl⟩, ⟨rfl, rfl, rfl, rfl⟩, unitKept_of s _ rfl rfl, rfl⟩

theorem exec_encode (p : Position) (dp : Bool) (v : Digit) (s : State) :
    exec (.encode p dp v) s =
      .next (finish (encodeBody p dp v (accept (encodeInstr (.encode p dp v)) s))) := rfl

/-- Settles O19. The body writes `PAT` only, so the frame is that of acceptance and end. -/
theorem encodeInRange : Obligations.EncodeInRange := by
  intro s p dp v hp hv
  obtain ⟨b, hcell, hbody⟩ := encodeBody_inRange hp hv dp (accept (encodeInstr (.encode p dp v)) s)
  obtain ⟨hdone, hpins, hwork, hunit, hadc⟩ := operation_frame (encodeInstr (.encode p dp v)) s hbody
  refine ⟨b, _, hcell, exec_encode p dp v s, ?_, hdone, ?_, hpins, hwork, hunit, hadc, ?_⟩
  · rw [hbody, withPoint_eq]
    rfl
  · exact statusKept_operation (encodeInstr (.encode p dp v)) s _ [] fun j _ _ => by rw [hbody]
  · rw [hbody]
    rfl

/-- Settles O20. The body writes `PAT`, `ERR_ARG` and the count of free values. -/
theorem encodeOutOfRange : Obligations.EncodeOutOfRange := by
  intro s p dp v hout
  have hbody := encodeBody_outOfRange (p := p) (v := v) (by omega) dp (accept (encodeInstr (.encode p dp v)) s)
  obtain ⟨hdone, hpins, hwork, hunit, hadc⟩ := operation_frame (encodeInstr (.encode p dp v)) s hbody
  refine ⟨_, exec_encode p dp v s, ?_, ?_, hdone, ?_, hpins, hwork, hunit, hadc⟩
  · rw [err_finish, hbody]
    exact getLsbD_setBit_self 3 (by decide) _
  · rw [hbody]
    rfl
  · refine statusKept_operation (encodeInstr (.encode p dp v)) s _ [3] fun j _ hj => ?_
    rw [hbody]
    exact getLsbD_setBit_ne (List.ne_of_not_mem_cons hj).symm _

end Sys2Proof.Machine
end

section
/-! SUPPORT. SAMPLE as one update of the state: its four results when the ADC answers, what they are when the
samples are equal or reordered, and the stalled state (42_analog_sampler.md R64 to R72). -/

namespace Sys2Proof.Machine

/-! ### The four results of an averaging cycle -/

/-- The sampler's registers after an averaging cycle with these conversions (42_analog_sampler.md R67 to R69). -/
structure SampleResults (c : LegalConfig) (cs : List Conversion) (d : DataRegs) : Prop where
  acc : d.acc.toNat = sampleSum cs
  cnt : d.cnt.toNat = c.val.nSamples
  avg : d.avg.toNat = sampleSum cs / c.val.nSamples
  volt : d.volt.toNat = sampleSum cs / c.val.nSamples * c.val.scale

/-- What an averaging cycle leaves as it was: it writes data registers, `ST`, the trigger pin and the log, and the
ADC answers it. -/
theorem sampling_frame {w : CmdWord} {s u : State} {d : DataRegs} {st : SeqState} {a : Adc} {l : List LogEntry}
    (hu : u = { accept w s with data := d, seq.st := st, pins.adcStart := false, adc := a, log := l }) :
    StatusKept [] s u ∧ u.pins = { s.pins with adcStart := false } ∧ u.chain = s.chain ∧ WorkKept s u ∧
      UnitKept s u ∧ u.draws = s.draws := by
  subst hu
  exact ⟨fun _ hj _ => getLsbD_setBit_ne hj.symm _, rfl, rfl, ⟨rfl, rfl, rfl, rfl⟩, unitKept_of s _ rfl rfl,
    rfl⟩

/-- SAMPLE with an ADC that answers, as one update of the accepted state. -/
theorem exec_sample_live {s : State} {cs : List Conversion} (h : AdcLive s cs) :
    ∃ u, exec .sample s = .next (finish u) ∧
      u = { accept (encodeInstr .sample) s with
        data.acc := u.data.acc, data.cnt := u.data.cnt, data.avg := u.data.avg, data.volt := u.data.volt
        pins.adcStart := false
        adc := adcAfter s.cfg.val.nSamples s.adc
        log := s.log ++ sampleLog s.cfg.val.settleTicks cs } ∧
      SampleResults s.cfg cs u.data := by
  obtain ⟨u, hphase, hu, hacc, hcnt, havg, hvolt⟩ := sampleVoltage_live (s := accept (encodeInstr .sample) s) h
  have hexec : exec .sample s = .next ((sampleVoltage (accept (encodeInstr .sample) s)).conclude id) := rfl
  exact ⟨u, by rw [hexec, hphase]; rfl, hu, hacc, hcnt, havg, hvolt⟩

theorem exec_sample_results {s t : State} {cs : List Conversion} (h : AdcLive s cs) (hexec : exec .sample s = .next t) :
    SampleResults s.cfg cs t.data := by
  obtain ⟨u, hu, -, hres⟩ := exec_sample_live h
  obtain rfl : finish u = t := Host.Outcome.next.inj (hu.symm.trans hexec)
  exact hres

/-- Settles O24. Every clause is read off the one update of `exec_sample_live`. -/
theorem sampleResult : Obligations.SampleResult := by
  intro s cs hlive
  obtain ⟨u, hexec, hu, hres⟩ := exec_sample_live hlive
  obtain ⟨-, hpins, hchain, hwork, hunit, hdraws⟩ :=
    sampling_frame (st := (accept (encodeInstr .sample) s).seq.st) hu
  have htrace : (finish u).trace = s.trace ++ sampleTrace cs := by
    rw [← sampleLog_events s.cfg.val.settleTicks cs]
    exact trace_of_log (by rw [finish_log, hu])
  have hdata : u.data = { s.data with
      acc := u.data.acc, cnt := u.data.cnt, avg := u.data.avg, volt := u.data.volt } := congrArg State.data hu
  have hcmdr : u.seq.cmdr = encodeInstr .sample := by rw [hu]; rfl
  have hstatus : StatusKept [] s (finish u) :=
    statusKept_operation (encodeInstr .sample) s u [] fun _ _ _ => by rw [hu]
  exact ⟨finish u, hexec, hres.acc, hres.cnt, hres.avg, hres.volt, htrace, nextConversions_length hlive, hdata, hpins,
    hchain, completed_finish _ u hcmdr, hstatus, hwork, hunit, hdraws⟩

/-- The conversions decide all four results. -/
theorem SampleResults.unique {c : LegalConfig} {cs : List Conversion} {d d' : DataRegs} (h : SampleResults c cs d)
    (h' : SampleResults c cs d') : d'.acc = d.acc ∧ d'.cnt = d.cnt ∧ d'.avg = d.avg ∧ d'.volt = d.volt :=
  ⟨BitVec.eq_of_toNat_eq (h'.acc.trans h.acc.symm), BitVec.eq_of_toNat_eq (h'.cnt.trans h.cnt.symm),
    BitVec.eq_of_toNat_eq (h'.avg.trans h.avg.symm), BitVec.eq_of_toNat_eq (h'.volt.trans h.volt.symm)⟩

/-! ### Equal samples, bounds and order (42_analog_sampler.md R72) -/

theorem sampleSum_perm {cs cs' : List Conversion} (h : cs.Perm cs') : sampleSum cs = sampleSum cs' :=
  (h.map _).sum_eq

theorem sampleSum_of_equal {cs : List Conversion} {r : RawSample} (h : ∀ c ∈ cs, c.result = r) :
    sampleSum cs = cs.length * r.toNat := by
  have hmap : (cs.map fun c => c.result.toNat) = cs.map fun _ => r.toNat :=
    List.map_congr_left fun c hc => by rw [h c hc]
  rw [sampleSum, hmap, List.map_const', List.sum_replicate, smul_eq_mul]

/-- The results do not depend on the order of the conversions. -/
theorem SampleResults.perm {c : LegalConfig} {cs cs' : List Conversion} {d : DataRegs} (h : SampleResults c cs d)
    (hperm : cs.Perm cs') : SampleResults c cs' d := by
  obtain ⟨hacc, hcnt, havg, hvolt⟩ := h
  rw [sampleSum_perm hperm] at hacc havg hvolt
  exact ⟨hacc, hcnt, havg, hvolt⟩

/-- Settles O27. The voltage is the average times `SCALE`, and the average is the quotient of a sum of `N_SAMPLES`
results by `N_SAMPLES`. -/
theorem sampleProperties : Obligations.SampleProperties := by
  intro s t cs hlive hexec
  have hres := exec_sample_results hlive hexec
  have havg : t.data.volt.toNat = t.data.avg.toNat * s.cfg.val.scale := by rw [hres.volt, hres.avg]
  have hlt : t.data.avg.toNat ≤ 1023 := Nat.le_of_lt_succ t.data.avg.isLt
  refine ⟨fun r hr => ?_, ?_, ?_, fun s' t' cs' hcfg hlive' hperm hexec' => ?_⟩
  · have hmean : t.data.avg = r := by
      apply BitVec.eq_of_toNat_eq
      rw [hres.avg, sampleSum_of_equal hr, nextConversions_length hlive, Nat.mul_div_cancel_left _ (nSamples_pos s.cfg)]
    exact ⟨hmean, by rw [havg, hmean]⟩
  · rw [havg]; exact Nat.mul_le_mul_right _ hlt
  · rw [havg]; exact Nat.dvd_mul_left _ _
  · have hres' := exec_sample_results hlive' hexec'
    rw [hcfg] at hres'
    obtain ⟨-, -, -, hvolt⟩ := (hres.perm hperm).unique hres'
    exact hvolt

/-! ### The stall (42_analog_sampler.md R71) -/

/-- Waiting in `S_WAIT` for an ADC that has nothing in progress and shows no completion. -/
structure Hung (s : State) : Prop where
  st : s.seq.st = .sWait
  trigger : s.pins.adcStart = false
  conv : s.adc.conv = none
  done : s.adc.done = false

/-- No edge without reset changes a hung machine, whatever the host presents. -/
theorem Hung.tick_eq {s : State} (h : Hung s) {inp : TickIn} (hrst : inp.rst = false) : tick inp s = s := by
  rw [tick_ignores (h.st.trans_ne (by decide)) hrst, tick_stalled h.st h.trigger h.conv h.done]

theorem Hung.ticks_eq {s : State} (h : Hung s) (n : Nat) : ticks n s = s :=
  ticks_stalled h.st h.trigger h.conv h.done n

/-- SAMPLE and CYCLE are the sample phase and something after it. -/
theorem exec_sampling {i : Instr} (hi : i = .sample ∨ i = .cycle) (s : State) :
    ∃ rest, exec i s = .next ((sampleVoltage (accept (encodeInstr i) s)).conclude rest) := by
  obtain rfl | rfl := hi
  · exact ⟨id, rfl⟩
  · exact ⟨convertAndShow, rfl⟩

/-- A stalled SAMPLE or CYCLE is its stalled sample phase, as one update of the accepted state. -/
theorem exec_stalls {i : Instr} {s : State} {k : Nat} {cs : List Conversion} (hi : i = .sample ∨ i = .cycle)
    (h : AdcStalls s k cs) :
    ∃ t, exec i s = .next t ∧ sampleVoltage (accept (encodeInstr i) s) = .stalled t ∧ Hung t ∧
      t = { accept (encodeInstr i) s with
        data.acc := t.data.acc, data.cnt := t.data.cnt
        seq.st := .sWait
        pins.adcStart := false
        adc := adcAnswered none (nextAnswer (adcAfter k s.adc)).2
        log := s.log ++ (sampleLog s.cfg.val.settleTicks cs ++ [.ev .adcStart, .hold 1]) } ∧
      t.data.acc.toNat = sampleSum cs ∧ t.data.cnt.toNat = k := by
  obtain ⟨rest, hexec⟩ := exec_sampling hi s
  obtain ⟨t, hphase, ht, hacc, hcnt⟩ := sampleVoltage_stalls (s := accept (encodeInstr i) s) h
  rw [List.append_assoc] at ht
  have hung : Hung t :=
    ⟨congrArg (fun v => v.seq.st) ht, congrArg (fun v => v.pins.adcStart) ht, congrArg (fun v => v.adc.conv) ht,
      congrArg (fun v => v.adc.done) ht⟩
  exact ⟨t, by rw [hexec, hphase]; rfl, hphase, hung, ht, hacc, hcnt⟩

/-- Settles O25. A stall is hung, so no edge but a reset changes it; the rest is read off the update. -/
theorem stallHangs : Obligations.StallHangs := by
  intro i s k cs hi hstall
  obtain ⟨t, hexec, -, hung, ht, hacc, hcnt⟩ := exec_stalls hi hstall
  obtain ⟨hstatus, hpins, hchain, hwork, hunit, hdraws⟩ := sampling_frame ht
  have hbusy : t.busy = true := by
    rw [ht]
    exact getLsbD_setBit_self 0 (by decide) _
  have hready : t.cmdReady false = false := by rw [State.cmdReady, hung.st]; rfl
  have hdone : t.done = false := by rw [ht]; rfl
  have hdata : t.data = { s.data with acc := t.data.acc, cnt := t.data.cnt } := congrArg State.data ht
  have htrace : t.trace = s.trace ++ sampleTrace cs ++ [.adcStart] := by
    rw [trace_of_log (s := s) (by rw [ht]), List.filterMap_append, sampleLog_events, List.append_assoc]
    rfl
  exact ⟨t, hexec, hung.st, hbusy, hready, hdone, hdata, hacc, hcnt, hstatus, htrace, hchain, hpins, hwork, hunit,
    hdraws, fun _ hrst => hung.tick_eq hrst, fun _ hrst => by rw [tick_reset t hrst]; rfl⟩

/-! ### Nothing of an earlier state (42_analog_sampler.md R65) -/

/-- Settles O26. The ADC answers or stalls alike for both machines, and its answers decide the results. -/
theorem sampleDependsOnAdcOnly : Obligations.SampleDependsOnAdcOnly := by
  intro s s' t t' hcfg hadc hexec hexec'
  obtain ⟨cs, hlive⟩ | ⟨k, cs, hstall⟩ := live_or_stalls s.cfg.val.nSamples s.adc
  · have hlive' : AdcLive s' cs := by rwa [AdcLive, hcfg, hadc]
    have hres' := exec_sample_results hlive' hexec'
    rw [hcfg] at hres'
    obtain ⟨hacc, hcnt, havg, hvolt⟩ := (exec_sample_results hlive hexec).unique hres'
    exact ⟨hacc, hcnt, fun _ => ⟨havg, hvolt⟩⟩
  · have hstall' : AdcStalls s' k cs := by rwa [AdcStalls, hcfg, hadc]
    obtain ⟨u, hu, -, hung, -, hacc, hcnt⟩ := exec_stalls (.inl rfl) hstall
    obtain ⟨u', hu', -, -, -, hacc', hcnt'⟩ := exec_stalls (.inl rfl) hstall'
    obtain rfl : u = t := Host.Outcome.next.inj (hu.symm.trans hexec)
    obtain rfl : u' = t' := Host.Outcome.next.inj (hu'.symm.trans hexec')
    refine ⟨BitVec.eq_of_toNat_eq (hacc'.trans hacc.symm), BitVec.eq_of_toNat_eq (hcnt'.trans hcnt.symm),
      fun hidle => ?_⟩
    rw [hung.st] at hidle
    cases hidle

end Sys2Proof.Machine
end

section
/-! SUPPORT. One conversion of the reference sequencer against `adc_convert()` of the command level, and the stall
of both (42_analog_sampler.md R66, R71; 70_reset_and_hazards.md R128). -/

namespace Sys2Proof.Machine

/-! ### `S_WAIT` against the ADC (60_exceptions.md R107) -/

/-- A machine in `S_WAIT` whose ADC is `a`. -/
def waiting (a : Adc) (v : State) : State := { v with seq.st := .sWait, seq.tmr := 0, pins.adcStart := false, adc := a }

/-- The trigger edge: `S_TRIG` lasts one tick, and the ADC begins its answer. -/
theorem tick_enterTrigger (u : State) :
    tick quiet (enterTrigger u) = waiting (adcEdge true u.adc) (adcConvert u).2 := rfl

/-- With `adc_done` low only the ADC moves (42_analog_sampler.md R66). -/
theorem tick_waiting {a : Adc} (hdone : a.done = false) (v : State) :
    tick quiet (waiting a v) = waiting (adcEdge false a) v := by
  simp [tick, coreEdge, quiet, waiting, busyEdge, endWait, hdone]

/-- A completion that stands on the port is accumulated, and the settle wait begins (42_analog_sampler.md R66). -/
theorem tick_waiting_done {a : Adc} (hdone : a.done = true) (hconv : a.conv = none) (v : State) :
    tick quiet (waiting a v) = enterTimed .sSettle v.cfg.val.settleTicks (accumulate a.data (waiting a v)) := by
  rw [tick_busy (s := waiting a v) (by simp [waiting]) rfl hconv]
  simp [waiting, busyEdge, endWait, hdone]

/-- A conversion in progress ends with the last low tick of `adc_done`. -/
theorem ticks_waiting {a : Adc} {d : Nat} {x : RawSample} (hdone : a.done = false) (hconv : a.conv = some ⟨d, x⟩)
    (v : State) : ticks (d + 1) (waiting a v) = waiting { a with done := true, data := x, conv := none } v := by
  induction d generalizing a with
  | zero => rw [ticks, ticks, tick_waiting hdone, adcEdge, hconv]; rfl
  | succ d ih =>
    have hedge : adcEdge false a = { a with conv := some ⟨d, x⟩ } := by simp [adcEdge, hconv]
    rw [ticks, tick_waiting hdone, hedge]
    exact ih (a := { a with conv := some ⟨d, x⟩ }) hdone rfl

/-- An ADC that answers passes its low ticks of `adc_done`, and then shows its result. -/
theorem ticks_waiting_answered {a b : Adc} {c : Conversion} (h : nextAnswer a = (some c, b)) (v : State) :
    ticks c.delay (waiting (adcEdge true a) v) = waiting (adcAnswered (some c) b) v := by
  obtain ⟨d, x⟩ := c
  cases d with
  | zero => simp [ticks, adcEdge, adcAnswered, h]
  | succ d =>
    have hedge : adcEdge true a = { b with done := false, conv := some ⟨d, x⟩ } := by simp [adcEdge, h]
    rw [hedge]
    exact ticks_waiting rfl rfl v

/-! ### One conversion -/

/-- The settle wait lasts `SETTLE_TICKS` ticks (42_analog_sampler.md R70). -/
theorem ticks_settle {v : State} (htrigger : v.pins.adcStart = false) (hconv : v.adc.conv = none) :
    ticks v.cfg.val.settleTicks (enterTimed .sSettle v.cfg.val.settleTicks v) =
      endSettle (enterTimed .sSettle 1 v) := by
  obtain ⟨n, hn⟩ := Nat.exists_eq_add_of_le' (settle_pos v.cfg)
  rw [hn]
  exact ticks_timed_end (s := enterTimed .sSettle (n + 1) v) rfl htrigger hconv rfl

/-- One conversion of the reference sequencer, from its trigger tick: what the command level does up to the settle
wait, and then the end of that wait (70_reset_and_hazards.md R128). -/
theorem ticks_conversion {u : State} {c : Conversion} {a : Adc} (hnext : nextAnswer u.adc = (some c, a)) :
    ticks (1 + (c.delay + 1) + u.cfg.val.settleTicks) (enterTrigger u) =
      endSettle (enterTimed .sSettle 1 (accumulate c.result (adcConvert u).2)) := by
  have hadc : (adcConvert u).2.adc = adcAnswered (some c) a := by rw [adcConvert_some hnext]
  have hsettle : ticks u.cfg.val.settleTicks
      (enterTimed .sSettle u.cfg.val.settleTicks (accumulate c.result (adcConvert u).2)) =
        endSettle (enterTimed .sSettle 1 (accumulate c.result (adcConvert u).2)) :=
    ticks_settle (v := accumulate c.result (adcConvert u).2) rfl (by rw [accumulate_adc, hadc]; rfl)
  calc ticks (1 + (c.delay + 1) + u.cfg.val.settleTicks) (enterTrigger u)
      = ticks u.cfg.val.settleTicks (tick quiet (ticks c.delay (waiting (adcEdge true u.adc) (adcConvert u).2))) := by
        rw [ticks_add, ticks_add, ticks_add]; rfl
    _ = ticks u.cfg.val.settleTicks
          (enterTimed .sSettle u.cfg.val.settleTicks (accumulate c.result (adcConvert u).2)) := by
        rw [ticks_waiting_answered hnext, tick_waiting_done rfl rfl, adcConvert_some hnext]
        rfl
    _ = _ := hsettle

/-- After the settle wait the next conversion follows while the count is short of `N_SAMPLES`. -/
theorem endSettle_more {v : State} (h : v.data.cnt.toNat < v.cfg.val.nSamples) :
    endSettle (enterTimed .sSettle 1 v) = enterTrigger (settle v) :=
  if_neg (Nat.not_le_of_lt h)

/-! ### The averaging loop, where it stalls -/

theorem sampleLoop_answered {u : State} {c : Conversion} {a : Adc} (hnext : nextAnswer u.adc = (some c, a)) (n : Nat) :
    sampleLoop (n + 1) u = sampleLoop n (settle (accumulate c.result (adcConvert u).2)) := by
  rw [sampleLoop, adcConvert_some hnext]

theorem sampleLoop_unanswered {u : State} {a : Adc} (hnext : nextAnswer u.adc = (none, a)) (n : Nat) :
    sampleLoop (n + 1) u = .stalled { (adcConvert u).2 with seq.st := .sWait } := by
  rw [sampleLoop, adcConvert_none hnext]

/-- A trigger that is never answered: the sequencer is in the stalled state at once. -/
theorem tick_unanswered {u : State} {a : Adc} (hnext : nextAnswer u.adc = (none, a)) (htmr : u.seq.tmr = 0) :
    tick quiet (enterTrigger u) = { (adcConvert u).2 with seq.st := .sWait } := by
  rw [tick_enterTrigger, adcConvert_none hnext]
  simp [waiting, adcEdge, adcAnswered, hnext, htmr]

/-- Where the averaging loop stalls, the reference sequencer reaches the state it stalls in. -/
theorem ticks_sampleLoop_stalled {n : Nat} {u t : State} (htmr : u.seq.tmr = 0)
    (hcnt : u.data.cnt.toNat + n = u.cfg.val.nSamples) (hloop : sampleLoop n u = .stalled t) :
    ∃ m, ticks m (enterTrigger u) = t := by
  induction n generalizing u with
  | zero => cases hloop
  | succ n ih =>
    rcases hnext : nextAnswer u.adc with ⟨_ | c, a⟩
    · rw [sampleLoop_unanswered hnext] at hloop
      cases hloop
      exact ⟨1, tick_unanswered hnext htmr⟩
    · rw [sampleLoop_answered hnext] at hloop
      have hn : n ≠ 0 := by
        rintro rfl
        cases hloop
      have hcount : (accumulate c.result (adcConvert u).2).data.cnt.toNat = u.data.cnt.toNat + 1 :=
        accumulate_cnt c.result (s := (adcConvert u).2) (show u.data.cnt.toNat < u.cfg.val.nSamples by omega)
      have hleft : (accumulate c.result (adcConvert u).2).data.cnt.toNat + n =
          (accumulate c.result (adcConvert u).2).cfg.val.nSamples := by
        rw [hcount, accumulate_cfg, adcConvert_cfg]
        omega
      obtain ⟨m, hm⟩ := ih (u := settle (accumulate c.result (adcConvert u).2)) htmr hleft hloop
      refine ⟨1 + (c.delay + 1) + u.cfg.val.settleTicks + m, ?_⟩
      rw [ticks_add, ticks_conversion hnext, endSettle_more (by omega), hm]

/-! ### The command -/

/-- An edge that accepts SAMPLE or CYCLE enters the first trigger tick (10_state.md R21, R28). -/
theorem tick_accept_sampling {i : Instr} {s : State} (hi : i = .sample ∨ i = .cycle) (hinv : Inv s)
    (hrest : AtRest s) :
    tick (presenting (encodeInstr i)) s = enterTrigger (clearSum (accept (encodeInstr i) s)) := by
  obtain ⟨hidle, hconv⟩ := hrest
  have hrested : Rested s := hinv.rested (by rw [hidle]; rfl) (by rw [hidle]; rfl)
  have hadc : adcEdge s.pins.adcStart s.adc = s.adc := by
    rw [hrested.pins]
    exact adcEdge_still hconv
  rw [tick_accept _ hidle, hadc]
  obtain rfl | rfl := hi <;> rfl

/-- The sample phase stalls in its loop. -/
theorem sampleLoop_of_sampleVoltage_stalled {s t : State} (h : sampleVoltage s = .stalled t) :
    sampleLoop s.cfg.val.nSamples (clearSum s) = .stalled t := by
  unfold sampleVoltage at h
  split at h
  next => cases h
  next hloop => cases h; exact hloop

/-- Settles O55. The sequencer reaches the stalled state of the loop, which is hung. -/
theorem sequencerStalls : Obligations.SequencerStalls := by
  intro i s t k cs hi hinv hrest hstall hexec
  obtain ⟨u, hu, hphase, hung, -⟩ := exec_stalls hi hstall
  obtain rfl : u = t := Host.Outcome.next.inj (hu.symm.trans hexec)
  have htmr : (clearSum (accept (encodeInstr i) s)).seq.tmr = 0 := hinv.timer_zero (by rw [hrest.1]; rfl)
  obtain ⟨n, hn⟩ := ticks_sampleLoop_stalled htmr (Nat.zero_add _) (sampleLoop_of_sampleVoltage_stalled hphase)
  refine ⟨n, fun m hm => ?_⟩
  obtain ⟨d, rfl⟩ := Nat.exists_eq_add_of_le hm
  rw [tick_accept_sampling hi hinv hrest, ticks_add, hn, hung.ticks_eq]

end Sys2Proof.Machine
end

section
/-! SUPPORT. CONVERT on either side of its domain: the exact temperature and the frame are the same on both, the
digits are those of the numeral inside it and free outside it (43_temperature_converter.md R73 to R77). -/

namespace Sys2Proof.Machine

/-! ### The digits -/

/-- The three fields are the decimal numeral of a temperature of the domain: none of them is cut to its 4 bits
(43_temperature_converter.md R73). -/
theorem writeDigits_toNat {n : Nat} (hn : n ≤ 999) (s : State) :
    (writeDigits n s).data.tens.toNat = n / 100 ∧ (writeDigits n s).data.ones.toNat = n % 100 / 10 ∧
      (writeDigits n s).data.tenths.toNat = n % 10 := by
  simp only [writeDigits_data, BitVec.toNat_ofNat]
  omega

theorem toDigits_toNat_inDomain {v : Millivolts} {s : State} (hlo : s.cfg.val.offsetMv ≤ v.toNat)
    (hhi : v.toNat ≤ s.cfg.val.offsetMv + 999) :
    (toDigits v s).data.tens.toNat = (v.toNat - s.cfg.val.offsetMv) / 100 ∧
      (toDigits v s).data.ones.toNat = (v.toNat - s.cfg.val.offsetMv) % 100 / 10 ∧
      (toDigits v s).data.tenths.toNat = (v.toNat - s.cfg.val.offsetMv) % 10 := by
  rw [toDigits_inDomain v s hlo hhi]
  exact writeDigits_toNat (by omega) _

/-- Settles O22. The fields are the numeral's digits, which division with remainder puts together again. -/
theorem digitsReconstruct : Obligations.DigitsReconstruct := by
  intro s mv n hn hmv
  obtain ⟨htens, hones, htenths⟩ := toDigits_toNat_inDomain (v := mv) (s := s) (by omega) (by omega)
  rw [hmv, Nat.add_sub_cancel_left] at htens hones htenths
  dsimp only
  rw [htens, hones, htenths]
  omega

/-! ### The command -/

theorem exec_convert (mv : Millivolts) (s : State) :
    exec (.convert mv) s = .next (finish (toDigits mv (accept (encodeInstr (.convert mv)) s))) := rfl

/-- Inside the domain or outside it, `TEMP` is the exact difference (43_temperature_converter.md R73, R76). -/
theorem toDigits_temp (v : Millivolts) (s : State) :
    (toDigits v s).data.temp.toInt = (v.toNat : Int) - s.cfg.val.offsetMv := by
  obtain ⟨_, _, _, _, _, hbody, -⟩ := toDigits_state v s
  rw [hbody]
  exact temp_exact s.cfg v

/-- Of the data registers `to_digits` writes `TEMP` and the digits only. -/
theorem toDigits_data (v : Millivolts) (s : State) :
    (toDigits v s).data = { s.data with
      temp := (toDigits v s).data.temp, tens := (toDigits v s).data.tens
      ones := (toDigits v s).data.ones, tenths := (toDigits v s).data.tenths } := by
  obtain ⟨_, _, _, _, _, hbody, -⟩ := toDigits_state v s
  rw [hbody]

/-- The status after `to_digits` outside the domain (43_temperature_converter.md R76). -/
theorem toDigits_status_outOfDomain {v : Millivolts} {s : State}
    (h : v.toNat < s.cfg.val.offsetMv ∨ s.cfg.val.offsetMv + 999 < v.toNat) :
    (toDigits v s).status = setBit 4 s.status := by
  rw [toDigits_outOfDomain v s h]
  rfl

/-- CONVERT completes and drives no pin, inside the domain or outside it (43_temperature_converter.md R74, R76). -/
theorem convert_frame (w : CmdWord) (mv : Millivolts) (s : State) :
    Completed w (finish (toDigits mv (accept w s))) ∧ PinsKept s (finish (toDigits mv (accept w s))) ∧
      WorkKept s (finish (toDigits mv (accept w s))) ∧ UnitKept s (finish (toDigits mv (accept w s))) ∧
      (finish (toDigits mv (accept w s))).adc = s.adc := by
  obtain ⟨_, _, _, _, _, hbody, -⟩ := toDigits_state mv (accept w s)
  exact operation_frame w s hbody

/-- Settles O21. Inside the domain the body draws no free value and leaves the status to acceptance and end. -/
theorem convertInDomain : Obligations.ConvertInDomain := by
  intro s mv hlo hhi
  obtain ⟨hdone, hpins, hwork, hunit, hadc⟩ := convert_frame (encodeInstr (.convert mv)) mv s
  obtain ⟨htens, hones, htenths⟩ :=
    toDigits_toNat_inDomain (s := accept (encodeInstr (.convert mv)) s) hlo hhi
  have hbody := toDigits_inDomain mv (accept (encodeInstr (.convert mv)) s) hlo hhi
  refine ⟨_, exec_convert mv s, toDigits_temp mv _, htens, hones, htenths, toDigits_data mv _, hdone, ?_,
    hpins, hwork, hunit, hadc, ?_⟩
  · exact statusKept_operation (encodeInstr (.convert mv)) s _ [] fun j _ _ => by
      rw [hbody, writeDigits_status]
  · rw [finish_draws, hbody, writeDigits_draws]
    exact accept_draws (encodeInstr (.convert mv)) s

/-- Settles O23. The temperature and the frame are those of any CONVERT; the status gains `ERR_RANGE`. -/
theorem convertOutOfDomain : Obligations.ConvertOutOfDomain := by
  intro s mv hout
  obtain ⟨hdone, hpins, hwork, hunit, hadc⟩ := convert_frame (encodeInstr (.convert mv)) mv s
  have hstatus := toDigits_status_outOfDomain (s := accept (encodeInstr (.convert mv)) s) hout
  refine ⟨_, exec_convert mv s, ?_, toDigits_temp mv _, toDigits_data mv _, hdone, ?_, hpins, hwork, hunit, hadc⟩
  · rw [err_finish, State.err, hstatus]
    exact getLsbD_setBit_self 4 (by decide) _
  · refine statusKept_operation (encodeInstr (.convert mv)) s _ [4] fun j _ hj => ?_
    rw [hstatus]
    exact getLsbD_setBit_ne (List.ne_of_not_mem_cons hj).symm _

end Sys2Proof.Machine
end

section
/-! SUPPORT. The serial commands PUSHBIT, PUSHBYTE and LATCH as updates of the state with their frame, and how long
the reference sequencer holds a pulse (44_shift_register_bus.md R78 to R84). -/

namespace Sys2Proof.Machine

/-! ### What the serial commands write -/

/-- A shift of a stage, as the concatenation of 20_memory.md R38. -/
theorem shiftConcat_eq_append (sh : Stage) (b : Bool) :
    sh.shiftConcat b = sh.extractLsb' 0 23 ++ BitVec.ofBool b := by
  apply BitVec.eq_of_getLsbD_eq
  intro i hi
  rw [BitVec.getLsbD_shiftConcat, BitVec.getLsbD_append]
  rcases i with _ | i
  · simp
  · simp [show i < 23 by omega, hi]

/-- The frame check writes the status only. -/
theorem frameCheck_eq (s : State) : frameCheck s = { s with status := (frameCheck s).status } := by
  unfold frameCheck
  cases s.data.frcnt != 24 <;> rfl

/-- The frame check touches no bit but `ERR_FRAME` (44_shift_register_bus.md R83). -/
theorem getLsbD_frameCheck_ne {j : Nat} (h : j ≠ 5) (s : State) :
    (frameCheck s).status.getLsbD j = s.status.getLsbD j := by
  rw [frameCheck, getLsbD_raiseErrorIf, decide_eq_false (show ErrorFlag.frame.bit ≠ j from h.symm), Bool.and_false,
    Bool.or_false]

/-! ### The commands -/

/-- The state after PUSHBIT: one bit cell, and `sr_data` back to 0 (44_shift_register_bus.md R78, R79). -/
theorem exec_pushbit_eq (b : Bool) (s : State) :
    exec (.pushbit b) s = .next (finish { accept (encodeInstr (.pushbit b)) s with
      data.frcnt := frcntSucc s.data.frcnt
      pins.srData := false
      pins.srClk := false
      chain.sh := s.chain.sh.shiftConcat b
      log := s.log ++ cellLog s.cfg.val.pulseTicks b ++ [.ev (.data false)] }) := by
  show Host.Outcome.next (finish (driveData false (pushBit b (accept _ s)))) = _
  rw [pushBit_eq]
  rfl

/-- The state after PUSHBYTE: eight bit cells, and `sr_data` back to 0 (44_shift_register_bus.md R80, R81). -/
theorem exec_pushbyte_eq (x : Byte) (s : State) :
    exec (.pushbyte x) s = .next (finish { accept (encodeInstr (.pushbyte x)) s with
      data.frcnt := BitVec.ofNat 5 (min (s.data.frcnt.toNat + 8) 31)
      seq.shr := 0
      seq.bitix := 0
      pins.srData := false
      pins.srClk := false
      chain.sh := s.chain.sh.extractLsb' 0 16 ++ x
      log := s.log ++ byteLog s.cfg.val.pulseTicks x ++ [.ev (.data false)] }) := by
  show Host.Outcome.next (finish (driveData false (pushByte x (accept _ s)))) = _
  rw [pushByte_eq]
  rfl

/-- The state after LATCH: the frame check, and one latch pulse (44_shift_register_bus.md R82, R83). -/
theorem exec_latch_eq (s : State) :
    exec .latch s = .next (finish { accept (encodeInstr .latch) s with
      data.frcnt := 0
      status := (frameCheck (accept (encodeInstr .latch) s)).status
      pins.srLatch := false
      chain.disp := s.chain.sh
      log := s.log ++ [.hold s.cfg.val.pulseTicks, .ev .latchRise, .hold s.cfg.val.pulseTicks,
        .ev .latchFall] }) := by
  show Host.Outcome.next (finish (latchPulse (frameCheck (accept _ s)))) = _
  rw [latchPulse_eq, frameCheck_eq]
  rfl

/-- Settles O28. What the body does not write, acceptance and end leave too, but for `BUSY`. -/
theorem pushbitEffect : Obligations.PushbitEffect := by
  intro s b
  refine ⟨_, exec_pushbit_eq b s, ?log, ?chain, rfl, frcntSucc_toNat s.data.frcnt, rfl, completed_finish _ _ rfl,
    ?status, ⟨rfl, rfl, rfl, rfl⟩, unitKept_of s _ rfl rfl, rfl, rfl⟩
  case log =>
    rw [finish_log, List.append_assoc]
    rfl
  case chain =>
    rw [finish_chain, shiftConcat_eq_append]
    rfl
  case status => exact statusKept_operation (encodeInstr (.pushbit b)) s _ [] fun _ _ _ => rfl

/-- Settles O29. The eight turns of the loop are one shift by a byte, and they leave `SHR` and `BITIX` 0. -/
theorem pushbyteEffect : Obligations.PushbyteEffect := by
  intro s x
  obtain ⟨t, hexec, -, hcount, -, htrace, -⟩ := exec_pushbyte x s
  obtain rfl := Host.Outcome.next.inj ((exec_pushbyte_eq x s).symm.trans hexec)
  refine ⟨_, hexec, htrace, rfl, rfl, hcount, rfl, rfl, rfl, rfl, rfl, completed_finish _ _ rfl, ?status,
    unitKept_of s _ rfl rfl, rfl, rfl⟩
  case status => exact statusKept_operation (encodeInstr (.pushbyte x)) s _ [] fun _ _ _ => rfl

/-- Settles O30. The frame check decides `ERR_FRAME` and nothing of the pulse that follows it. -/
theorem latchEffect : Obligations.LatchEffect := by
  intro s
  obtain ⟨t, hexec, -, -, -, -, herr⟩ := exec_latch s
  obtain rfl := Host.Outcome.next.inj ((exec_latch_eq s).symm.trans hexec)
  refine ⟨_, hexec, rfl, rfl, rfl, herr, rfl, completed_finish _ _ rfl, ?status, ⟨rfl, rfl, rfl, rfl⟩,
    unitKept_of s _ rfl rfl, rfl, rfl⟩
  case status =>
    exact statusKept_operation (encodeInstr .latch) s _ [5] fun j _ hj =>
      getLsbD_frameCheck_ne (List.ne_of_not_mem_cons hj) _

/-! ### How long a pulse lasts -/

/-- A quiet edge of a busy machine is the edge of its state, beside whatever the ADC does at it. -/
theorem tick_quiet_busy {s : State} (h : s.seq.st ≠ .idle) :
    tick quiet s = { busyEdge s with adc := adcEdge s.pins.adcStart s.adc } := by
  simp [tick, coreEdge, quiet, h]

/-- The edge of a timed state whose `TMR` is above 1 counts it down and moves no pin. -/
theorem tick_counting {s : State} (hst : s.seq.st.timed = true) (htmr : 1 < s.seq.tmr) :
    (tick quiet s).pins = s.pins ∧ (tick quiet s).seq = { s.seq with tmr := s.seq.tmr - 1 } := by
  rw [tick_quiet_busy (timed_ne_idle hst), busyEdge_timed hst, countdown, if_neg (by omega)]
  exact ⟨rfl, rfl⟩

/-- A timed state moves no pin before its `TMR` has run down (10_state.md R22). -/
theorem ticks_pins_of_lt_tmr {k : Nat} {s : State} (hst : s.seq.st.timed = true) (hk : k < s.seq.tmr) :
    (ticks k s).pins = s.pins := by
  induction k generalizing s with
  | zero => rfl
  | succ k ih =>
    obtain ⟨hpins, hseq⟩ := tick_counting hst (by omega)
    rw [ticks, ih, hpins]
    · rw [hseq]
      exact hst
    · rw [hseq]
      show k < s.seq.tmr - 1
      omega

/-- The last edge of a timed state is its end. -/
theorem tick_expired {s : State} (hst : s.seq.st.timed = true) (htmr : s.seq.tmr ≤ 1) :
    tick quiet s = { timedNext s.seq.st s with adc := adcEdge s.pins.adcStart s.adc } := by
  rw [tick_quiet_busy (timed_ne_idle hst), busyEdge_timed hst, countdown, if_pos htmr]

/-- A low phase raises its clock into a `B_HIGH` that is timed in full (44_shift_register_bus.md R78). -/
theorem ticks_srClk_high {k : Nat} {s : State} (hst : s.seq.st = .bLow) (htmr : s.seq.tmr ≤ 1)
    (hk : k < s.cfg.val.pulseTicks) : (ticks k (tick quiet s)).pins.srClk = true := by
  rw [tick_expired (by rw [hst]; rfl) htmr, hst, ticks_pins_of_lt_tmr rfl hk]
  rfl

/-- The low phase of a latch raises it into an `L_HIGH` that is timed in full (44_shift_register_bus.md R82). -/
theorem ticks_srLatch_high {k : Nat} {s : State} (hst : s.seq.st = .lLow) (htmr : s.seq.tmr ≤ 1)
    (hk : k < s.cfg.val.pulseTicks) : (ticks k (tick quiet s)).pins.srLatch = true := by
  rw [tick_expired (by rw [hst]; rfl) htmr, hst, ticks_pins_of_lt_tmr rfl hk]
  rfl

/-- A legal pulse lasts at least 40 microseconds (44_shift_register_bus.md R84). -/
theorem pulse_microseconds (c : LegalConfig) : 40 * c.val.fClk ≤ c.val.pulseTicks * 1000000 := by
  obtain ⟨-, -, -, -, -, hlong, -⟩ := c.val.legal_iff.mp c.ok
  exact hlong

/-- Settles O48. The pulse rises at the edge that loads `TMR` with `PULSE_TICKS`, and no pin moves while it counts. -/
theorem pulsesHeldLongEnough : Obligations.PulsesHeldLongEnough := fun s =>
  ⟨fun hst htmr _ hk => ticks_srClk_high hst htmr hk, fun hst htmr _ hk => ticks_srLatch_high hst htmr hk,
    pulse_microseconds s.cfg⟩

end Sys2Proof.Machine
end

section
/-! SUPPORT. SHOW: the encoding step, its sentinel, and the display update with the frame it sends or leaves out
(45_display_controller.md R86 to R92). -/

namespace Sys2Proof.Machine

/-! ### The encoding step -/

/-- With three digits in range the encoding step writes the patterns and nothing else: no error, no free value
(45_display_controller.md R87). -/
theorem encodeFrame_inRange {t o h : Digit} (ht : t.toNat ≤ 9) (ho : o.toNat ≤ 9) (hh : h.toNat ≤ 9) (s : State) :
    ∃ b0 b1 b2, Memory.read s.cfg.val.segRom h.toNat = some b0 ∧
      Memory.read s.cfg.val.segRom (16 + o.toNat) = some b1 ∧
      Memory.read s.cfg.val.segRom (32 + t.toNat) = some b2 ∧
      encodeFrame t o h s = { s with data.p0 := b0, data.p1 := b1 ||| 0x40, data.p2 := b2 } := by
  obtain ⟨b0, hcell0, henc0⟩ := enc_inRange 0 h false s (by decide) hh
  obtain ⟨b1, hcell1, henc1⟩ := enc_inRange 1 o true s (by decide) ho
  obtain ⟨b2, hcell2, henc2⟩ := enc_inRange 2 t false s (by decide) ht
  have hok : (digitTooBig t || digitTooBig o || digitTooBig h) = false := by
    simp only [digitTooBig, Bool.or_eq_false_iff, decide_eq_false_iff_not]
    omega
  refine ⟨b0, b1, b2, by simpa using hcell0, hcell1, hcell2, ?_⟩
  simp only [encodeFrame, hok, raiseErrorIf_false, henc0, henc1, henc2]
  rfl

@[simp] theorem encodeFrame_frcnt (t o h : Digit) (s : State) :
    (encodeFrame t o h s).data.frcnt = s.data.frcnt := by
  obtain ⟨_, _, _, _, hframe, -⟩ := encodeFrame_state t o h s
  rw [hframe]

@[simp] theorem encodeFrame_host (t o h : Digit) (s : State) : (encodeFrame t o h s).host = s.host := by
  obtain ⟨_, _, _, _, hframe, -⟩ := encodeFrame_state t o h s
  rw [hframe]

/-- A digit above 9 raises `ArgError`, and the step touches no other bit (45_display_controller.md R91). -/
theorem getLsbD_encodeFrame (t o h : Digit) (s : State) (j : Nat) :
    (encodeFrame t o h s).status.getLsbD j =
      (s.status.getLsbD j || (decide (10 ≤ t.toNat ∨ 10 ≤ o.toNat ∨ 10 ≤ h.toNat) && decide (3 = j))) := by
  have hraise : (encodeFrame t o h s).status =
      (raiseErrorIf (digitTooBig t || digitTooBig o || digitTooBig h) .arg s).status := by
    rw [encodeFrame_status, raiseErrorIf_status]
    rfl
  rw [hraise, getLsbD_raiseErrorIf, Bool.decide_or, Bool.decide_or, ← Bool.or_assoc]
  rfl

theorem sentinel_iff (s : State) : sentinel s = true ↔ s.data.p0 = 0 ∧ s.data.p1 = 0 ∧ s.data.p2 = 0 := by
  simp [sentinel, and_assoc]

/-! ### The display update -/

/-- Everything a frame does after the encoding step: `SKIP` and `FRCNT` are cleared, the patterns are on the chain and
the serial port is at rest (45_display_controller.md R88 to R90). -/
theorem sendFrame_cleared_eq (s : State) :
    sendFrame (clearCount (setSkip false s)) = { s with
      data.frcnt := 0
      seq.shr := 0
      seq.bitix := 0
      seq.byteix := 0
      status := clearBit 1 s.status
      pins.srData := false
      pins.srClk := false
      pins.srLatch := false
      chain := ⟨s.data.p0 ++ s.data.p1 ++ s.data.p2, s.data.p0 ++ s.data.p1 ++ s.data.p2⟩
      log := s.log ++ frameLog s.cfg.val.pulseTicks s.data.p0 s.data.p1 s.data.p2 } := by
  rw [sendFrame_eq]
  rfl

/-- Three digits in range: the point keeps the ones from being dark, so the update is never suppressed
(45_display_controller.md R92 item 1). -/
theorem showBody_inRange {t o h : Digit} (ht : t.toNat ≤ 9) (ho : o.toNat ≤ 9) (hh : h.toNat ≤ 9) (s : State) :
    ∃ b0 b1 b2, Memory.read s.cfg.val.segRom h.toNat = some b0 ∧
      Memory.read s.cfg.val.segRom (16 + o.toNat) = some b1 ∧
      Memory.read s.cfg.val.segRom (32 + t.toNat) = some b2 ∧
      showBody t o h s = { s with
        data := { s.data with p0 := b0, p1 := b1 ||| 0x40, p2 := b2, frcnt := 0 }
        seq.shr := 0
        seq.bitix := 0
        seq.byteix := 0
        status := clearBit 1 s.status
        pins := { s.pins with srData := false, srClk := false, srLatch := false }
        chain := ⟨b0 ++ (b1 ||| 0x40) ++ b2, b0 ++ (b1 ||| 0x40) ++ b2⟩
        log := s.log ++ frameLog s.cfg.val.pulseTicks b0 (b1 ||| 0x40) b2 } := by
  obtain ⟨b0, b1, b2, hcell0, hcell1, hcell2, hframe⟩ := encodeFrame_inRange ht ho hh s
  refine ⟨b0, b1, b2, hcell0, hcell1, hcell2, ?_⟩
  rw [showBody_shown (sentinel_encodeFrame ho), sendFrame_cleared_eq, hframe]

/-- Suppressed or shown, an update leaves the data of its encoding step but for `FRCNT`, which a frame clears
(45_display_controller.md R88). -/
theorem showBody_data (t o h : Digit) (s : State) :
    (showBody t o h s).data = { (encodeFrame t o h s).data with
      frcnt := if sentinel (encodeFrame t o h s) then s.data.frcnt else 0 } := by
  cases hs : sentinel (encodeFrame t o h s) with
  | true => rw [showBody_suppressed hs, setSkip_data, if_pos rfl, ← encodeFrame_frcnt t o h s]
  | false =>
    rw [showBody_shown hs, sendFrame_cleared_eq]
    rfl

/-- Of the data registers an update writes the patterns and `FRCNT` only, and a digit in range gets the pattern of
its cell whatever the other digits are (45_display_controller.md R87, R91). -/
theorem showBody_patterns (t o h : Digit) (s : State) :
    (showBody t o h s).data = { s.data with
      p0 := (showBody t o h s).data.p0, p1 := (showBody t o h s).data.p1
      p2 := (showBody t o h s).data.p2, frcnt := (showBody t o h s).data.frcnt } ∧
    (h.toNat ≤ 9 → Memory.read s.cfg.val.segRom h.toNat = some (showBody t o h s).data.p0) ∧
    (o.toNat ≤ 9 → ∃ b, Memory.read s.cfg.val.segRom (16 + o.toNat) = some b ∧
      (showBody t o h s).data.p1 = b ||| 0x40) ∧
    (t.toNat ≤ 9 → Memory.read s.cfg.val.segRom (32 + t.toNat) = some (showBody t o h s).data.p2) := by
  obtain ⟨_, _, _, _, hframe, hp0, hp1, hp2⟩ := encodeFrame_state t o h s
  rw [showBody_data, hframe]
  exact ⟨rfl, hp0, hp1, hp2⟩

/-- `SKIP` is the sentinel, and no other bit moves after the encoding step (45_display_controller.md R88). -/
theorem getLsbD_showBody (t o h : Digit) (s : State) (j : Nat) :
    (showBody t o h s).status.getLsbD j =
      if j = 1 then sentinel (encodeFrame t o h s) else (encodeFrame t o h s).status.getLsbD j := by
  cases hs : sentinel (encodeFrame t o h s) with
  | true => rw [showBody_suppressed hs, getLsbD_setSkip]
  | false =>
    rw [showBody_shown hs, sendFrame_cleared_eq]
    exact getLsbD_setSkip false j (encodeFrame t o h s)

/-- A digit above 9 raises `ArgError`, whether or not the update is shown (45_display_controller.md R91). -/
theorem err_showBody_arg (t o h : Digit) (s : State) :
    (showBody t o h s).err .arg = (s.err .arg || decide (10 ≤ t.toNat ∨ 10 ≤ o.toNat ∨ 10 ≤ h.toNat)) := by
  rw [State.err, getLsbD_showBody, if_neg (by decide), getLsbD_encodeFrame,
    decide_eq_true (show 3 = ErrorFlag.arg.bit from rfl), Bool.and_true, State.err]

/-- What is not the display's own stays as it is, suppressed or shown. -/
theorem showBody_outside (t o h : Digit) (s : State) :
    (showBody t o h s).seq.cmdr = s.seq.cmdr ∧ (showBody t o h s).host = s.host ∧
      (showBody t o h s).adc = s.adc := by
  cases hs : sentinel (encodeFrame t o h s) with
  | true => simp [showBody_suppressed hs, encodeFrame_adc]
  | false => simp [showBody_shown hs, sendFrame_cleared_eq, encodeFrame_adc]

/-- A suppressed update moves no pin and counts nothing (45_display_controller.md R88; decision D18). -/
theorem showBody_suppressed_kept {t o h : Digit} {s : State} (hs : sentinel (encodeFrame t o h s) = true) :
    PinsKept s (showBody t o h s) ∧ (showBody t o h s).data.frcnt = s.data.frcnt := by
  simp [showBody_suppressed hs, PinsKept, encodeFrame_log]

/-- A frame leaves the three patterns in both stages and the count at 0 (45_display_controller.md R89, R90). -/
theorem showBody_shown_chain {t o h : Digit} {s : State} (hs : sentinel (encodeFrame t o h s) = false) :
    (showBody t o h s).chain.disp =
        (showBody t o h s).data.p0 ++ (showBody t o h s).data.p1 ++ (showBody t o h s).data.p2 ∧
      (showBody t o h s).chain.sh = (showBody t o h s).chain.disp ∧ (showBody t o h s).data.frcnt = 0 := by
  rw [showBody_shown hs, sendFrame_cleared_eq]
  exact ⟨rfl, rfl, rfl⟩

/-! ### The command -/

theorem exec_show (t o h : Digit) (s : State) :
    exec (.showDigits t o h) s =
      .next (finish (showBody t o h (accept (encodeInstr (.showDigits t o h)) s))) := rfl

/-- The end of an operation does not touch `SKIP`. -/
theorem skip_finish (s : State) : (finish s).skip = s.skip := getLsbD_clearBit_ne (by decide) s.status

/-- An operation moves no pin when its body moves none. -/
theorem pinsKept_operation {w : CmdWord} {s t : State} (h : PinsKept (accept w s) t) : PinsKept s (finish t) := by
  obtain ⟨hpins, hchain, hlog⟩ := h
  exact ⟨hpins, hchain, hlog⟩

/-- Settles O33. Every clause is read off the one update of `showBody_inRange`. -/
theorem showInRange : Obligations.ShowInRange := by
  intro s t o h ht ho hh
  obtain ⟨b0, b1, b2, hcell0, hcell1, hcell2, hbody⟩ :=
    showBody_inRange ht ho hh (accept (encodeInstr (.showDigits t o h)) s)
  have hexec := exec_show t o h s
  rw [hbody] at hexec
  refine ⟨b0, b1, b2, _, hcell0, hcell1, hcell2, hexec, rfl, ?skip, ?trace, rfl, rfl, rfl, rfl, rfl, rfl,
    completed_finish _ _ rfl, ?status, unitKept_of s _ rfl rfl, rfl, rfl⟩
  case skip =>
    rw [skip_finish]
    exact getLsbD_clearBit_self 1 _
  case trace =>
    rw [← frameLog_events s.cfg.val.pulseTicks]
    exact trace_of_log rfl
  case status =>
    exact statusKept_operation (encodeInstr (.showDigits t o h)) s _ [1] fun j _ hj =>
      getLsbD_clearBit_ne (List.ne_of_not_mem_cons hj).symm _

/-- Settles O34. `SKIP` is the sentinel, which decides between the kept pins and the whole frame; the rest is that
of the encoding step. -/
theorem showSentinel : Obligations.ShowSentinel := by
  intro s t o h
  have hskip : (finish (showBody t o h (accept (encodeInstr (.showDigits t o h)) s))).skip =
      sentinel (encodeFrame t o h (accept (encodeInstr (.showDigits t o h)) s)) := by
    rw [skip_finish, State.skip, getLsbD_showBody, if_pos rfl]
  obtain ⟨hcmdr, hhost, hadc⟩ := showBody_outside t o h (accept (encodeInstr (.showDigits t o h)) s)
  obtain ⟨hdata, hp0, hp1, hp2⟩ := showBody_patterns t o h (accept (encodeInstr (.showDigits t o h)) s)
  refine ⟨_, exec_show t o h s, completed_finish _ _ hcmdr, ?skip, ?suppressed, ?shown, ?arg, hp0, hp1, hp2,
    hdata, ?status, unitKept_of s _ (showBody_cfg t o h _) hhost, hadc⟩
  case skip =>
    rw [hskip, sentinel_iff, finish_data, showBody_data]
  case suppressed =>
    intro h1
    obtain ⟨hpins, hcount⟩ := showBody_suppressed_kept (hskip.symm.trans h1)
    exact ⟨pinsKept_operation hpins, by rw [finish_data, hcount, accept_data]⟩
  case shown =>
    intro h0
    rw [finish_chain, finish_data]
    exact ⟨exec_show_trace (exec_show t o h s) h0, showBody_shown_chain (hskip.symm.trans h0)⟩
  case arg =>
    rw [err_finish, err_showBody_arg, err_accept]
  case status =>
    refine statusKept_operation (encodeInstr (.showDigits t o h)) s _ [1, 3] fun j _ hj => ?_
    obtain ⟨hj1, hj3⟩ : j ≠ 1 ∧ j ≠ 3 := by simpa using hj
    rw [getLsbD_showBody, if_neg hj1, getLsbD_encodeFrame, decide_eq_false hj3.symm, Bool.and_false, Bool.or_false]

end Sys2Proof.Machine
end

section
/-! SUPPORT. NOP and the illegal command: the operations whose body is the one tick of `N_EXEC`
(46_cycle_and_nop.md R95, R96). -/

namespace Sys2Proof.Machine

/-! ### The path `IDLE, N_EXEC, IDLE` -/

/-- A word without a command of its own runs `N_EXEC`, as NOP does (10_state.md R21). -/
theorem firstState_error {w : CmdWord} {e : Illegal} (h : decode w = .error e) : firstState w = .nExec := by
  simp only [firstState, h]

/-- The edge that ends `N_EXEC` ends the operation (10_state.md R21, R29). -/
theorem tick_nExec {s : State} (h : s.seq.st = .nExec) :
    (tick quiet s).seq.st = .idle ∧ (tick quiet s).done = true := by
  have hedge : tick quiet s = { endExec s with adc := adcEdge s.pins.adcStart s.adc } := by
    rw [tick_quiet_busy (h.trans_ne (by decide)), busyEdge, h]
  rw [hedge]
  exact ⟨rfl, rfl⟩

/-- In `IDLE` a word whose path begins with `N_EXEC` is busy for one tick and then done. -/
theorem ticks_nExec_path {w : CmdWord} {s : State} (hfirst : firstState w = .nExec) (hidle : s.seq.st = .idle) :
    (tick (presenting w) s).seq.st = .nExec ∧ (tick (presenting w) s).busy = true ∧
      (tick quiet (tick (presenting w) s)).seq.st = .idle ∧
      (tick quiet (tick (presenting w) s)).done = true := by
  obtain ⟨-, hst, -⟩ := acceptEdge_common w s
  have hexec : (tick (presenting w) s).seq.st = .nExec := by
    rw [tick_accept w hidle]
    exact hst.trans hfirst
  have hbusy : (tick (presenting w) s).busy = true := by
    rw [tick_accept w hidle]
    exact acceptEdge_busy w s
  exact ⟨hexec, hbusy, tick_nExec hexec⟩

/-! ### The two commands -/

/-- Settles O39. The body of NOP is empty, so the frame is that of acceptance and end. -/
theorem nopChangesNothing : Obligations.NopChangesNothing := by
  intro s
  obtain ⟨hdone, hpins, hwork, hunit, hadc⟩ := operation_frame 0x0000 s (u := accept 0x0000 s) rfl
  have hstatus : StatusKept [] s (finish (accept 0x0000 s)) := statusKept_operation _ s _ [] fun _ _ _ => rfl
  exact ⟨⟨finish (accept 0x0000 s), rfl, hdone, rfl, hstatus, hpins, hwork, hunit, hadc, rfl⟩,
    ticks_nExec_path rfl⟩

/-- Settles O6. The body of the illegal command sets one bit of `STATUS`. -/
theorem illegalWordSetsFlagOnly : Obligations.IllegalWordSetsFlagOnly := by
  intro s w e hillegal
  obtain ⟨hdone, hpins, hwork, hunit, hadc⟩ := operation_frame w s (u := raiseError .cmd (accept w s)) rfl
  have hexec : runWord w s = .next (finish (raiseError .cmd (accept w s))) := runWord_error hillegal s
  have herr : (finish (raiseError .cmd (accept w s))).err .cmd = true := by
    rw [err_finish]
    exact getLsbD_setBit_self 2 (by decide) _
  have hstatus : StatusKept [2] s (finish (raiseError .cmd (accept w s))) :=
    statusKept_operation w s _ [2] fun _ _ hj => getLsbD_setBit_ne (List.ne_of_not_mem_cons hj).symm _
  exact ⟨⟨_, hexec, hdone, herr, hstatus, rfl, hpins, hwork, hunit, hadc, rfl⟩,
    ticks_nExec_path (firstState_error hillegal)⟩

end Sys2Proof.Machine
end

section
/-! SUPPORT. CYCLE against the program SAMPLE, CONVERT, SHOW: where an operation begins and ends makes no difference
to the bodies, so the two differ in `CMDR` only (46_cycle_and_nop.md R93). -/

namespace Sys2Proof.Machine

/-! ### A state as the end of an operation leaves it -/

/-- A state with its operation ended and this word in `CMDR`. -/
def ended (w : CmdWord) (s : State) : State := { finish s with seq.cmdr := w }

@[simp] theorem ended_cfg (w : CmdWord) (s : State) : (ended w s).cfg = s.cfg := rfl
@[simp] theorem ended_data (w : CmdWord) (s : State) : (ended w s).data = s.data := rfl

theorem clearBit_setBit_of_ne {i j : Nat} (h : i ≠ j) (st : BitVec 8) :
    clearBit i (setBit j st) = setBit j (clearBit i st) := by
  apply BitVec.eq_of_getLsbD_eq
  intro k hk
  by_cases hik : i = k
  · subst hik
    rw [getLsbD_clearBit_self, getLsbD_setBit_ne h.symm, getLsbD_clearBit_self]
  · simp only [getLsbD_clearBit_ne hik, getLsbD_setBit]

theorem clearBit_comm (i j : Nat) (st : BitVec 8) : clearBit i (clearBit j st) = clearBit j (clearBit i st) := by
  simp only [clearBit, BitVec.and_assoc, BitVec.and_comm (~~~BitVec.twoPow 8 i)]

theorem clearBit_idem (i : Nat) (st : BitVec 8) : clearBit i (clearBit i st) = clearBit i st := by
  rw [clearBit, clearBit, BitVec.and_assoc, BitVec.and_self]

theorem clearBit_setBit_self (i : Nat) (st : BitVec 8) : clearBit i (setBit i st) = clearBit i st := by
  rw [clearBit, setBit, BitVec.and_or_distrib_right, BitVec.and_not_self]
  exact BitVec.or_zero

/-- An earlier end leaves no trace in a later one. -/
theorem ended_finish (w : CmdWord) (s : State) : ended w (finish s) = ended w s := by
  simp only [ended, finish, clearBit_idem]

/-- Acceptance leaves no trace in the end. -/
theorem ended_accept (w v : CmdWord) (s : State) : ended w (accept v s) = ended w s := by
  simp only [ended, finish, accept, clearBit_setBit_self]

theorem finish_eq_ended {w : CmdWord} {s : State} (h : s.seq.cmdr = w) : finish s = ended w s := by
  subst h
  rfl

/-! ### The bodies read neither the command nor `BUSY` -/

theorem ended_raiseErrorIf (c : Bool) (e : ErrorFlag) (w : CmdWord) (s : State) :
    ended w (raiseErrorIf c e s) = raiseErrorIf c e (ended w s) := by
  have hbit : 0 ≠ e.bit := by have := e.bit_range; omega
  cases c with
  | false => rfl
  | true => simp only [raiseErrorIf_true, ended, finish, raiseError, clearBit_setBit_of_ne hbit]

theorem ended_setSkip (b : Bool) (w : CmdWord) (s : State) : ended w (setSkip b s) = setSkip b (ended w s) := by
  cases b with
  | false => simp [ended, finish, setSkip, clearBit_comm 0 1]
  | true => simp [ended, finish, setSkip, clearBit_setBit_of_ne]

theorem ended_toDigits (v : Millivolts) (w : CmdWord) (s : State) :
    ended w (toDigits v s) = toDigits v (ended w s) := by
  obtain ⟨hlo, hhi⟩ | hout : (s.cfg.val.offsetMv ≤ v.toNat ∧ v.toNat ≤ s.cfg.val.offsetMv + 999) ∨
      (v.toNat < s.cfg.val.offsetMv ∨ s.cfg.val.offsetMv + 999 < v.toNat) := by omega
  · rw [toDigits_inDomain v s hlo hhi, toDigits_inDomain v (ended w s) hlo hhi]
    rfl
  · rw [toDigits_outOfDomain v s hout, toDigits_outOfDomain v (ended w s) hout, ended_cfg,
      ← raiseErrorIf_true, ← raiseErrorIf_true]
    exact congrArg drawDigits (ended_raiseErrorIf true .range w _)

theorem enc_ended (p : Position) (v : Digit) (dp : Bool) (w : CmdWord) (s : State) :
    enc p v dp (ended w s) = ((enc p v dp s).1, ended w (enc p v dp s).2) := by
  unfold enc
  rw [ended_cfg]
  split
  · rfl
  · rfl

theorem ended_with_patterns (w : CmdWord) (s : State) (a b c : Byte) :
    ended w { s with data.p0 := a, data.p1 := b, data.p2 := c } =
      { ended w s with data.p0 := a, data.p1 := b, data.p2 := c } := rfl

theorem ended_encodeFrame (t o h : Digit) (w : CmdWord) (s : State) :
    ended w (encodeFrame t o h s) = encodeFrame t o h (ended w s) := by
  simp only [encodeFrame, ← ended_raiseErrorIf, enc_ended]
  exact ended_with_patterns ..

theorem ended_sendFrame (w : CmdWord) (s : State) :
    ended w (sendFrame (clearCount s)) = sendFrame (clearCount (ended w s)) := by
  rw [sendFrame_eq, sendFrame_eq]
  rfl

theorem ended_showBody (t o h : Digit) (w : CmdWord) (s : State) :
    ended w (showBody t o h s) = showBody t o h (ended w s) := by
  have hsentinel : sentinel (encodeFrame t o h (ended w s)) = sentinel (encodeFrame t o h s) := by
    simp only [← ended_encodeFrame, sentinel, ended_data]
  cases hs : sentinel (encodeFrame t o h s) with
  | true =>
    rw [showBody_suppressed hs, showBody_suppressed (hsentinel.trans hs), ended_setSkip, ended_encodeFrame]
  | false =>
    rw [showBody_shown hs, showBody_shown (hsentinel.trans hs), ended_sendFrame, ended_setSkip, ended_encodeFrame]

/-- The last two phases of CYCLE: convert `VOLT`, show its digits (46_cycle_and_nop.md R93). -/
theorem convertAndShow_eq (s : State) :
    convertAndShow s = showBody (toDigits s.data.volt s).data.tens (toDigits s.data.volt s).data.ones
      (toDigits s.data.volt s).data.tenths (toDigits s.data.volt s) := rfl

theorem ended_convertAndShow (w : CmdWord) (s : State) :
    ended w (convertAndShow s) = convertAndShow (ended w s) := by
  simp only [convertAndShow_eq, ended_showBody, ended_data, ← ended_toDigits]

/-! ### The sample phase -/

/-- The accepted state after an averaging cycle with these conversions that left these results. -/
def afterSampling (w : CmdWord) (cs : List Conversion) (results : DataRegs) (s : State) : State :=
  { accept w s with
    data.acc := results.acc, data.cnt := results.cnt, data.avg := results.avg, data.volt := results.volt
    pins.adcStart := false
    adc := adcAfter s.cfg.val.nSamples s.adc
    log := s.log ++ sampleLog s.cfg.val.settleTicks cs }

/-- CYCLE with an ADC that answers: the sample phase, and then the other two. -/
theorem exec_cycle_live {s : State} {cs : List Conversion} (h : AdcLive s cs) :
    ∃ u, exec .cycle s = .next (finish (convertAndShow u)) ∧
      u = afterSampling (encodeInstr .cycle) cs u.data s ∧ SampleResults s.cfg cs u.data := by
  obtain ⟨u, hphase, hu, hacc, hcnt, havg, hvolt⟩ := sampleVoltage_live (s := accept (encodeInstr .cycle) s) h
  have hexec : exec .cycle s = .next ((sampleVoltage (accept (encodeInstr .cycle) s)).conclude convertAndShow) := rfl
  exact ⟨u, by rw [hexec, hphase]; rfl, hu, hacc, hcnt, havg, hvolt⟩

/-- SAMPLE and the sample phase of CYCLE leave the same state, but for the word and the end. -/
theorem ended_afterSampling {s : State} {cs : List Conversion} {d d' : DataRegs} (hres : SampleResults s.cfg cs d)
    (hres' : SampleResults s.cfg cs d') (w v v' : CmdWord) :
    ended w (afterSampling v' cs d' s) = ended w (afterSampling v cs d s) := by
  obtain ⟨hacc, hcnt, havg, hvolt⟩ := hres.unique hres'
  simp only [ended, finish, afterSampling, accept, clearBit_setBit_self, hacc, hcnt, havg, hvolt]

/-! ### The other two phases as commands -/

theorem ended_exec_convert {v : Millivolts} {s t : State} (w : CmdWord) (h : exec (.convert v) s = .next t) :
    ended w t = toDigits v (ended w s) := by
  obtain rfl := Host.Outcome.next.inj h
  rw [ended_finish, ended_toDigits, ended_accept]

theorem ended_exec_show {a b c : Digit} {s t : State} (w : CmdWord) (h : exec (.showDigits a b c) s = .next t) :
    ended w t = showBody a b c (ended w s) := by
  obtain rfl := Host.Outcome.next.inj h
  rw [ended_finish, ended_showBody, ended_accept]

/-- CONVERT of `VOLT` and SHOW of the digit registers are the last two phases of CYCLE. -/
theorem ended_convert_show {s s2 s3 : State} (w : CmdWord) (h2 : exec (.convert s.data.volt) s = .next s2)
    (h3 : exec (.showDigits s2.data.tens s2.data.ones s2.data.tenths) s2 = .next s3) :
    ended w s3 = convertAndShow (ended w s) := by
  have hdata : s2.data = (toDigits s.data.volt (ended w s)).data := by rw [← ended_exec_convert w h2, ended_data]
  rw [ended_exec_show w h3, ended_exec_convert w h2, hdata, convertAndShow_eq, ended_data]

theorem convertAndShow_cmdr (s : State) : (convertAndShow s).seq.cmdr = s.seq.cmdr := by
  obtain ⟨hcmdr, -, -⟩ := showBody_outside (toDigits s.data.volt s).data.tens (toDigits s.data.volt s).data.ones
    (toDigits s.data.volt s).data.tenths (toDigits s.data.volt s)
  rw [convertAndShow_eq, hcmdr, toDigits_seq]

/-- Settles O38. Both runs end in the last two phases from the state that the sample phase leaves. -/
theorem cycleEqualsProgram : Obligations.CycleEqualsProgram := by
  intro s cs hlive
  obtain ⟨u, hsample, hu, hres⟩ := exec_sample_live hlive
  obtain ⟨u', hcycle, hu', hres'⟩ := exec_cycle_live hlive
  have hcmdr : (convertAndShow u').seq.cmdr = encodeInstr .cycle := by
    rw [convertAndShow_cmdr, hu']
    rfl
  have hsampled : ended (encodeInstr .cycle) u' = ended (encodeInstr .cycle) (finish u) := by
    rw [ended_finish, hu', hu]
    exact ended_afterSampling hres hres' _ _ _
  refine ⟨_, _, _, hsample, exec_convert _ _, exec_show _ _ _ _, ?_⟩
  calc exec .cycle s
      = .next (convertAndShow (ended (encodeInstr .cycle) (finish u))) := by
        rw [hcycle, finish_eq_ended hcmdr, ended_convertAndShow, hsampled]
    _ = .next (ended (encodeInstr .cycle) _) := by
        rw [← ended_convert_show _ (exec_convert _ _) (exec_show _ _ _ _)]
    _ = _ := by
        rw [ended_finish]
        rfl

end Sys2Proof.Machine
end

section
/-! SUPPORT. CYCLE: what its last two phases do to the port, the registers and the flags, with a frame or with a
suppressed update, and its results (46_cycle_and_nop.md R93, R94). -/

namespace Sys2Proof.Machine

/-! ### A display update at the port -/

/-- A frame of the patterns that `t` holds went out between `s` and `t` (45_display_controller.md R88 to R90). -/
structure FrameSent (s t : State) : Prop where
  log : t.log = s.log ++ frameLog s.cfg.val.pulseTicks t.data.p0 t.data.p1 t.data.p2
  chain : t.chain = ⟨t.data.p0 ++ t.data.p1 ++ t.data.p2, t.data.p0 ++ t.data.p1 ++ t.data.p2⟩
  frcnt : t.data.frcnt = 0
  pins : t.pins = { s.pins with srData := false, srClk := false, srLatch := false }
  shr : t.seq.shr = 0
  bitix : t.seq.bitix = 0
  byteix : t.seq.byteix = 0
  tmr : t.seq.tmr = s.seq.tmr

/-- Nothing went out between `s` and `t` (45_display_controller.md R88; decision D18). -/
structure PortUntouched (s t : State) : Prop where
  pins : PinsKept s t
  frcnt : t.data.frcnt = s.data.frcnt
  work : WorkKept s t

theorem skip_showBody (t o h : Digit) (s : State) : (showBody t o h s).skip = sentinel (encodeFrame t o h s) := by
  rw [State.skip, getLsbD_showBody, if_pos rfl]

theorem frameSent_showBody {t o h : Digit} {s : State} (hskip : (showBody t o h s).skip = false) :
    FrameSent s (showBody t o h s) := by
  rw [skip_showBody] at hskip
  rw [showBody_shown hskip, sendFrame_cleared_eq]
  constructor <;> simp [encodeFrame_log]

theorem portUntouched_showBody {t o h : Digit} {s : State} (hskip : (showBody t o h s).skip = true) :
    PortUntouched s (showBody t o h s) := by
  rw [skip_showBody] at hskip
  obtain ⟨hpins, hcount⟩ := showBody_suppressed_kept hskip
  refine ⟨hpins, hcount, ?_⟩
  rw [showBody_suppressed hskip, WorkKept, setSkip_seq, encodeFrame_seq]
  exact ⟨rfl, rfl, rfl, rfl⟩

/-- A frame after operations that left the port alone. -/
theorem PortUntouched.frameSent {s t u : State} (h : PortUntouched s t) (hcfg : t.cfg = s.cfg) (hf : FrameSent t u) :
    FrameSent s u := by
  obtain ⟨⟨hpins, -, hlog⟩, -, -, -, -, htmr⟩ := h
  exact { hf with
    log := by rw [hf.log, hlog, hcfg]
    pins := by rw [hf.pins, hpins]
    tmr := hf.tmr.trans htmr }

theorem PortUntouched.trans {s t u : State} (h : PortUntouched s t) (h' : PortUntouched t u) : PortUntouched s u := by
  obtain ⟨⟨hpins, hchain, hlog⟩, hfrcnt, hshr, hbitix, hbyteix, htmr⟩ := h
  obtain ⟨⟨hpins', hchain', hlog'⟩, hfrcnt', hshr', hbitix', hbyteix', htmr'⟩ := h'
  exact ⟨⟨hpins'.trans hpins, hchain'.trans hchain, hlog'.trans hlog⟩, hfrcnt'.trans hfrcnt,
    ⟨hshr'.trans hshr, hbitix'.trans hbitix, hbyteix'.trans hbyteix, htmr'.trans htmr⟩⟩

/-! ### The last two phases of CYCLE -/

/-- Converting moves no pin and leaves the serializer alone. -/
theorem portUntouched_toDigits (v : Millivolts) (s : State) : PortUntouched s (toDigits v s) := by
  obtain ⟨_, _, _, _, _, hbody, -⟩ := toDigits_state v s
  rw [hbody]
  exact ⟨⟨rfl, rfl, rfl⟩, rfl, ⟨rfl, rfl, rfl, rfl⟩⟩

theorem frameSent_convertAndShow {s : State} (hskip : (convertAndShow s).skip = false) :
    FrameSent s (convertAndShow s) :=
  (portUntouched_toDigits s.data.volt s).frameSent (toDigits_cfg _ s) (frameSent_showBody hskip)

theorem portUntouched_convertAndShow {s : State} (hskip : (convertAndShow s).skip = true) :
    PortUntouched s (convertAndShow s) :=
  (portUntouched_toDigits s.data.volt s).trans (portUntouched_showBody hskip)

/-- With a frame or without one, the trigger, the clear line, `TMR` and the host's plans stay as they are. -/
theorem convertAndShow_outside (s : State) :
    (convertAndShow s).pins.adcStart = s.pins.adcStart ∧ (convertAndShow s).pins.srClrN = s.pins.srClrN ∧
      (convertAndShow s).seq.tmr = s.seq.tmr ∧ (convertAndShow s).host = s.host := by
  have hhost : (convertAndShow s).host = s.host := by
    obtain ⟨_, _, _, _, _, hbody, -⟩ := toDigits_state s.data.volt s
    obtain ⟨-, hhost, -⟩ := showBody_outside (toDigits s.data.volt s).data.tens (toDigits s.data.volt s).data.ones
      (toDigits s.data.volt s).data.tenths (toDigits s.data.volt s)
    rw [convertAndShow_eq, hhost, hbody]
  cases hskip : (convertAndShow s).skip with
  | true =>
    obtain ⟨⟨hpins, -, -⟩, -, -, -, -, htmr⟩ := portUntouched_convertAndShow hskip
    exact ⟨congrArg Pins.adcStart hpins, congrArg Pins.srClrN hpins, htmr, hhost⟩
  | false =>
    have hsent := frameSent_convertAndShow hskip
    exact ⟨by rw [hsent.pins], by rw [hsent.pins], hsent.tmr, hhost⟩

/-- SHOW leaves the converter's registers, so `TEMP` and the digits are those of the conversion. -/
theorem convertAndShow_data (s : State) :
    (convertAndShow s).data = { (toDigits s.data.volt s).data with
      p0 := (convertAndShow s).data.p0, p1 := (convertAndShow s).data.p1
      p2 := (convertAndShow s).data.p2, frcnt := (convertAndShow s).data.frcnt } := by
  obtain ⟨hdata, -⟩ := showBody_patterns (toDigits s.data.volt s).data.tens (toDigits s.data.volt s).data.ones
    (toDigits s.data.volt s).data.tenths (toDigits s.data.volt s)
  rw [convertAndShow_eq]
  exact hdata

/-- The sampler's registers and `PAT` are none of the last two phases'. -/
theorem convertAndShow_sampled (s : State) :
    (convertAndShow s).data.acc = s.data.acc ∧ (convertAndShow s).data.cnt = s.data.cnt ∧
      (convertAndShow s).data.avg = s.data.avg ∧ (convertAndShow s).data.volt = s.data.volt ∧
      (convertAndShow s).data.pat = s.data.pat := by
  rw [convertAndShow_data, toDigits_data]
  exact ⟨rfl, rfl, rfl, rfl, rfl⟩

theorem convertAndShow_temp (s : State) :
    (convertAndShow s).data.temp.toInt = (s.data.volt.toNat : Int) - s.cfg.val.offsetMv := by
  rw [convertAndShow_data]
  exact toDigits_temp s.data.volt s

/-! ### The flags -/

theorem getLsbD_toDigits_ne {j : Nat} (hj : j ≠ 4) (v : Millivolts) (s : State) :
    (toDigits v s).status.getLsbD j = s.status.getLsbD j := by
  obtain ⟨_, _, _, _, st, hbody, hst⟩ := toDigits_state v s
  rw [hbody]
  obtain rfl | rfl := hst
  · rfl
  · exact getLsbD_setBit_ne hj.symm _

/-- The last two phases can touch `SKIP`, `ERR_ARG` and `ERR_RANGE` only. -/
theorem getLsbD_convertAndShow {j : Nat} (hj : j ∉ [1, 3, 4]) (s : State) :
    (convertAndShow s).status.getLsbD j = s.status.getLsbD j := by
  obtain ⟨hskip, harg, hrange⟩ : j ≠ 1 ∧ j ≠ 3 ∧ j ≠ 4 := by simpa using hj
  rw [convertAndShow_eq, getLsbD_showBody, if_neg hskip, getLsbD_encodeFrame, decide_eq_false harg.symm, Bool.and_false,
    Bool.or_false, getLsbD_toDigits_ne hrange]

/-- Outside the domain `RangeError` is raised, and SHOW does not take it back (46_cycle_and_nop.md R94). -/
theorem err_range_convertAndShow {s : State}
    (h : s.data.volt.toNat < s.cfg.val.offsetMv ∨ s.cfg.val.offsetMv + 999 < s.data.volt.toNat) :
    (convertAndShow s).err .range = true := by
  refine errorsKept_showBody _ _ _ _ .range ?_
  rw [State.err, toDigits_status_outOfDomain h]
  exact getLsbD_setBit_self 4 (by decide) _

/-! ### Inside the domain -/

/-- The digit registers hold the numeral of `TEMP`, and the pattern registers the cells of its digits with the point
after the ones (43_temperature_converter.md R73, 45_display_controller.md R87). -/
structure ShowsTemperature (c : LegalConfig) (d : DataRegs) : Prop where
  numeral : (d.tens.toNat * 100 + d.ones.toNat * 10 + d.tenths.toNat : Int) = d.temp.toInt
  tens : d.tens.toNat ≤ 9
  ones : d.ones.toNat ≤ 9
  tenths : d.tenths.toNat ≤ 9
  p0 : Memory.read c.val.segRom d.tenths.toNat = some d.p0
  p1 : ∃ b, Memory.read c.val.segRom (16 + d.ones.toNat) = some b ∧ d.p1 = b ||| 0x40
  p2 : Memory.read c.val.segRom (32 + d.tens.toNat) = some d.p2

/-- Inside the domain no flag but `SKIP` is touched, and no free value is drawn (46_cycle_and_nop.md R93). -/
theorem convertAndShow_inDomain {s : State} (hlo : s.cfg.val.offsetMv ≤ s.data.volt.toNat)
    (hhi : s.data.volt.toNat ≤ s.cfg.val.offsetMv + 999) :
    ShowsTemperature s.cfg (convertAndShow s).data ∧ (convertAndShow s).skip = false ∧
      (convertAndShow s).draws = s.draws ∧
      ∀ j, j ≠ 1 → (convertAndShow s).status.getLsbD j = s.status.getLsbD j := by
  obtain ⟨htens, hones, htenths⟩ := toDigits_toNat_inDomain hlo hhi
  have ht : (toDigits s.data.volt s).data.tens.toNat ≤ 9 := by omega
  have ho : (toDigits s.data.volt s).data.ones.toNat ≤ 9 := by omega
  have hh : (toDigits s.data.volt s).data.tenths.toNat ≤ 9 := by omega
  have hdigits := toDigits_inDomain s.data.volt s hlo hhi
  obtain ⟨-, hp0, hp1, hp2⟩ := showBody_patterns (toDigits s.data.volt s).data.tens
    (toDigits s.data.volt s).data.ones (toDigits s.data.volt s).data.tenths (toDigits s.data.volt s)
  obtain ⟨b0, b1, b2, -, -, -, hbody⟩ := showBody_inRange ht ho hh (toDigits s.data.volt s)
  refine ⟨?shows, ?skip, ?draws, fun j hj => ?status⟩
  case shows =>
    have htemp := toDigits_temp s.data.volt s
    rw [toDigits_cfg] at hp0 hp1 hp2
    rw [convertAndShow_data, convertAndShow_eq]
    exact ⟨by dsimp only; omega, ht, ho, hh, hp0 hh, hp1 ho, hp2 ht⟩
  case skip =>
    exact (skip_showBody _ _ _ _).trans (sentinel_encodeFrame ho)
  case draws =>
    rw [convertAndShow_eq, hbody, hdigits]
    rfl
  case status =>
    rw [convertAndShow_eq, hbody, hdigits]
    exact getLsbD_clearBit_ne hj.symm _

/-! ### The command -/

theorem trace_finish (s : State) : (finish s).trace = s.trace := rfl

theorem workKept_finish {s t : State} (h : WorkKept s t) : WorkKept s (finish t) := h

theorem unitKept_finish {s t : State} (h : UnitKept s t) : UnitKept s (finish t) := h

theorem DataRegs.eq_with_pat {d : DataRegs} {x : Byte} (h : d.pat = x) : d = { d with pat := x } := by
  subst h
  rfl

/-- What the sample phase of CYCLE leaves for the other two (46_cycle_and_nop.md R93). -/
structure Sampled (s : State) (cs : List Conversion) (u : State) : Prop where
  results : SampleResults s.cfg cs u.data
  pat : u.data.pat = s.data.pat
  frcnt : u.data.frcnt = s.data.frcnt
  cmdr : u.seq.cmdr = encodeInstr .cycle
  status : StatusKept [] s u
  pins : u.pins = { s.pins with adcStart := false }
  chain : u.chain = s.chain
  work : WorkKept s u
  unit : UnitKept s u
  draws : u.draws = s.draws
  trace : u.trace = s.trace ++ sampleTrace cs

theorem exec_cycle_sampled {s : State} {cs : List Conversion} (h : AdcLive s cs) :
    ∃ u, exec .cycle s = .next (finish (convertAndShow u)) ∧ Sampled s cs u := by
  obtain ⟨u, hexec, hu, results⟩ := exec_cycle_live h
  obtain ⟨status, pins, chain, work, unit, draws⟩ :=
    sampling_frame (st := (accept (encodeInstr .cycle) s).seq.st) hu
  have trace : u.trace = s.trace ++ sampleTrace cs := by
    rw [← sampleLog_events s.cfg.val.settleTicks cs]
    exact trace_of_log (congrArg State.log hu)
  have pat : u.data.pat = s.data.pat := by rw [hu]; rfl
  have frcnt : u.data.frcnt = s.data.frcnt := by rw [hu]; rfl
  have cmdr : u.seq.cmdr = encodeInstr .cycle := by rw [hu]; rfl
  exact ⟨u, hexec, { results, pat, frcnt, cmdr, status, pins, chain, work, unit, draws, trace }⟩

section
variable {s u : State} {cs : List Conversion}

/-- A bit of `STATUS` that the last two phases leave is that of before CYCLE. -/
theorem Sampled.getLsbD_status (h : Sampled s cs u) {j : Nat} (hbusy : j ≠ 0)
    (hj : (convertAndShow u).status.getLsbD j = u.status.getLsbD j) :
    (finish (convertAndShow u)).status.getLsbD j = s.status.getLsbD j := by
  rw [finish_status, getLsbD_clearBit_ne hbusy.symm, hj, h.status j hbusy List.not_mem_nil]

theorem Sampled.trace_shown (h : Sampled s cs u) (hskip : (convertAndShow u).skip = false) :
    (convertAndShow u).trace = s.trace ++ sampleTrace cs ++
      frameTrace (convertAndShow u).data.p0 (convertAndShow u).data.p1 (convertAndShow u).data.p2 := by
  rw [trace_of_log (frameSent_convertAndShow hskip).log, frameLog_events, h.trace]

theorem Sampled.pins_shown (h : Sampled s cs u) (hskip : (convertAndShow u).skip = false) :
    (convertAndShow u).pins = ⟨false, false, false, false, s.pins.srClrN⟩ := by
  rw [(frameSent_convertAndShow hskip).pins, h.pins]

/-- A suppressed update leaves what the sample phase left (45_display_controller.md R88; decision D18). -/
theorem Sampled.suppressed (h : Sampled s cs u) (hskip : (convertAndShow u).skip = true) :
    (convertAndShow u).trace = s.trace ++ sampleTrace cs ∧ (convertAndShow u).chain = s.chain ∧
      (convertAndShow u).data.frcnt = s.data.frcnt ∧
      (convertAndShow u).pins = { s.pins with adcStart := false } ∧ WorkKept s (convertAndShow u) := by
  obtain ⟨⟨hpins, hchain, hlog⟩, hfrcnt, hshr, hbitix, hbyteix, htmr⟩ := portUntouched_convertAndShow hskip
  obtain ⟨hshr', hbitix', hbyteix', htmr'⟩ := h.work
  have htrace : (convertAndShow u).trace = u.trace := congrArg (List.filterMap LogEntry.event?) hlog
  exact ⟨htrace.trans h.trace, hchain.trans h.chain, hfrcnt.trans h.frcnt, hpins.trans h.pins,
    hshr.trans hshr', hbitix.trans hbitix', hbyteix.trans hbyteix', htmr.trans htmr'⟩

end

/-- Settles O37. The sample phase gives the four results; `SKIP` decides between the frame and the untouched port, and
inside the domain it is the frame of the digits. -/
theorem cycleResult : Obligations.CycleResult := by
  intro s cs hlive
  obtain ⟨u, hexec, h⟩ := exec_cycle_sampled hlive
  obtain ⟨hcfg, hhost, -⟩ := h.unit
  obtain ⟨-, -, -, htmr⟩ := h.work
  obtain ⟨htrigger, hclear, htimer, hplans⟩ := convertAndShow_outside u
  obtain ⟨hacc, hcnt, havg, hvolt, hpat⟩ := convertAndShow_sampled u
  have htemp := convertAndShow_temp u
  have hdone := completed_finish _ _ ((convertAndShow_cmdr u).trans h.cmdr)
  have hunit := unitKept_finish (unitKept_of s _ ((convertAndShow_cfg u).trans hcfg) (hplans.trans hhost))
  refine ⟨_, hexec, hdone, ?acc, ?cnt, ?avg, ?volt, ?temp, ?pat, ?status, ?clear, ?trigger, ?tmr, hunit, ?inside,
    ?outside, ?shown, ?suppressed⟩
  case acc => rw [finish_data, hacc, h.results.acc]
  case cnt => rw [finish_data, hcnt, h.results.cnt]
  case avg => rw [finish_data, havg, h.results.avg]
  case volt => rw [finish_data, hvolt, havg, h.results.volt, h.results.avg]
  case temp => rw [finish_data, hvolt, htemp, hcfg]
  case pat =>
    rw [finish_data]
    exact DataRegs.eq_with_pat (hpat.trans h.pat)
  case status => exact fun j hbusy hj => h.getLsbD_status hbusy (getLsbD_convertAndShow hj u)
  case clear => rw [finish_pins, hclear, h.pins]
  case trigger => rw [finish_pins, htrigger, h.pins]
  case tmr => rw [finish_seq, htimer, htmr]
  case inside =>
    rw [finish_data, finish_chain, finish_draws, skip_finish, trace_finish]
    rintro ⟨hlo, hhi⟩
    obtain ⟨hshows, hskip, hdraws, hbits⟩ := convertAndShow_inDomain (s := u) (by omega) (by omega)
    rw [hcfg] at hshows
    have hsent := frameSent_convertAndShow hskip
    exact ⟨hshows.numeral, hshows.tens, hshows.ones, hshows.tenths, hshows.p0, hshows.p1, hshows.p2,
      h.trace_shown hskip, hsent.chain, hsent.frcnt, hskip,
      fun j hbusy hj => h.getLsbD_status hbusy (hbits j (List.ne_of_not_mem_cons hj)), hdraws.trans h.draws⟩
  case outside =>
    rw [finish_data, err_finish]
    exact fun hout => err_range_convertAndShow (by omega)
  case shown =>
    simp only [skip_finish, trace_finish, finish_data, finish_chain, finish_pins, finish_seq]
    intro hskip
    have hsent := frameSent_convertAndShow hskip
    exact ⟨h.trace_shown hskip, hsent.chain, hsent.frcnt, h.pins_shown hskip, hsent.shr, hsent.bitix, hsent.byteix⟩
  case suppressed =>
    rw [skip_finish, trace_finish, finish_chain, finish_data, finish_pins]
    intro hskip
    obtain ⟨htrace, hchain, hfrcnt, hpins, hwork⟩ := h.suppressed hskip
    exact ⟨htrace, hchain, hfrcnt, hpins, workKept_finish hwork⟩

end Sys2Proof.Machine
end

section
/-! SUPPORT. The error mechanism of 60_exceptions.md section 1: a raise sets one flag (R97), each command has the
errors of the table of R104 and no others, and no error stops a step. -/

namespace Sys2Proof.Machine

/-! ### A raise and the other flags -/

/-- Settles O41. The codes lie below 8, so the bit set is a bit of `STATUS`; the codes are read off `ErrorFlag.bit`. -/
theorem raiseSetsOneBit : Obligations.RaiseSetsOneBit := by
  intro s e
  have hbit := e.bit_range
  exact ⟨getLsbD_setBit_self e.bit (by omega) s.status, fun _ hj => getLsbD_setBit_ne hj.symm s.status, rfl, rfl⟩

theorem err_congr {s t : State} (h : t.status = s.status) (e : ErrorFlag) : t.err e = s.err e := by
  rw [State.err, h, State.err]

theorem err_raiseErrorIf_ne {e f : ErrorFlag} (h : f ≠ e) (c : Bool) (s : State) :
    (raiseErrorIf c e s).err f = s.err f := by
  have hbit : e.bit ≠ f.bit := fun heq => h (ErrorFlag.bit_inj heq.symm)
  rw [State.err, getLsbD_raiseErrorIf, decide_eq_false hbit, Bool.and_false, Bool.or_false, State.err]

/-! ### The bodies of the commands that can raise -/

theorem err_encodeBody_ne {e : ErrorFlag} (h : e ≠ .arg) (p : Position) (dp : Bool) (v : Digit) (s : State) :
    (encodeBody p dp v s).err e = s.err e := by
  rw [encodeBody, err_raiseErrorIf_ne h]
  exact err_congr (enc_status p v dp s) e

theorem err_toDigits_ne {e : ErrorFlag} (h : e ≠ .range) (v : Millivolts) (s : State) :
    (toDigits v s).err e = s.err e :=
  getLsbD_toDigits_ne (fun heq => h (ErrorFlag.bit_inj heq)) v s

theorem err_showBody_ne {e : ErrorFlag} (h : e ≠ .arg) (t o d : Digit) (s : State) :
    (showBody t o d s).err e = s.err e := by
  have hbit := e.bit_range
  have harg : 3 ≠ e.bit := fun heq => h (ErrorFlag.bit_inj heq.symm)
  rw [State.err, getLsbD_showBody, if_neg (by omega), getLsbD_encodeFrame, decide_eq_false harg, Bool.and_false,
    Bool.or_false, State.err]

theorem err_convertAndShow_ne {e : ErrorFlag} (harg : e ≠ .arg) (hrange : e ≠ .range) (s : State) :
    (convertAndShow s).err e = s.err e := by
  rw [convertAndShow_eq, err_showBody_ne harg, err_toDigits_ne hrange]

theorem err_latch_ne {e : ErrorFlag} (h : e ≠ .frame) (s : State) : (latchPulse (frameCheck s)).err e = s.err e := by
  rw [latchPulse_eq]
  exact err_raiseErrorIf_ne h _ s

/-! ### Whole commands -/

/-- The errors that the table of R104 gives a command. -/
def errorsOf : Instr → List ErrorFlag
  | .nop | .sample | .pushbit _ | .pushbyte _ => []
  | .convert _ => [.range]
  | .encode _ _ _ => [.arg]
  | .latch => [.frame]
  | .showDigits _ _ _ => [.arg]
  | .cycle => [.arg, .range]

/-- Acceptance and end touch no error flag, so an operation does to them what its body does. -/
theorem err_operation {w : CmdWord} {e : ErrorFlag} {s u : State} (hbody : u.err e = (accept w s).err e) :
    (finish u).err e = s.err e := by
  rw [err_finish, hbody, err_accept]

/-- The sample phase raises nothing, whether it ends or stalls. -/
theorem err_sampling {w : CmdWord} {e : ErrorFlag} {s : State} {rest : State → State}
    (hrest : ∀ u : State, (rest u).err e = u.err e) :
    ((sampleVoltage (accept w s)).conclude rest).err e = s.err e := by
  obtain ⟨u, hu, hst⟩ | ⟨u, hu, hst, -⟩ := sampleVoltage_cases (accept w s)
  · rw [hu, Phase.conclude, err_finish, hrest, err_congr hst, err_accept]
  · rw [hu, Phase.conclude, err_congr hst, err_accept]

/-- A command leaves every flag alone that is not one of its errors. -/
theorem err_exec_of_not_mem {i : Instr} {s t : State} {e : ErrorFlag} (h : exec i s = .next t)
    (he : e ∉ errorsOf i) : t.err e = s.err e := by
  cases i with
  | nop => cases h; exact err_operation rfl
  | sample => cases h; exact err_sampling fun _ => rfl
  | convert mv => cases h; exact err_operation (err_toDigits_ne (List.ne_of_not_mem_cons he) mv _)
  | encode p dp val => cases h; exact err_operation (err_encodeBody_ne (List.ne_of_not_mem_cons he) p dp val _)
  | pushbit b => cases h; exact err_operation (err_congr (by rw [driveData_status, pushBit_eq]) e)
  | pushbyte x => cases h; exact err_operation (err_congr (by rw [driveData_status, pushByte_eq]) e)
  | latch => cases h; exact err_operation (err_latch_ne (List.ne_of_not_mem_cons he) _)
  | showDigits a b c => cases h; exact err_operation (err_showBody_ne (List.ne_of_not_mem_cons he) a b c _)
  | cycle =>
    cases h
    have hrange := List.ne_of_not_mem_cons (List.not_mem_of_not_mem_cons he)
    exact err_sampling (err_convertAndShow_ne (List.ne_of_not_mem_cons he) hrange)

theorem mem_errorsOf_of_err_ne {i : Instr} {s t : State} {e : ErrorFlag} (h : exec i s = .next t)
    (hne : t.err e ≠ s.err e) : e ∈ errorsOf i :=
  by_contra fun he => hne (err_exec_of_not_mem h he)

/-! The table of R104, read by its columns. -/

theorem cmd_not_mem_errorsOf (i : Instr) : ErrorFlag.cmd ∉ errorsOf i := by
  cases i <;> simp [errorsOf]

theorem arg_mem_errorsOf_iff {i : Instr} :
    ErrorFlag.arg ∈ errorsOf i ↔ (∃ p d v, i = .encode p d v) ∨ (∃ a b c, i = .showDigits a b c) ∨ i = .cycle := by
  cases i <;> simp [errorsOf]

theorem range_mem_errorsOf_iff {i : Instr} : ErrorFlag.range ∈ errorsOf i ↔ (∃ mv, i = .convert mv) ∨ i = .cycle := by
  cases i <;> simp [errorsOf]

theorem frame_mem_errorsOf_iff {i : Instr} : ErrorFlag.frame ∈ errorsOf i ↔ i = .latch := by
  cases i <;> simp [errorsOf]

/-- Settles O42. A flag that changed is one of the command's errors, and the table says whose errors it is among. -/
theorem whoRaisesWhat : Obligations.WhoRaisesWhat := fun i _ _ h =>
  ⟨err_exec_of_not_mem h (cmd_not_mem_errorsOf i),
    fun harg => arg_mem_errorsOf_iff.mp (mem_errorsOf_of_err_ne h harg),
    fun hrange => range_mem_errorsOf_iff.mp (mem_errorsOf_of_err_ne h hrange),
    fun hframe => frame_mem_errorsOf_iff.mp (mem_errorsOf_of_err_ne h hframe)⟩

/-! ### Nothing stops a step -/

/-- Every command answers a next state, the stalled SAMPLE and CYCLE among them (R103). -/
theorem exec_total (i : Instr) (s : State) : ∃ t, exec i s = .next t := by
  cases i <;> exact ⟨_, rfl⟩

/-- An illegal word completes like any other (R97, R98). -/
theorem runWord_total (w : CmdWord) (s : State) : ∃ t, runWord w s = .next t := by
  cases hdecode : decode w with
  | ok i => rw [runWord_ok hdecode]; exact exec_total i s
  | error e => rw [runWord_error hdecode]; exact ⟨_, rfl⟩

theorem hostAction_total (a : HostAction) (rest : List HostAction) (s : State) :
    ∃ t, hostAction a rest s = .next t := by
  cases a with
  | pause | reset => exact ⟨_, rfl⟩
  | issue w =>
    rw [hostAction]
    split
    · exact runWord_total w _
    · exact ⟨_, rfl⟩
  | issueThenReset w k =>
    rw [hostAction]
    split <;> exact ⟨_, rfl⟩

/-- Settles O7. Every action of the host is answered by a next state, and so is its silence. -/
theorem everyStepHasNext : Obligations.EveryStepHasNext := by
  intro s
  rw [step]
  split
  · exact ⟨_, rfl⟩
  · exact hostAction_total _ _ s

end Sys2Proof.Machine
end

section
/-! SUPPORT. The minimum durations of 70_reset_and_hazards.md R126: a piece of log that leaves a rested watcher rested,
that what a bit cell, a latch pulse and a conversion add are such pieces, and that every command is made of them. -/

namespace Sys2Proof.Machine

/-! ### Pieces of log that keep the bounds -/

/-- A watcher that finds the pins at rest sees no bound broken in this piece of log, and finds them at rest after it. -/
def KeepsBounds (c : LegalConfig) (l : List LogEntry) : Prop :=
  ∀ w : Watch, w.rested c.val.settleTicks →
    ∃ w', watchAll c.val.pulseTicks c.val.settleTicks w l = some w' ∧ w'.rested c.val.settleTicks

theorem watchAll_append (P S : Nat) (w : Watch) (l m : List LogEntry) :
    watchAll P S w (l ++ m) = (watchAll P S w l).bind (watchAll P S · m) := by
  induction l generalizing w with
  | nil => rfl
  | cons x l ih =>
    simp only [List.cons_append, watchAll]
    split
    · exact ih _
    · rfl

section
variable {c : LegalConfig}

theorem keepsBounds_nil : KeepsBounds c [] := fun w hw => ⟨w, rfl, hw⟩

theorem KeepsBounds.append {l m : List LogEntry} (hl : KeepsBounds c l) (hm : KeepsBounds c m) :
    KeepsBounds c (l ++ m) := by
  intro w hw
  obtain ⟨w', hwatch, hw'⟩ := hl w hw
  obtain ⟨w'', hwatch', hw''⟩ := hm w' hw'
  exact ⟨w'', by rw [watchAll_append, hwatch, Option.bind_some, hwatch'], hw''⟩

theorem keepsBounds_flatMap {α : Type} {f : α → List LogEntry} (h : ∀ x, KeepsBounds c (f x)) (xs : List α) :
    KeepsBounds c (xs.flatMap f) := by
  induction xs with
  | nil => exact keepsBounds_nil
  | cons x xs ih => exact (h x).append ih

/-! ### The pieces that commands are made of -/

/-- More ticks since the last `ADC_DONE` keep it as long ago as `S` ticks. -/
theorem settled_of_add {S n : Nat} {since : Option Nat} (h : ∀ k, since = some k → S ≤ k) :
    ∀ k, since.map (· + n) = some k → S ≤ k := by
  cases since with
  | none => simp
  | some j =>
    rintro _ ⟨rfl⟩
    exact (h j rfl).trans (Nat.le_add_right j n)

/-- With `sr_clk` low `sr_data` may change (row 4). -/
theorem keepsBounds_data (b : Bool) : KeepsBounds c [.ev (.data b)] := by
  rintro ⟨clk, latch, quiet, since⟩ ⟨rfl, rfl, hsince⟩
  exact ⟨_, rfl, rfl, rfl, hsince⟩

/-- A bit cell holds both of its phases for `PULSE_TICKS` ticks (rows 1, 3, 4, 5). -/
theorem keepsBounds_cell (b : Bool) : KeepsBounds c (cellLog c.val.pulseTicks b) := by
  rintro ⟨clk, latch, quiet, since⟩ ⟨rfl, rfl, hsince⟩
  refine ⟨⟨false, false, 0, (since.map (· + c.val.pulseTicks)).map (· + c.val.pulseTicks)⟩, ?_, rfl, rfl,
    settled_of_add (settled_of_add hsince)⟩
  simp [cellLog, watchAll, watch]

theorem keepsBounds_byte (x : Byte) : KeepsBounds c (byteLog c.val.pulseTicks x) :=
  keepsBounds_flatMap keepsBounds_cell _

/-- A latch pulse comes `PULSE_TICKS` ticks after the last serial event and lasts as long (rows 2, 6, 7, 8). -/
theorem keepsBounds_latch :
    KeepsBounds c [.hold c.val.pulseTicks, .ev .latchRise, .hold c.val.pulseTicks, .ev .latchFall] := by
  rintro ⟨clk, latch, quiet, since⟩ ⟨rfl, rfl, hsince⟩
  refine ⟨⟨false, false, 0, (since.map (· + c.val.pulseTicks)).map (· + c.val.pulseTicks)⟩, ?_, rfl, rfl,
    settled_of_add (settled_of_add hsince)⟩
  simp [watchAll, watch]

theorem keepsBounds_frame (p0 p1 p2 : Byte) : KeepsBounds c (frameLog c.val.pulseTicks p0 p1 p2) :=
  (((keepsBounds_byte p0).append (keepsBounds_byte p1)).append (keepsBounds_byte p2)).append
    ((keepsBounds_data false).append keepsBounds_latch)

/-- A trigger comes after the last settle wait (row 9). -/
theorem keepsBounds_trigger : KeepsBounds c [.ev .adcStart, .hold 1] := by
  rintro ⟨clk, latch, quiet, since⟩ ⟨rfl, rfl, hsince⟩
  refine ⟨⟨false, false, quiet + 1, since.map (· + 1)⟩, ?_, rfl, rfl, settled_of_add hsince⟩
  have hall : since.all (fun n => decide (c.val.settleTicks ≤ n)) = true := by
    cases since with
    | none => rfl
    | some n => exact decide_eq_true (hsince n rfl)
  simp only [watchAll, watch, hall, if_true]

/-- The settle wait after a completion lasts `SETTLE_TICKS` ticks (row 9). -/
theorem keepsBounds_settled (r : RawSample) :
    KeepsBounds c [.ev (.adcDone r), .hold c.val.settleTicks, .ev .settle] := by
  rintro ⟨clk, latch, quiet, since⟩ ⟨rfl, rfl, -⟩
  refine ⟨⟨false, false, quiet + c.val.settleTicks, some c.val.settleTicks⟩, ?_, rfl, rfl, ?_⟩
  · simp [watchAll, watch]
  · rintro _ ⟨rfl⟩
    exact Nat.le_refl _

theorem keepsBounds_samples (cs : List Conversion) : KeepsBounds c (sampleLog c.val.settleTicks cs) :=
  keepsBounds_flatMap (fun conv => keepsBounds_trigger.append (keepsBounds_settled conv.result)) cs

end

/-! ### Operations -/

/-- Between `s` and `t` the log grew by a piece that keeps the bounds of the unit. -/
def LogsInBounds (s t : State) : Prop :=
  t.cfg = s.cfg ∧ ∃ added, t.log = s.log ++ added ∧ KeepsBounds s.cfg added

theorem logsInBounds_of_log_eq {s t : State} (hcfg : t.cfg = s.cfg) (hlog : t.log = s.log) : LogsInBounds s t :=
  ⟨hcfg, [], by rw [hlog, List.append_nil], keepsBounds_nil⟩

theorem LogsInBounds.trans {s t u : State} (h : LogsInBounds s t) (h' : LogsInBounds t u) : LogsInBounds s u := by
  obtain ⟨hcfg, l, hl, hkeeps⟩ := h
  obtain ⟨hcfg', m, hm, hkeeps'⟩ := h'
  rw [hcfg] at hkeeps'
  exact ⟨hcfg'.trans hcfg, l ++ m, by rw [hm, hl, List.append_assoc], hkeeps.append hkeeps'⟩

/-- Acceptance and end move no pin. -/
theorem logsInBounds_operation {w : CmdWord} {s u : State} (h : LogsInBounds (accept w s) u) :
    LogsInBounds s (finish u) := h

theorem logsInBounds_pushBit (b : Bool) (s : State) : LogsInBounds s (driveData false (pushBit b s)) := by
  refine ⟨by simp, cellLog s.cfg.val.pulseTicks b ++ [.ev (.data false)], ?_,
    (keepsBounds_cell b).append (keepsBounds_data false)⟩
  simp [pushBit_eq]

theorem logsInBounds_pushByte (x : Byte) (s : State) : LogsInBounds s (driveData false (pushByte x s)) := by
  refine ⟨by simp, byteLog s.cfg.val.pulseTicks x ++ [.ev (.data false)], ?_,
    (keepsBounds_byte x).append (keepsBounds_data false)⟩
  simp [pushByte_eq]

theorem logsInBounds_latch (s : State) : LogsInBounds s (latchPulse (frameCheck s)) := by
  refine ⟨by simp, _, ?_, keepsBounds_latch⟩
  simp [latchPulse_eq, frameCheck]

/-- A display update sends a frame, or moves no pin when it is suppressed. -/
theorem logsInBounds_showBody (t o h : Digit) (s : State) : LogsInBounds s (showBody t o h s) := by
  cases hskip : (showBody t o h s).skip with
  | true =>
    obtain ⟨⟨-, -, hlog⟩, -, -⟩ := portUntouched_showBody hskip
    exact logsInBounds_of_log_eq (showBody_cfg t o h s) hlog
  | false => exact ⟨showBody_cfg t o h s, _, (frameSent_showBody hskip).log, keepsBounds_frame _ _ _⟩

theorem logsInBounds_toDigits (v : Millivolts) (s : State) : LogsInBounds s (toDigits v s) :=
  logsInBounds_of_log_eq (toDigits_cfg v s) (toDigits_log v s)

theorem logsInBounds_convertAndShow (s : State) : LogsInBounds s (convertAndShow s) :=
  (logsInBounds_toDigits _ s).trans (logsInBounds_showBody _ _ _ _)

/-- The sample phase and what follows it; a stalled one ends with a trigger. -/
theorem logsInBounds_sampling {rest : State → State} (hrest : ∀ u, LogsInBounds u (rest u)) (s : State) :
    LogsInBounds s ((sampleVoltage s).conclude rest) := by
  obtain ⟨cs, hlive⟩ | ⟨k, cs, hk, h1, h2⟩ := live_or_stalls s.cfg.val.nSamples s.adc
  · obtain ⟨u, hphase, hu, -⟩ := sampleVoltage_live hlive
    rw [hphase]
    have hsampled : LogsInBounds s u := ⟨by rw [hu], _, by rw [hu], keepsBounds_samples cs⟩
    exact hsampled.trans (hrest u)
  · obtain ⟨u, hphase, hu, -⟩ := sampleVoltage_stalls ⟨hk, h1, h2⟩
    rw [hphase]
    rw [List.append_assoc] at hu
    exact ⟨by rw [hu]; rfl, _, by rw [hu]; rfl, (keepsBounds_samples cs).append keepsBounds_trigger⟩

theorem logsInBounds_exec {i : Instr} {s t : State} (h : exec i s = .next t) : LogsInBounds s t := by
  cases i with
  | nop => cases h; exact logsInBounds_of_log_eq rfl rfl
  | sample =>
    cases h
    exact logsInBounds_sampling (fun _ => logsInBounds_of_log_eq rfl rfl) (accept (encodeInstr .sample) s)
  | convert mv => cases h; exact logsInBounds_operation (logsInBounds_toDigits mv _)
  | encode p dp val =>
    cases h
    exact logsInBounds_operation (logsInBounds_of_log_eq (encodeBody_cfg p dp val _) (encodeBody_log p dp val _))
  | pushbit b => cases h; exact logsInBounds_operation (logsInBounds_pushBit b _)
  | pushbyte x => cases h; exact logsInBounds_operation (logsInBounds_pushByte x _)
  | latch => cases h; exact logsInBounds_operation (logsInBounds_latch _)
  | showDigits a b d => cases h; exact logsInBounds_operation (logsInBounds_showBody a b d _)
  | cycle => cases h; exact logsInBounds_sampling logsInBounds_convertAndShow (accept (encodeInstr .cycle) s)

/-- Settles O49. What a command adds to the log is made of bit cells, latch pulses and conversions, and each of them
leaves the watcher at rest. -/
theorem minimumDurations : Obligations.MinimumDurations := by
  intro i s t w hexec hw
  obtain ⟨-, added, hlog, hkeeps⟩ := logsInBounds_exec hexec
  obtain ⟨w', hwatch, hw'⟩ := hkeeps w hw
  exact ⟨added, w', hlog, hwatch, hw'⟩

end Sys2Proof.Machine
end

section
/-! SUPPORT. Reset: what its edge leaves of CORE, of the chain and of the log, and that an idle machine to which
nothing is presented stays as it is (70_reset_and_hazards.md R115, R116, R118). -/

namespace Sys2Proof.Machine

/-! ### The reset edge -/

/-- Settles O10. An edge with `rst = 1` is the reset of CORE, whatever else is presented. -/
theorem resetEdgeClearsEverything : Obligations.ResetEdgeClearsEverything := by
  intro s inp hrst
  obtain ⟨hdata, hseq, hstatus, hpins, -⟩ := resetCore_core s
  have hready : s.cmdReady true = false := Bool.and_false _
  rw [tick_reset s hrst]
  exact ⟨hdata, hstatus, hseq, congrArg Pins.adcStart hpins, congrArg Pins.srData hpins, congrArg Pins.srClk hpins,
    congrArg Pins.srLatch hpins, congrArg Pins.srClrN hpins, congrArg SeqRegs.donef hseq, hready, rfl⟩

/-- A reset that cuts no clock pulse short leaves the shift stage alone (70_reset_and_hazards.md R116). -/
theorem resetCore_sh {s : State} (h : s.seq.st ≠ .bHigh) : (resetCore s).chain.sh = s.chain.sh := by
  obtain ⟨hst, -⟩ | ⟨-, hlatch⟩ | ⟨-, -, hkept⟩ := resetCore_chain s
  · exact absurd hst h
  · rw [hlatch]
  · rw [hkept]

/-- Settles O11. A reset touches the stage of the pulse it cuts short and no other. -/
theorem resetKeepsTheChain : Obligations.ResetKeepsTheChain := by
  intro s inp hrst
  rw [tick_reset s hrst]
  exact ⟨resetCore_sh, resetCore_disp⟩

/-! ### Nothing presented in `IDLE` -/

/-- Two states of CORE that differ at most outside it, in the ADC, the host and the model's own fields but the log. -/
structure SameCore (s t : State) : Prop where
  data : t.data = s.data
  seq : t.seq = s.seq
  status : t.status = s.status
  pins : t.pins = s.pins
  chain : t.chain = s.chain
  log : t.log = s.log

theorem SameCore.trans {s t u : State} (h : SameCore s t) (h' : SameCore t u) : SameCore s u :=
  ⟨h'.data.trans h.data, h'.seq.trans h.seq, h'.status.trans h.status, h'.pins.trans h.pins, h'.chain.trans h.chain,
    h'.log.trans h.log⟩

/-- In `IDLE` an edge at which nothing is presented takes `done` low and moves the ADC, and does nothing else. -/
theorem tick_quiet_idle {s : State} (h : s.seq.st = .idle) :
    tick quiet s = { s with seq.donef := false, adc := adcEdge s.pins.adcStart s.adc } := by
  simp [tick, coreEdge, quiet, h]

theorem sameCore_tick_quiet {s : State} (hidle : s.seq.st = .idle) (hdone : s.seq.donef = false) :
    SameCore s (tick quiet s) := by
  rw [tick_quiet_idle hidle, ← hdone]
  constructor <;> rfl

/-- After the `done` tick an idle machine stands still for as long as nothing is presented. -/
theorem sameCore_ticks {s : State} (hidle : s.seq.st = .idle) (hdone : s.seq.donef = false) (n : Nat) :
    SameCore s (ticks n s) := by
  induction n generalizing s with
  | zero => constructor <;> rfl
  | succ n ih =>
    have hfirst := sameCore_tick_quiet hidle hdone
    exact hfirst.trans (ih (by rw [hfirst.seq, hidle]) (by rw [hfirst.seq, hdone]))

/-- Settles O12. A reset leaves an idle machine without `done`, and in `IDLE` only `done` and the ADC move. -/
theorem nothingStartsByItself : Obligations.NothingStartsByItself := by
  have hreset : ∀ (s : State) (inp : TickIn), inp.rst = true → (tick inp s).seq = (State.resetWith s.cfg).seq := by
    intro s inp hrst
    obtain ⟨-, hseq, -⟩ := resetCore_core s
    rw [tick_reset s hrst, hseq]
  refine ⟨fun s inp hrst => ?ready, fun s hidle => ?idle, fun s inp n hrst => ?still⟩
  case ready =>
    rw [State.cmdReady, hreset s inp hrst]
    exact ⟨rfl, rfl⟩
  case idle =>
    rw [tick_quiet_idle hidle]
    exact ⟨rfl, rfl, rfl, rfl, rfl, rfl⟩
  case still =>
    have hseq := hreset s inp hrst
    obtain ⟨data, seq, status, pins, chain, log⟩ :=
      sameCore_ticks (s := tick inp s) (by rw [hseq]; rfl) (by rw [hseq]; rfl) n
    exact ⟨data, seq, status, pins, chain, log⟩

/-! ### A hold cut short -/

/-- A timed state only counts before its last tick, beside whatever the ADC does. -/
theorem ticks_counting {k : Nat} {s : State} (hst : s.seq.st.timed = true) (hk : k < s.seq.tmr) :
    ∃ a, ticks k s = { withTimer (s.seq.tmr - k) s with adc := a } := by
  induction k generalizing s with
  | zero => exact ⟨s.adc, rfl⟩
  | succ k ih =>
    have hcount : tick quiet s = { withTimer (s.seq.tmr - 1) s with adc := adcEdge s.pins.adcStart s.adc } := by
      rw [tick_quiet_busy (timed_ne_idle hst), busyEdge_timed hst, countdown, if_neg (by omega)]
      rfl
    obtain ⟨a, ha⟩ := ih (s := { withTimer (s.seq.tmr - 1) s with adc := adcEdge s.pins.adcStart s.adc }) hst
      (show k < s.seq.tmr - 1 by omega)
    refine ⟨a, ?_⟩
    rw [ticks, hcount, ha, Nat.add_comm k 1, ← Nat.sub_sub]
    rfl

theorem cutHold_of_elapsed {s : State} {n : Nat} (h : elapsedTicks s = n + 1) : cutHold s = [.hold (n + 1)] := by
  rw [cutHold, h, if_neg (Nat.succ_ne_zero n)]

/-- A reset after `k` ticks of a hold ends the next one, and the log tells of these `k + 1` ticks
(70_reset_and_hazards.md R116). -/
theorem log_reset_of_counting {inp : TickIn} {k : Nat} {s : State} (hrst : inp.rst = true)
    (hst : s.seq.st.timed = true) (htmr : s.seq.tmr = holdTicks s.cfg s.seq.st) (hk : k < s.seq.tmr) :
    (tick inp (ticks k s)).log = s.log ++ .hold (k + 1) :: resetEvents s.pins := by
  obtain ⟨a, ha⟩ := ticks_counting hst hk
  have helapsed : elapsedTicks (ticks k s) = k + 1 := by
    rw [ha]
    exact elapsedTicks_of_tmr (htmr ▸ hk) (congrArg (· - k) htmr)
  show (tick inp (ticks k s)).log = s.log ++ ([.hold (k + 1)] ++ resetEvents s.pins)
  rw [tick_reset _ hrst, resetCore_log, cutHold_of_elapsed helapsed, ha, List.append_assoc]
  rfl

theorem srClk_low {s : State} (h : Inv s) (hst : s.seq.st ≠ .bHigh) : s.pins.srClk = false :=
  Bool.eq_false_iff.mpr fun hhigh => hst (h.clkPin.mp hhigh)

theorem srLatch_low {s : State} (h : Inv s) (hst : s.seq.st ≠ .lHigh) : s.pins.srLatch = false :=
  Bool.eq_false_iff.mpr fun hhigh => hst (h.latchPin.mp hhigh)

theorem srData_low {s : State} (h : Inv s) (hst : s.seq.st.pushing = false) : s.pins.srData = false :=
  Bool.eq_false_iff.mpr fun hhigh => by simp [h.dataPin hhigh] at hst

/-- With the serial pins low a reset moves no pin. -/
theorem resetEvents_low {p : Pins} (hlatch : p.srLatch = false) (hclk : p.srClk = false) (hdata : p.srData = false) :
    resetEvents p = [] := by
  simp [resetEvents, hlatch, hclk, hdata]

/-- Settles O58. The edge before loads `TMR` with the whole hold, so the counts that are over are the ticks that
passed; which pins fall is read off the invariant. -/
theorem resetLogsWhatPassed : Obligations.ResetLogsWhatPassed := by
  intro s inp k hinv hrst
  refine ⟨fun hst htmr hk => ?clock, fun hst htmr hk => ?latch, fun hst hdone hk => ?settle⟩
  case clock =>
    have hlatch := srLatch_low hinv (by rw [hst]; decide)
    rw [tick_expired (by rw [hst]; rfl) htmr.le, hst, log_reset_of_counting hrst rfl rfl hk]
    simp [timedNext, endLow, resetEvents, hlatch]
  case latch =>
    have hclk := srClk_low hinv (by rw [hst]; decide)
    have hdata := srData_low hinv (by rw [hst]; rfl)
    rw [tick_expired (by rw [hst]; rfl) htmr.le, hst, log_reset_of_counting hrst rfl rfl hk]
    simp [timedNext, endLatchLow, resetEvents, hclk, hdata]
  case settle =>
    have hlow := resetEvents_low (srLatch_low hinv (by rw [hst]; decide)) (srClk_low hinv (by rw [hst]; decide))
      (srData_low hinv (by rw [hst]; rfl))
    have hedge : tick quiet s =
        { enterTimed .sSettle s.cfg.val.settleTicks (accumulate s.adc.data s) with
          adc := adcEdge s.pins.adcStart s.adc } := by
      rw [tick_quiet_busy (by rw [hst]; decide), busyEdge, hst]
      simp only [endWait, hdone, if_true]
    rw [hedge, log_reset_of_counting hrst rfl rfl hk]
    simp [hlow]

end Sys2Proof.Machine
end

section
/-! SUPPORT. A caller that keeps the ranges of 70_reset_and_hazards.md R123 and R124 finds no error flag changed. -/

namespace Sys2Proof.Machine

/-- The operands of a dutiful caller leave the flag of the command's own error alone: each table cell exists, the
temperature is in its domain, the digits are digits, and the frame is whole. -/
theorem err_exec_of_callerOk {i : Instr} {s t : State} {e : ErrorFlag} (hok : i.callerOk s.cfg.val = true)
    (hcycle : i ≠ .cycle) (hframe : i = .latch → s.data.frcnt = 24) (h : exec i s = .next t) (he : e ∈ errorsOf i) :
    t.err e = s.err e := by
  have hbit := e.bit_range
  cases i with
  | nop | sample | pushbit _ | pushbyte _ => cases he
  | cycle => exact absurd rfl hcycle
  | convert mv =>
    simp only [Instr.callerOk, Bool.and_eq_true, decide_eq_true_eq] at hok
    obtain ⟨hlo, hhi⟩ := hok
    obtain ⟨t', h', -, -, -, -, -, -, hstatus, -⟩ := convertInDomain s mv hlo hhi
    obtain rfl := Host.Outcome.next.inj (h'.symm.trans h)
    exact hstatus e.bit (by omega) List.not_mem_nil
  | encode p dp v =>
    simp only [Instr.callerOk, Bool.and_eq_true] at hok
    obtain ⟨hcell, -⟩ := hok
    obtain ⟨hp, hv⟩ := (segInRange_iff p v).mp hcell
    obtain ⟨_, t', -, h', -, -, hstatus, -⟩ := encodeInRange s p dp v hp hv
    obtain rfl := Host.Outcome.next.inj (h'.symm.trans h)
    exact hstatus e.bit (by omega) List.not_mem_nil
  | showDigits a b d =>
    simp only [Instr.callerOk, Bool.and_eq_true, decide_eq_true_eq] at hok
    obtain ⟨⟨ha, hb⟩, hd⟩ := hok
    obtain rfl := List.mem_singleton.mp he
    have hdigits : ¬ (10 ≤ a.toNat ∨ 10 ≤ b.toNat ∨ 10 ≤ d.toNat) := by omega
    cases h
    rw [err_finish, err_showBody_arg, err_accept, decide_eq_false hdigits, Bool.or_false]
  | latch =>
    obtain rfl := List.mem_singleton.mp he
    obtain ⟨t', h', -, -, -, -, herr⟩ := exec_latch s
    obtain rfl := Host.Outcome.next.inj (h'.symm.trans h)
    rw [herr, hframe rfl]
    exact Bool.or_false _

/-- Settles O43. A flag that is none of the command's errors is left alone by any caller. -/
theorem dutifulCallerRaisesNothing : Obligations.DutifulCallerRaisesNothing := by
  intro i s t hok hcycle hframe h e
  by_cases he : e ∈ errorsOf i
  · exact err_exec_of_callerOk hok hcycle hframe h he
  · exact err_exec_of_not_mem h he

end Sys2Proof.Machine
end

section
/-! SUPPORT. The reference sequencer against the command level, for the commands of one body tick: an accepted word
at rest, and the edge that ends a calculating state (70_reset_and_hazards.md R127, R128). -/

namespace Sys2Proof.Machine

/-! ### Edges of a machine that meets the invariant -/

theorem AtRest.rested {s : State} (hrest : AtRest s) (hinv : Inv s) : Rested s :=
  hinv.rested (by rw [hrest.1]; rfl) (by rw [hrest.1]; rfl)

/-- At rest the ADC does not move at the edge that accepts a word. -/
theorem AtRest.tick_presenting {s : State} (hrest : AtRest s) (hinv : Inv s) (w : CmdWord) :
    tick (presenting w) s = acceptEdge w s := by
  obtain ⟨-, -, -, -, -, hadc, -⟩ := acceptEdge_common w s
  have hstill : adcEdge s.pins.adcStart s.adc = (acceptEdge w s).adc := by
    rw [(hrest.rested hinv).pins, hadc]
    exact adcEdge_still hrest.2
  rw [tick_accept w hrest.1, hstill]

/-- Outside `S_TRIG`, with no conversion in progress, the edge of a busy machine is that of its state. -/
theorem Inv.tick_busyEdge {s : State} (h : Inv s) (hidle : s.seq.st ≠ .idle) (htrig : s.seq.st ≠ .sTrig)
    (hconv : s.adc.conv = none) : tick quiet s = busyEdge s :=
  tick_busy hidle (Bool.eq_false_iff.mpr fun hstart => htrig (h.triggerPin.mp hstart)) hconv

/-! ### The word in `CMDR` -/

theorem encodeInstr_injective {i j : Instr} (h : encodeInstr i = encodeInstr j) : i = j :=
  Except.ok.inj ((decodeOfEncode i).symm.trans ((congrArg decode h).trans (decodeOfEncode j)))

theorem inCycle_eq_false {i : Instr} {s : State} (hcmdr : s.seq.cmdr = encodeInstr i) (hi : i ≠ .cycle) :
    inCycle s = false := by
  rw [inCycle, hcmdr]
  exact beq_false_of_ne fun h => hi (encodeInstr_injective h)

theorem inCycle_eq_true {s : State} (hcmdr : s.seq.cmdr = encodeInstr .cycle) : inCycle s = true := by
  rw [inCycle, hcmdr, beq_self_eq_true]

theorem runWord_encodeInstr (i : Instr) (s : State) : runWord (encodeInstr i) s = exec i s :=
  runWord_ok (decodeOfEncode i) s

/-! ### One body tick -/

/-- A word whose path begins with a state that calculates: acceptance only latches it, and the next edge ends that
state. -/
theorem tick_calculating {w : CmdWord} {s : State} (hinv : Inv s) (hrest : AtRest s)
    (hedge : acceptEdge w s = accept w s) (hw : firstState w ∈ [.nExec, .eCalc, .cCalc, .dEnc]) :
    tick quiet (tick (presenting w) s) = busyEdge (accept w s) := by
  have hne : ∀ st ∈ [SeqState.nExec, .eCalc, .cCalc, .dEnc], st ≠ .idle ∧ st ≠ .sTrig := by decide
  obtain ⟨hidle, htrig⟩ := hne _ hw
  rw [hrest.tick_presenting hinv, hedge]
  exact (inv_accept_calculating (hrest.rested hinv) hw).tick_busyEdge hidle htrig hrest.2

theorem ticks_nop {s t : State} (hinv : Inv s) (hrest : AtRest s) (h : exec .nop s = .next t) :
    tick quiet (tick (presenting (encodeInstr .nop)) s) = t := by
  cases h
  rw [tick_calculating hinv hrest rfl (by decide)]
  rfl

theorem ticks_illegal {w : CmdWord} {e : Illegal} {s t : State} (hd : decode w = .error e) (hinv : Inv s)
    (hrest : AtRest s) (h : execIllegal w s = .next t) : tick quiet (tick (presenting w) s) = t := by
  cases h
  have hst : firstState w = .nExec := firstState_error hd
  have hne : (w != encodeInstr .nop) = true := by
    refine bne_iff_ne.mpr ?_
    rintro rfl
    cases hd
  rw [tick_calculating hinv hrest (by simp only [acceptEdge, hd]) (by simp [hst])]
  simp [busyEdge, hst, endExec, hne]

theorem ticks_convert {mv : Millivolts} {s t : State} (hinv : Inv s) (hrest : AtRest s)
    (h : exec (.convert mv) s = .next t) : tick quiet (tick (presenting (encodeInstr (.convert mv))) s) = t := by
  cases h
  have hd : decode (encodeInstr (.convert mv)) = .ok (.convert mv) := decodeOfEncode _
  have hst : firstState (encodeInstr (.convert mv)) = .cCalc := by simp only [firstState, hd]
  have hmv : opMv (encodeInstr (.convert mv)) = mv := (append_inj (opcode_append_low _)).2
  have hcycle := inCycle_eq_false (i := .convert mv) (s := accept (encodeInstr (.convert mv)) s) rfl nofun
  rw [tick_calculating hinv hrest (by simp only [acceptEdge, hd]) (by simp [hst])]
  simp [busyEdge, hst, endConvert, hcycle, hmv]

theorem ticks_encode {p : Position} {dp : Bool} {v : Digit} {s t : State} (hinv : Inv s) (hrest : AtRest s)
    (h : exec (.encode p dp v) s = .next t) :
    tick quiet (tick (presenting (encodeInstr (.encode p dp v))) s) = t := by
  cases h
  have hd : decode (encodeInstr (.encode p dp v)) = .ok (.encode p dp v) := decodeOfEncode _
  have hst : firstState (encodeInstr (.encode p dp v)) = .eCalc := by simp only [firstState, hd]
  obtain ⟨-, hp, hdp, hv⟩ := fields_encode p dp v
  rw [tick_calculating hinv hrest (by simp only [acceptEdge, hd]) (by simp [hst])]
  simp [busyEdge, hst, hp, hdp, hv]

/-- An accepted word makes the machine busy and takes `done` low (10_state.md R28, R29). -/
theorem tick_presenting_busy {s : State} (w : CmdWord) (hidle : s.seq.st = .idle) :
    (tick (presenting w) s).busy = true ∧ (tick (presenting w) s).done = false := by
  refine ⟨?_, tick_done_of_idle _ hidle⟩
  rw [tick_accept w hidle]
  exact acceptEdge_busy w s

/-- Settles O50. Each of these words latches at its edge, and the next edge runs the body of its command. -/
theorem sequencerRunsShortCommands : Obligations.SequencerRunsShortCommands := by
  intro s t w hinv hrest hw hrun
  obtain ⟨hbusy, hdone⟩ := tick_presenting_busy w hrest.1
  refine ⟨hbusy, hdone, ?_⟩
  obtain hd | ⟨mv, hd⟩ | ⟨p, dp, v, hd⟩ | ⟨e, hd⟩ := hw
  · obtain rfl := encodeOfDecode _ _ hd
    exact ticks_nop hinv hrest hrun
  · obtain rfl := encodeOfDecode _ _ hd
    exact ticks_convert hinv hrest ((runWord_encodeInstr _ s).symm.trans hrun)
  · obtain rfl := encodeOfDecode _ _ hd
    exact ticks_encode hinv hrest ((runWord_encodeInstr _ s).symm.trans hrun)
  · exact ticks_illegal hd hinv hrest ((runWord_error hd s).symm.trans hrun)

end Sys2Proof.Machine
end

section
/-! SUPPORT. The serial port of the reference sequencer against `push_bit`, `push_byte`, `latch` and a whole frame: bit
cells of `2 * PULSE_TICKS` ticks, each of which leaves what the command level says (70_reset_and_hazards.md R128). -/

namespace Sys2Proof.Machine

/-! ### The last tick of a bit cell -/

/-- A machine in the last tick of the high phase of a bit cell. -/
def cellEnd (s : State) : State := enterTimed .bHigh 1 s

/-- A machine that enters a bit cell with the top bit of `SHR`. -/
def enterTopBit (s : State) : State := enterLow s.seq.shr.msb s

theorem startByte_eq (x : Byte) (s : State) :
    startByte x s = enterTopBit { s with seq.shr := x, seq.bitix := 8 } := rfl

theorem pushTop_cellEnd (s : State) : pushTop (cellEnd s) = cellEnd (pushTop s) := by
  rw [pushTop_eq, pushTop_eq]
  rfl

theorem pushLoop_cellEnd (n : Nat) (s : State) : pushLoop n (cellEnd s) = cellEnd (pushLoop n s) := by
  induction n generalizing s with
  | zero => rfl
  | succ n ih => rw [pushLoop, pushLoop, pushTop_cellEnd, ih]

theorem pushByte_cellEnd (x : Byte) (s : State) : pushByte x (cellEnd s) = cellEnd (pushByte x s) :=
  pushLoop_cellEnd 8 { s with seq.shr := x, seq.bitix := 8 }

theorem finishTimed_cellEnd (s : State) : finishTimed (cellEnd s) = finishTimed s := rfl

/-- At rest there is nothing for the end of a serial operation to clear (10_state.md R142). -/
theorem Rested.finishTimed_eq {s : State} (h : Rested s) : finishTimed s = finish s := by
  obtain ⟨cfg, data, ⟨st, cmdr, shr, bitix, byteix, tmr, donef⟩, status, pins, chain, adc, host, draws, log⟩ := s
  obtain ⟨-, -, hbit, hbyte, htmr⟩ := h
  cases hbit
  cases hbyte
  cases htmr
  rfl

/-! ### Bit cells -/

/-- With no bit of `SHR` in progress the end of a bit cell ends the operation (44_shift_register_bus.md R79). -/
theorem endCell_serial {s : State} (h : s.seq.bitix = 0) : endCell s = endSerial (countBit (dropClk (holdPulse s))) :=
  if_pos h

/-- The end of the last bit cell of a byte (44_shift_register_bus.md R80). -/
theorem endCell_last {s : State} (h : s.seq.bitix = 1) :
    endCell s = endByte { countBit (dropClk (holdPulse s)) with
      seq.shr := s.seq.shr.shiftConcat false, seq.bitix := s.seq.bitix - 1 } := by
  have hmore : s.seq.bitix ≠ 0 := by rw [h]; decide
  have hlast : s.seq.bitix - 1 = 0 := by rw [h]; rfl
  exact (if_neg hmore).trans (if_pos hlast)

/-- A bit cell up to its falling edge is `push_bit` (44_shift_register_bus.md R78). -/
theorem cell_eq_pushBit (b : Bool) (s : State) :
    countBit (dropClk (holdPulse (withTimer 1 (endLow (enterLow b s))))) = cellEnd (pushBit b s) := rfl

section
variable {s : State} (htrigger : s.pins.adcStart = false) (hconv : s.adc.conv = none)
include htrigger hconv

/-- The bit cell of PUSHBIT, which does not use `SHR` (44_shift_register_bus.md R79). -/
theorem ticks_pushBit {b : Bool} (hbit : s.seq.bitix = 0) :
    ticks (2 * s.cfg.val.pulseTicks) (enterLow b s) = finishTimed (driveData false (pushBit b s)) := by
  have hcell := ticks_cell (s := enterLow b s) rfl htrigger hconv rfl
  have hend := endCell_serial (s := withTimer 1 (endLow (enterLow b s))) hbit
  rw [enterLow_cfg] at hcell
  rw [hcell, hend, cell_eq_pushBit]
  rfl

/-- The last bit cell of a byte. -/
theorem ticks_pushTop_last (hbit : s.seq.bitix = 1) :
    ticks (2 * s.cfg.val.pulseTicks) (enterTopBit s) = endByte (cellEnd (pushTop s)) := by
  have hcell := ticks_cell (s := enterTopBit s) rfl htrigger hconv rfl
  have hend := endCell_last (s := withTimer 1 (endLow (enterTopBit s))) hbit
  rw [show (enterTopBit s).cfg = s.cfg from rfl] at hcell
  rw [hcell, hend]
  rfl

/-- A bit cell with more bits to come: the next one follows. -/
theorem ticks_pushTop_more (hbit : 2 ≤ s.seq.bitix.toNat) :
    ticks (2 * s.cfg.val.pulseTicks) (enterTopBit s) = enterTopBit (cellEnd (pushTop s)) := by
  rw [pushTop_eq]
  exact ticks_cell_more htrigger hconv hbit

end

/-- As many bit cells as `BITIX` counts are the loop of `push_byte` (44_shift_register_bus.md R80). -/
theorem ticks_pushLoop {n : Nat} {s : State} (htrigger : s.pins.adcStart = false) (hconv : s.adc.conv = none)
    (hbit : s.seq.bitix.toNat = n + 1) :
    ticks ((n + 1) * (2 * s.cfg.val.pulseTicks)) (enterTopBit s) = endByte (cellEnd (pushLoop (n + 1) s)) := by
  induction n generalizing s with
  | zero =>
    rw [Nat.zero_add, Nat.one_mul]
    exact ticks_pushTop_last htrigger hconv (BitVec.eq_of_toNat_eq hbit)
  | succ n ih =>
    have hpins : (cellEnd (pushTop s)).pins.adcStart = false := by rw [pushTop_eq]; exact htrigger
    have hadc : (cellEnd (pushTop s)).adc.conv = none := by rw [pushTop_eq]; exact hconv
    have hcfg : (cellEnd (pushTop s)).cfg = s.cfg := by rw [pushTop_eq]; rfl
    have hleft : (cellEnd (pushTop s)).seq.bitix.toNat = n + 1 := by
      rw [pushTop_eq]
      show (s.seq.bitix - 1).toNat = n + 1
      bv_omega
    have hrest := ih hpins hadc hleft
    rw [hcfg, pushLoop_cellEnd] at hrest
    rw [Nat.succ_mul, Nat.add_comm, ticks_add, ticks_pushTop_more htrigger hconv (by omega), hrest]
    rfl

/-- A whole byte of the reference sequencer: `16 * PULSE_TICKS` ticks (70_reset_and_hazards.md R128). -/
theorem ticks_pushByte {s : State} (htrigger : s.pins.adcStart = false) (hconv : s.adc.conv = none) (x : Byte) :
    ticks (16 * s.cfg.val.pulseTicks) (startByte x s) = endByte (cellEnd (pushByte x s)) := by
  have hloop := ticks_pushLoop (n := 7) (s := { s with seq.shr := x, seq.bitix := 8 }) htrigger hconv rfl
  rw [← Nat.mul_assoc] at hloop
  rw [startByte_eq]
  exact hloop

/-- A whole latch pulse of the reference sequencer (44_shift_register_bus.md R82). -/
theorem ticks_latchPulse {s : State} (htrigger : s.pins.adcStart = false) (hconv : s.adc.conv = none) :
    ticks (2 * s.cfg.val.pulseTicks) (enterLatch s) = finishTimed (latchPulse s) :=
  ticks_latch (s := enterLatch s) rfl htrigger hconv rfl

/-! ### The serial commands -/

theorem ticks_exec_pushbit {b : Bool} {s t : State} (hinv : Inv s) (hrest : AtRest s)
    (h : exec (.pushbit b) s = .next t) :
    ticks (2 * s.cfg.val.pulseTicks) (tick (presenting (encodeInstr (.pushbit b))) s) = t := by
  cases h
  have hd : decode (encodeInstr (.pushbit b)) = .ok (.pushbit b) := decodeOfEncode _
  have hacc : Rested (accept (encodeInstr (.pushbit b)) s) := rested_accept _ (hrest.rested hinv)
  have hedge : acceptEdge (encodeInstr (.pushbit b)) s = enterLow b (accept (encodeInstr (.pushbit b)) s) := by
    simp only [acceptEdge, hd]
  have hcell := ticks_pushBit (b := b) (congrArg Pins.adcStart hacc.pins) hrest.2 hacc.bitix
  rw [(rested_pushBit b hacc).finishTimed_eq] at hcell
  rw [hrest.tick_presenting hinv, hedge]
  exact hcell

/-- Outside a frame the end of a byte is the end of its operation. -/
theorem endByte_serial {s : State} (h : inFrame s = false) : endByte s = finishTimed (driveData false s) := by
  simp [endByte, h, endSerial]

theorem ticks_exec_pushbyte {x : Byte} {s t : State} (hinv : Inv s) (hrest : AtRest s)
    (h : exec (.pushbyte x) s = .next t) :
    ticks (16 * s.cfg.val.pulseTicks) (tick (presenting (encodeInstr (.pushbyte x))) s) = t := by
  cases h
  have hd : decode (encodeInstr (.pushbyte x)) = .ok (.pushbyte x) := decodeOfEncode _
  have hacc : Rested (accept (encodeInstr (.pushbyte x)) s) := rested_accept _ (hrest.rested hinv)
  have hedge : acceptEdge (encodeInstr (.pushbyte x)) s = startByte x (accept (encodeInstr (.pushbyte x)) s) := by
    simp only [acceptEdge, hd]
  have hframe : inFrame (cellEnd (pushByte x (accept (encodeInstr (.pushbyte x)) s))) = false := by
    have hcmdr : (cellEnd (pushByte x (accept (encodeInstr (.pushbyte x)) s))).seq.cmdr =
        encodeInstr (.pushbyte x) := by rw [pushByte_eq]; rfl
    have hop : opcodeOf (encodeInstr (.pushbyte x)) = 5 := Laws.Opcode.pushbyte x
    rw [inFrame, inCycle_eq_false hcmdr nofun, hcmdr, hop]
    rfl
  have hbyte := ticks_pushByte (congrArg Pins.adcStart hacc.pins) hrest.2 x
  rw [endByte_serial hframe] at hbyte
  rw [hrest.tick_presenting hinv, hedge]
  exact hbyte.trans (rested_pushByte x hacc).finishTimed_eq

theorem ticks_exec_latch {s t : State} (hinv : Inv s) (hrest : AtRest s) (h : exec .latch s = .next t) :
    ticks (2 * s.cfg.val.pulseTicks) (tick (presenting (encodeInstr .latch)) s) = t := by
  cases h
  have hcheck : Rested (frameCheck (accept (encodeInstr .latch) s)) :=
    rested_raiseErrorIf _ .frame (rested_accept _ (hrest.rested hinv))
  have hconv : (frameCheck (accept (encodeInstr .latch) s)).adc.conv = none := by
    rw [frameCheck, raiseErrorIf_adc]
    exact hrest.2
  have hpulse := ticks_latchPulse (congrArg Pins.adcStart hcheck.pins) hconv
  rw [frameCheck_cfg, (rested_latchPulse hcheck).finishTimed_eq] at hpulse
  rw [hrest.tick_presenting hinv]
  exact hpulse

/-- Settles O51. Each command is its bit cells, or its latch pulse, from a machine at rest. -/
theorem sequencerRunsSerialCommands : Obligations.SequencerRunsSerialCommands := by
  intro s t w hinv hrest hrun
  refine ⟨?pushbit, ?pushbyte, fun hd => ?latch⟩
  case pushbit =>
    rintro ⟨b, hd⟩
    obtain rfl := encodeOfDecode _ _ hd
    exact ticks_exec_pushbit hinv hrest ((runWord_encodeInstr _ s).symm.trans hrun)
  case pushbyte =>
    rintro ⟨x, hd⟩
    obtain rfl := encodeOfDecode _ _ hd
    exact ticks_exec_pushbyte hinv hrest ((runWord_encodeInstr _ s).symm.trans hrun)
  case latch =>
    obtain rfl := encodeOfDecode _ _ hd
    exact ticks_exec_latch hinv hrest ((runWord_encodeInstr _ s).symm.trans hrun)

/-! ### A whole frame -/

/-- A machine that enters the first bit cell of the `i`-th byte of its frame. -/
def startFrameByte (i : BitVec 2) (s : State) : State := startByte (frameByte i s) (selectByte i s)

/-- A machine in the last tick of the last bit cell of the `i`-th byte of its frame. -/
def frameByteEnd (i : BitVec 2) (s : State) : State := cellEnd (pushFrameByte i s)

/-- The command in progress is SHOW or CYCLE, with no trigger and no conversion in progress. -/
structure SendingFrame (s : State) : Prop where
  trigger : s.pins.adcStart = false
  conv : s.adc.conv = none
  frame : inFrame s = true

/-- A byte of a frame as `push_byte` of that byte, selected by `BYTEIX`. -/
theorem frameByteEnd_eq (i : BitVec 2) (s : State) :
    frameByteEnd i s = cellEnd (pushByte (frameByte i s) (selectByte i s)) := rfl

@[simp] theorem frameByteEnd_cfg (i : BitVec 2) (s : State) : (frameByteEnd i s).cfg = s.cfg := by
  rw [frameByteEnd_eq, pushByte_eq]
  rfl

@[simp] theorem frameByteEnd_byteix (i : BitVec 2) (s : State) : (frameByteEnd i s).seq.byteix = i := by
  rw [frameByteEnd_eq, pushByte_eq]
  rfl

/-- A byte does not depend on the bit cell that came before it. -/
theorem frameByteEnd_cellEnd (i : BitVec 2) (s : State) : frameByteEnd i (cellEnd s) = frameByteEnd i s := by
  have hbyte : pushFrameByte i (cellEnd s) = cellEnd (pushFrameByte i s) :=
    pushByte_cellEnd (frameByte i s) (selectByte i s)
  rw [frameByteEnd, hbyte]
  rfl

theorem sendingFrame_frameByteEnd (i : BitVec 2) {s : State} (h : SendingFrame s) :
    SendingFrame (frameByteEnd i s) := by
  rw [frameByteEnd_eq, pushByte_eq]
  exact ⟨h.trigger, h.conv, h.frame⟩

/-- In a frame the end of a byte that is not the last one starts the next one (10_state.md R22). -/
theorem endByte_more {s : State} (h : inFrame s = true) (hlt : s.seq.byteix.toNat < 2) :
    endByte s = startFrameByte (s.seq.byteix + 1) s := by
  rw [endByte, if_pos h, if_pos hlt]
  rfl

/-- In a frame the last byte is followed by the latch pulse (45_display_controller.md R89, R90). -/
theorem endByte_last {s : State} (h : inFrame s = true) (hix : s.seq.byteix = 2) :
    endByte s = enterLatch (driveData false (selectByte 0 s)) := by
  rw [endByte, if_pos h, hix]
  rfl

/-- One byte of a frame (70_reset_and_hazards.md R128). -/
theorem ticks_frameByte {s : State} (h : SendingFrame s) (i : BitVec 2) :
    ticks (16 * s.cfg.val.pulseTicks) (startFrameByte i s) = endByte (frameByteEnd i s) :=
  ticks_pushByte (s := selectByte i s) h.trigger h.conv (frameByte i s)

/-- One byte of a frame that is not the last one. -/
theorem ticks_frameByte_more {s : State} (h : SendingFrame s) {i : BitVec 2} (hi : i.toNat < 2) :
    ticks (16 * s.cfg.val.pulseTicks) (startFrameByte i s) = startFrameByte (i + 1) (frameByteEnd i s) := by
  rw [ticks_frameByte h, endByte_more (sendingFrame_frameByteEnd i h).frame (by rwa [frameByteEnd_byteix]),
    frameByteEnd_byteix]

/-- The latch pulse after the last byte of a frame (45_display_controller.md R90). -/
theorem ticks_endByte_last {s : State} (h : SendingFrame s) (hix : s.seq.byteix = 2) :
    ticks (2 * s.cfg.val.pulseTicks) (endByte s) =
      finishTimed (latchPulse (driveData false (selectByte 0 s))) := by
  rw [endByte_last h.frame hix]
  exact ticks_latchPulse (s := driveData false (selectByte 0 s)) h.trigger h.conv

/-- The last byte of a frame and the latch pulse after it. -/
theorem ticks_frameByte_last {s : State} (h : SendingFrame s) :
    ticks (16 * s.cfg.val.pulseTicks + 2 * s.cfg.val.pulseTicks) (startFrameByte 2 s) =
      finishTimed (latchPulse (driveData false (selectByte 0 (frameByteEnd 2 s)))) := by
  have hpulse := ticks_endByte_last (sendingFrame_frameByteEnd 2 h) (frameByteEnd_byteix 2 s)
  rw [frameByteEnd_cfg] at hpulse
  rw [ticks_add, ticks_frameByte h, hpulse]

theorem finishTimed_latchPulse_cellEnd (s : State) :
    finishTimed (latchPulse (driveData false (selectByte 0 (cellEnd s)))) =
      finishTimed (latchPulse (driveData false (selectByte 0 s))) := by
  rw [latchPulse_eq, latchPulse_eq]
  rfl

/-- The three bytes one after another, and the latch pulse, are the frame of the command level. -/
theorem finishTimed_frameBytes (s : State) :
    finishTimed (latchPulse (driveData false (selectByte 0
      (frameByteEnd 2 (frameByteEnd 1 (frameByteEnd 0 s)))))) = finishTimed (sendFrame s) := by
  have hbytes : frameByteEnd 2 (frameByteEnd 1 (frameByteEnd 0 s)) =
      cellEnd (pushFrameByte 2 (pushFrameByte 1 (pushFrameByte 0 s))) :=
    (congrArg (frameByteEnd 2) (frameByteEnd_cellEnd 1 (pushFrameByte 0 s))).trans
      (frameByteEnd_cellEnd 2 (pushFrameByte 1 (pushFrameByte 0 s)))
  rw [hbytes, finishTimed_latchPulse_cellEnd]
  rfl

/-- A whole frame of the reference sequencer: 24 bit cells and a latch pulse (70_reset_and_hazards.md R128). -/
theorem ticks_frame {s : State} (h : SendingFrame s) :
    ticks (frameTicks s.cfg.val.pulseTicks) (startFrameByte 0 s) = finishTimed (sendFrame s) := by
  have h1 := sendingFrame_frameByteEnd 0 h
  have h2 := sendingFrame_frameByteEnd 1 h1
  have first := ticks_frameByte_more h (i := 0) (by decide)
  have second := ticks_frameByte_more h1 (i := 1) (by decide)
  have third := ticks_frameByte_last h2
  rw [frameByteEnd_cfg] at second
  rw [frameByteEnd_cfg, frameByteEnd_cfg] at third
  have hsum : frameTicks s.cfg.val.pulseTicks = 16 * s.cfg.val.pulseTicks + (16 * s.cfg.val.pulseTicks +
      (16 * s.cfg.val.pulseTicks + 2 * s.cfg.val.pulseTicks)) := by
    rw [frameTicks]
    omega
  calc ticks (frameTicks s.cfg.val.pulseTicks) (startFrameByte 0 s)
      = ticks (16 * s.cfg.val.pulseTicks + 2 * s.cfg.val.pulseTicks) (ticks (16 * s.cfg.val.pulseTicks)
          (startFrameByte 1 (frameByteEnd 0 s))) := by
        rw [hsum, ticks_add, ticks_add, first]
        rfl
    _ = ticks (16 * s.cfg.val.pulseTicks + 2 * s.cfg.val.pulseTicks)
          (startFrameByte 2 (frameByteEnd 1 (frameByteEnd 0 s))) := by
        rw [second]
        rfl
    _ = finishTimed (sendFrame s) := by rw [third, finishTimed_frameBytes]

end Sys2Proof.Machine
end

section
/-! SUPPORT. SHOW in the reference sequencer: the encoding tick, and then the frame or nothing
(70_reset_and_hazards.md R128). -/

namespace Sys2Proof.Machine

theorem ticks_one_add (n : Nat) (s : State) : ticks (1 + n) s = ticks n (tick quiet s) := ticks_add 1 n s

/-- After an encoding step that is not dark the frame begins with its first byte (45_display_controller.md R88). -/
theorem startFrame_shown {s : State} (hs : sentinel s = false) :
    startFrame s = startFrameByte 0 (clearCount (setSkip false s)) := by
  rw [startFrame, hs]
  rfl

/-- After a dark encoding step the operation ends (45_display_controller.md R88). -/
theorem startFrame_suppressed {s : State} (hs : sentinel s = true) : startFrame s = finish (setSkip true s) :=
  if_pos hs

section
variable {t o h : Digit} {s : State}

/-- The edge that ends `D_ENC` ends a suppressed update (45_display_controller.md R88; decision D18). -/
theorem startFrame_encodeFrame_suppressed (hskip : (showBody t o h s).skip = true) :
    startFrame (encodeFrame t o h s) = finish (showBody t o h s) := by
  rw [skip_showBody] at hskip
  rw [startFrame_suppressed hskip, showBody_suppressed hskip]

/-- From the edge that ends `D_ENC` an update that is not suppressed takes the ticks of its frame. -/
theorem ticks_startFrame_encodeFrame (hrested : Rested s) (hconv : s.adc.conv = none) (hframe : inFrame s = true)
    (hskip : (showBody t o h s).skip = false) :
    ticks (frameTicks s.cfg.val.pulseTicks) (startFrame (encodeFrame t o h s)) = finish (showBody t o h s) := by
  rw [skip_showBody] at hskip
  have hready : Rested (clearCount (setSkip false (encodeFrame t o h s))) :=
    rested_shown (rested_encodeFrame t o h hrested)
  have hsending : SendingFrame (clearCount (setSkip false (encodeFrame t o h s))) := by
    refine ⟨congrArg Pins.adcStart hready.pins, ?_, ?_⟩
    · rw [clearCount_adc, setSkip_adc, encodeFrame_adc, hconv]
    · rw [← hframe, inFrame, inFrame, inCycle, inCycle, clearCount_seq, setSkip_seq, encodeFrame_seq]
  have hticks := ticks_frame hsending
  rw [clearCount_cfg, setSkip_cfg, encodeFrame_cfg, (rested_sendFrame hready).finishTimed_eq] at hticks
  rw [startFrame_shown hskip, hticks, showBody_shown hskip]

/-- In SHOW the digits of the encoding step are those of the word (45_display_controller.md R86). -/
theorem endEncode_show (hcmdr : s.seq.cmdr = encodeInstr (.showDigits t o h)) :
    endEncode s = startFrame (encodeFrame t o h s) := by
  obtain ⟨ht, ho, hh⟩ := fields_showDigits t o h
  rw [endEncode, inCycle_eq_false hcmdr nofun, hcmdr, ht, ho, hh]
  rfl

/-- The first body tick of SHOW is its encoding step. -/
theorem tick_show (hinv : Inv s) (hrest : AtRest s) :
    tick quiet (tick (presenting (encodeInstr (.showDigits t o h))) s) =
      startFrame (encodeFrame t o h (accept (encodeInstr (.showDigits t o h)) s)) := by
  have hd : decode (encodeInstr (.showDigits t o h)) = .ok (.showDigits t o h) := decodeOfEncode _
  have hst : firstState (encodeInstr (.showDigits t o h)) = .dEnc := by simp only [firstState, hd]
  rw [tick_calculating hinv hrest (by simp only [acceptEdge, hd]) (by simp [hst]), busyEdge, accept_seq]
  simp only [hst]
  exact endEncode_show rfl

end

/-- Settles O52. The encoding tick and the frame after it are those of the display update. -/
theorem sequencerRunsShow : Obligations.SequencerRunsShow := by
  intro s s' t o h hinv hrest hexec
  obtain rfl := Host.Outcome.next.inj ((exec_show t o h s).symm.trans hexec)
  have hframe : inFrame (accept (encodeInstr (.showDigits t o h)) s) = true := by
    have hop : opcodeOf (encodeInstr (.showDigits t o h)) = 7 := Laws.Opcode.showDigits t o h
    rw [inFrame, accept_seq, hop]
    rfl
  rw [skip_finish]
  refine ⟨fun hskip => ?shown, fun hskip => ?suppressed⟩
  case shown =>
    have hticks := ticks_startFrame_encodeFrame (rested_accept _ (hrest.rested hinv)) hrest.2 hframe hskip
    rw [accept_cfg] at hticks
    rw [ticks_one_add, tick_show hinv hrest, hticks]
  case suppressed => rw [tick_show hinv hrest, startFrame_encodeFrame_suppressed hskip]

end Sys2Proof.Machine
end

section
/-! SUPPORT. SAMPLE and CYCLE in the reference sequencer: the averaging loop conversion by conversion, and the states
that calculate after it (70_reset_and_hazards.md R128). -/

namespace Sys2Proof.Machine

/-! ### The averaging loop, where the ADC answers -/

/-- The head of the averaging loop: the next trigger, or the average when no conversion is missing
(42_analog_sampler.md R64). -/
def nextConversion (s : State) : State :=
  if s.cfg.val.nSamples ≤ s.data.cnt.toNat then enterTimed .sCalc 0 s else enterTrigger s

theorem endSettle_eq (v : State) : endSettle (enterTimed .sSettle 1 v) = nextConversion (settle v) := rfl

/-- The ticks of the conversions: a trigger tick, the waiting ticks and the settle wait for each. -/
def conversionTicks (S : Nat) (cs : List Conversion) : Nat := (cs.map fun c => 1 + (c.delay + 1) + S).sum

theorem conversionTicks_cons (S : Nat) (c : Conversion) (cs : List Conversion) :
    conversionTicks S (c :: cs) = 1 + (c.delay + 1) + S + conversionTicks S cs := List.sum_cons

theorem sampleTicks_eq (S : Nat) (cs : List Conversion) : sampleTicks S cs = conversionTicks S cs + 1 := rfl

/-- Where the averaging loop completes, the reference sequencer enters `S_CALC` with the state it leaves. -/
theorem ticks_sampleLoop_completed {n : Nat} {u v : State} {cs : List Conversion}
    (hcnt : u.data.cnt.toNat + n = u.cfg.val.nSamples) (hlive : nextConversions n u.adc = some cs)
    (hloop : sampleLoop n u = .completed v) :
    ticks (conversionTicks u.cfg.val.settleTicks cs) (nextConversion u) = enterTimed .sCalc 0 v := by
  induction n generalizing u cs with
  | zero =>
    obtain rfl : [] = cs := Option.some.inj hlive
    obtain rfl : u = v := Phase.completed.inj hloop
    exact if_pos hcnt.ge
  | succ n ih =>
    rw [nextConversions] at hlive
    split at hlive
    next c a hnext =>
      obtain ⟨ds, hds, rfl⟩ := Option.map_eq_some_iff.mp hlive
      rw [sampleLoop_answered hnext] at hloop
      have hmissing : u.data.cnt.toNat < u.cfg.val.nSamples := by omega
      have hfirst : nextConversion u = enterTrigger u := if_neg (Nat.not_le_of_lt hmissing)
      have hleft : (accumulate c.result (adcConvert u).2).data.cnt.toNat + n = u.cfg.val.nSamples := by
        rw [accumulate_cnt c.result (s := (adcConvert u).2) hmissing, ← hcnt, Nat.add_right_comm]
        rfl
      have hadc : (settle (accumulate c.result (adcConvert u).2)).adc = adcAnswered (some c) a := by
        rw [adcConvert_some hnext]
        rfl
      have hrest := ih (u := settle (accumulate c.result (adcConvert u).2)) hleft (by rw [hadc, hds]) hloop
      rw [settle_cfg, accumulate_cfg, adcConvert_cfg] at hrest
      rw [hfirst, conversionTicks_cons, ticks_add, ticks_conversion hnext, endSettle_eq, hrest]
    next => cases hlive

/-- An ADC at rest is at rest after its answers too. -/
theorem adcAfter_conv (n : Nat) {a : Adc} (h : a.conv = none) : (adcAfter n a).conv = none := by
  induction n generalizing a with
  | zero => exact h
  | succ n ih =>
    refine ih ?_
    cases (nextAnswer a).1 with
    | none => rfl
    | some c => rfl

/-- The sample phase with an ADC that answers: its loop, and the average of what the loop leaves. -/
theorem sampleVoltage_completed {s : State} {cs : List Conversion} (h : AdcLive s cs) (hconv : s.adc.conv = none) :
    ∃ v, sampleLoop s.cfg.val.nSamples (clearSum s) = .completed v ∧ sampleVoltage s = .completed (average v) ∧
      v.cfg = s.cfg ∧ v.seq = s.seq ∧ v.adc.conv = none := by
  have hloop := sampleLoop_live (s := clearSum s) (n := s.cfg.val.nSamples) h
  exact ⟨_, hloop, by rw [sampleVoltage, hloop], rfl, rfl, adcAfter_conv _ hconv⟩

/-! ### The sample phase -/

/-- The reference sequencer in `S_CALC`, the conversions done and the average to come: `v` is what the averaging loop
of the accepted command leaves. -/
structure AtAverage (i : Instr) (s v : State) : Prop where
  cfg : v.cfg = s.cfg
  phase : sampleVoltage (accept (encodeInstr i) s) = .completed (average v)
  cmdr : v.seq.cmdr = encodeInstr i
  tmr : v.seq.tmr = 0
  conv : v.adc.conv = none
  inv : Inv (enterTimed .sCalc 0 v)

/-- SAMPLE and CYCLE reach the average after their conversions (70_reset_and_hazards.md R128). -/
theorem ticks_conversions {i : Instr} {s : State} {cs : List Conversion} (hi : i = .sample ∨ i = .cycle)
    (hinv : Inv s) (hrest : AtRest s) (hlive : AdcLive s cs) :
    ∃ v, AtAverage i s v ∧
      ticks (conversionTicks s.cfg.val.settleTicks cs) (tick (presenting (encodeInstr i)) s) =
        enterTimed .sCalc 0 v := by
  obtain ⟨v, hloop, hphase, hcfg, hseq, hconv⟩ := sampleVoltage_completed (s := accept (encodeInstr i) s) hlive hrest.2
  have hfirst : nextConversion (clearSum (accept (encodeInstr i) s)) =
      enterTrigger (clearSum (accept (encodeInstr i) s)) :=
    if_neg (Nat.not_le_of_lt (nSamples_pos s.cfg))
  have hticks : ticks (conversionTicks s.cfg.val.settleTicks cs) (tick (presenting (encodeInstr i)) s) =
      enterTimed .sCalc 0 v := by
    rw [tick_accept_sampling hi hinv hrest, ← hfirst]
    exact ticks_sampleLoop_completed (u := clearSum (accept (encodeInstr i) s)) (Nat.zero_add _) hlive hloop
  have htmr : v.seq.tmr = 0 := by
    rw [hseq]
    exact hinv.timer_zero (by rw [hrest.1]; rfl)
  exact ⟨v, ⟨hcfg, hphase, by rw [hseq]; rfl, htmr, hconv, hticks ▸ inv_ticks _ (inv_tick _ hinv)⟩, hticks⟩

/-- In which state an operation ends, and with which timer, makes no difference to its end. -/
theorem ended_enterTimed (w : CmdWord) (st : SeqState) {s : State} {n : Nat} (h : s.seq.tmr = n) :
    ended w (enterTimed st n s) = ended w s := by
  subst h
  rfl

/-- The tick of `S_CALC`. -/
theorem AtAverage.tick_average {i : Instr} {s v : State} (h : AtAverage i s v) :
    tick quiet (enterTimed .sCalc 0 v) = endAverage (enterTimed .sCalc 0 v) :=
  h.inv.tick_busyEdge (by simp) (by simp) h.conv

/-- Settles O53. After the conversions one tick calculates the average and ends the operation. -/
theorem sequencerRunsSample : Obligations.SequencerRunsSample := by
  intro s t cs hinv hrest hlive hexec
  obtain ⟨v, h, hticks⟩ := ticks_conversions (.inl rfl) hinv hrest hlive
  have hphase : exec .sample s = .next (finish (average v)) := by
    show Host.Outcome.next ((sampleVoltage (accept (encodeInstr .sample) s)).conclude id) = _
    rw [h.phase]
    rfl
  obtain rfl := Host.Outcome.next.inj (hphase.symm.trans hexec)
  have hcycle : inCycle (average (enterTimed .sCalc 0 v)) = false := inCycle_eq_false (i := .sample) h.cmdr nofun
  have hend : endAverage (enterTimed .sCalc 0 v) = finish (average (enterTimed .sCalc 0 v)) := by
    simp only [endAverage, hcycle, Bool.false_eq_true, if_false]
  calc ticks (sampleTicks s.cfg.val.settleTicks cs) (tick (presenting (encodeInstr .sample)) s)
      = tick quiet (enterTimed .sCalc 0 v) := by
        rw [sampleTicks_eq, ticks_add, hticks]
        rfl
    _ = ended (encodeInstr .sample) (average (enterTimed .sCalc 0 v)) := by
        rw [h.tick_average, hend, finish_eq_ended]
        exact h.cmdr
    _ = ended (encodeInstr .sample) (average v) :=
        congrArg average (ended_enterTimed (encodeInstr .sample) .sCalc h.tmr)
    _ = finish (average v) := (finish_eq_ended (s := average v) h.cmdr).symm

/-! ### The last two phases of CYCLE -/

/-- The sequencer in `C_CALC` with the average of CYCLE. -/
def atConvert (v : State) : State := { average (enterTimed .sCalc 0 v) with seq.st := .cCalc }

/-- The sequencer in `D_ENC` with the digits of CYCLE. -/
def atEncode (x : State) : State := { toDigits x.data.volt x with seq.st := .dEnc }

section
variable {s v : State} (h : AtAverage .cycle s v)
include h

/-- The tick of `S_CALC` and that of `C_CALC`. -/
theorem AtAverage.ticks_atEncode :
    ticks 2 (enterTimed .sCalc 0 v) = atEncode (atConvert v) ∧ Inv (atEncode (atConvert v)) := by
  have haverage : tick quiet (enterTimed .sCalc 0 v) = atConvert v := by
    rw [h.tick_average]
    exact if_pos (inCycle_eq_true h.cmdr)
  have hinv : Inv (atConvert v) := haverage ▸ inv_tick quiet h.inv
  have hconvert : tick quiet (atConvert v) = atEncode (atConvert v) := by
    rw [hinv.tick_busyEdge (by simp [atConvert]) (by simp [atConvert]) h.conv]
    exact if_pos (inCycle_eq_true h.cmdr)
  exact ⟨by rw [ticks, ticks, ticks, haverage, hconvert], hconvert ▸ inv_tick quiet hinv⟩

/-- What the calculations do not touch. -/
theorem AtAverage.atEncode_kept :
    (atEncode (atConvert v)).cfg = s.cfg ∧ (atEncode (atConvert v)).seq.cmdr = encodeInstr .cycle ∧
      (atEncode (atConvert v)).adc.conv = none := by
  refine ⟨(toDigits_cfg _ _).trans h.cfg, ?_, ?_⟩
  · exact (congrArg SeqRegs.cmdr (toDigits_seq _ (atConvert v))).trans h.cmdr
  · exact (congrArg Adc.conv (toDigits_adc _ (atConvert v))).trans h.conv

/-- The display update that the sequencer makes from the digit registers is the one that ends CYCLE. -/
theorem AtAverage.finish_showBody :
    finish (showBody (atEncode (atConvert v)).data.tens (atEncode (atConvert v)).data.ones
      (atEncode (atConvert v)).data.tenths (atEncode (atConvert v))) = finish (convertAndShow (average v)) := by
  obtain ⟨-, hcmdr, -⟩ := h.atEncode_kept
  obtain ⟨hkept, -⟩ := showBody_outside (atEncode (atConvert v)).data.tens (atEncode (atConvert v)).data.ones
    (atEncode (atConvert v)).data.tenths (atEncode (atConvert v))
  have hconvert : ended (encodeInstr .cycle) (atConvert v) = ended (encodeInstr .cycle) (average v) :=
    congrArg average (ended_enterTimed (encodeInstr .cycle) .sCalc h.tmr)
  have hencode : ended (encodeInstr .cycle) (atEncode (atConvert v)) =
      ended (encodeInstr .cycle) (toDigits (atConvert v).data.volt (atConvert v)) := rfl
  have hcmdr' : (convertAndShow (average v)).seq.cmdr = encodeInstr .cycle := (convertAndShow_cmdr _).trans h.cmdr
  rw [finish_eq_ended (hkept.trans hcmdr), finish_eq_ended hcmdr', ended_convertAndShow, ← hconvert,
    ← ended_convertAndShow, convertAndShow_eq, ended_showBody, ended_showBody, hencode]
  rfl

/-- In CYCLE the digits of the encoding step are those of the registers (46_cycle_and_nop.md R93). -/
theorem AtAverage.tick_atEncode :
    tick quiet (atEncode (atConvert v)) = startFrame (encodeFrame (atEncode (atConvert v)).data.tens
      (atEncode (atConvert v)).data.ones (atEncode (atConvert v)).data.tenths (atEncode (atConvert v))) := by
  obtain ⟨-, hcmdr, hconv⟩ := h.atEncode_kept
  obtain ⟨-, hinv⟩ := h.ticks_atEncode
  rw [hinv.tick_busyEdge (by simp [atEncode]) (by simp [atEncode]) hconv]
  exact if_pos (inCycle_eq_true hcmdr)

end

/-- Settles O54. After the conversions one tick each calculates the average and the digits; the display update that
follows is that of SHOW. -/
theorem sequencerRunsCycle : Obligations.SequencerRunsCycle := by
  intro s t cs hinv hrest hlive hexec
  obtain ⟨v, h, hticks⟩ := ticks_conversions (.inr rfl) hinv hrest hlive
  have hphase : exec .cycle s = .next (finish (convertAndShow (average v))) := by
    show Host.Outcome.next ((sampleVoltage (accept (encodeInstr .cycle) s)).conclude convertAndShow) = _
    rw [h.phase]
    rfl
  obtain rfl := Host.Outcome.next.inj (hphase.symm.trans hexec)
  obtain ⟨hcfg, hcmdr, hconv⟩ := h.atEncode_kept
  obtain ⟨hcalc, hinvEncode⟩ := h.ticks_atEncode
  have hrested : Rested (atEncode (atConvert v)) := hinvEncode.rested rfl rfl
  have hframe : inFrame (atEncode (atConvert v)) = true := by rw [inFrame, inCycle_eq_true hcmdr, Bool.or_true]
  have hdone := h.finish_showBody
  have hbody : ∀ n, ticks (sampleTicks s.cfg.val.settleTicks cs + 1 + (1 + n)) (tick (presenting 0x8000) s) =
      ticks n (tick quiet (atEncode (atConvert v))) := by
    intro n
    rw [← ticks_one_add, ticks_add _ (1 + n), sampleTicks_eq, Nat.add_assoc _ 1 1, ticks_add _ (1 + 1)]
    exact congrArg (ticks (1 + n)) ((congrArg (ticks 2) hticks).trans hcalc)
  rw [← hdone, skip_finish]
  refine ⟨fun hskip => ?shown, fun hskip => ?suppressed⟩
  case shown =>
    have hsent := ticks_startFrame_encodeFrame hrested hconv hframe hskip
    rw [hcfg] at hsent
    rw [hbody, h.tick_atEncode, hsent]
  case suppressed =>
    have hlast := hbody 0
    rw [hlast, h.tick_atEncode, ← startFrame_encodeFrame_suppressed hskip]
    rfl

end Sys2Proof.Machine
end

section
/-! SUPPORT. The reference sequencer from acceptance to `done`: its end is the first tick in `IDLE`, since `done` lasts
one tick (10_state.md R21, R29; 70_reset_and_hazards.md R127). -/

namespace Sys2Proof.Machine

/-- An operation that has ended shows no `done` at any later tick, if nothing is presented. -/
theorem ticks_done_of_idle {s : State} (hidle : s.seq.st = .idle) (n : Nat) : (ticks (n + 1) s).done = false := by
  have hafter : (tick quiet s).seq = { s.seq with donef := false } := by rw [tick_quiet_idle hidle]
  have hkept := sameCore_ticks (s := tick quiet s) (by rw [hafter]; exact hidle) (by rw [hafter]) n
  rw [ticks, State.done, hkept.seq, hafter]

/-- A run that ends with `done` was busy, without `done`, at every tick before. -/
theorem busy_before_done {s : State} {n : Nat} (hinv : Inv s) (hdone : (ticks n s).done = true) {k : Nat} (hk : k < n) :
    (ticks k s).busy = true ∧ (ticks k s).done = false := by
  have hrunning : (ticks k s).seq.st ≠ .idle := by
    intro hidle
    obtain ⟨m, rfl⟩ := Nat.exists_eq_add_of_lt hk
    rw [Nat.add_assoc, ticks_add, ticks_done_of_idle hidle] at hdone
    cases hdone
  obtain ⟨hbusy, hnot⟩ := (inv_ticks k hinv).running hrunning
  exact ⟨hbusy, hnot⟩

/-- A command that ends is reached by the reference sequencer: each command has its count of ticks. -/
theorem ticks_reach_exec {i : Instr} {s t : State} (hinv : Inv s) (hrest : AtRest s) (h : exec i s = .next t)
    (hidle : t.seq.st = .idle) : ∃ n, ticks n (tick (presenting (encodeInstr i)) s) = t := by
  have hlive : i = .sample ∨ i = .cycle → ∃ cs, AdcLive s cs := by
    intro hi
    obtain hlive | ⟨k, cs, hstall⟩ := live_or_stalls s.cfg.val.nSamples s.adc
    · exact hlive
    · obtain ⟨u, hu, -, hung, -⟩ := exec_stalls hi hstall
      obtain rfl := Host.Outcome.next.inj (hu.symm.trans h)
      rw [hung.st] at hidle
      cases hidle
  cases i with
  | nop => exact ⟨1, ticks_nop hinv hrest h⟩
  | convert mv => exact ⟨1, ticks_convert hinv hrest h⟩
  | encode p dp v => exact ⟨1, ticks_encode hinv hrest h⟩
  | pushbit b => exact ⟨_, ticks_exec_pushbit hinv hrest h⟩
  | pushbyte x => exact ⟨_, ticks_exec_pushbyte hinv hrest h⟩
  | latch => exact ⟨_, ticks_exec_latch hinv hrest h⟩
  | showDigits a b c =>
    obtain ⟨hshown, hsuppressed⟩ := sequencerRunsShow s t a b c hinv hrest h
    cases hskip : t.skip with
    | false => exact ⟨_, hshown hskip⟩
    | true => exact ⟨1, hsuppressed hskip⟩
  | sample =>
    obtain ⟨cs, hcs⟩ := hlive (.inl rfl)
    exact ⟨_, sequencerRunsSample s t cs hinv hrest hcs h⟩
  | cycle =>
    obtain ⟨cs, hcs⟩ := hlive (.inr rfl)
    obtain ⟨hshown, hsuppressed⟩ := sequencerRunsCycle s t cs hinv hrest hcs h
    cases hskip : t.skip with
    | false => exact ⟨_, hshown hskip⟩
    | true => exact ⟨_, hsuppressed hskip⟩

theorem ticks_reach_runWord {w : CmdWord} {s t : State} (hinv : Inv s) (hrest : AtRest s) (h : runWord w s = .next t)
    (hidle : t.seq.st = .idle) : ∃ n, ticks n (tick (presenting w) s) = t := by
  cases hd : decode w with
  | error e => exact ⟨1, ticks_illegal hd hinv hrest ((runWord_error hd s).symm.trans h)⟩
  | ok i =>
    obtain rfl := encodeOfDecode w i hd
    exact ticks_reach_exec hinv hrest ((runWord_encodeInstr i s).symm.trans h) hidle

theorem runWord_done {w : CmdWord} {s t : State} (h : runWord w s = .next t) (hidle : t.seq.st = .idle) :
    t.done = true := by
  cases hd : decode w with
  | error e =>
    obtain rfl := Host.Outcome.next.inj ((runWord_error hd s).symm.trans h)
    rfl
  | ok i =>
    obtain ⟨-, hends⟩ := doneLastsOneTick
    obtain ⟨hdone, -⟩ := hends i s t ((runWord_ok hd s).symm.trans h) hidle
    exact hdone

/-- Settles O56. The state that the sequencer reaches shows `done`, so no tick before it was in `IDLE`. -/
theorem sequencerRefinesCommandLevel : Obligations.SequencerRefinesCommandLevel := by
  intro s t w hinv hrest hrun hidle
  obtain ⟨n, hn⟩ := ticks_reach_runWord hinv hrest hrun hidle
  have hdone := runWord_done hrun hidle
  obtain ⟨-, haccepted⟩ := tick_presenting_busy w hrest.1
  have hpos : n ≠ 0 := by
    rintro rfl
    rw [← hn] at hdone
    exact absurd (haccepted.symm.trans hdone) (by decide)
  refine ⟨n, Nat.one_le_iff_ne_zero.mpr hpos, hn, fun k hk => ?_⟩
  exact busy_before_done (inv_tick _ hinv) (by rw [hn, hdone]) hk

end Sys2Proof.Machine
end
